-- ==== Sys2Proof/Word.lean ====
section
/-! DEFINITION. The machine words: a 64-bit word (addresses, register values, page-table entries; spec R8 `XLEN`)
and a byte. Bit 0 is the least significant bit (R9) and all address arithmetic wraps modulo 2^64 (R10), which is
what `BitVec 64` does. -/

namespace Sys2Proof

/-- A 64-bit value: an address, a register value, a page-table entry, the trap value (R8, R9, R10). -/
abbrev Word := BitVec 64

/-- One byte of memory. -/
abbrev Byte := BitVec 8

end Sys2Proof
end

