-- ==== Sys2Proof/Syntax.lean ====
section
/-! DEFINITION. The syntax of the block: what a request says once it is decoded. One constructor of `Instr` per row of
spec/opcode_table.json (R110), with the operands of R91. A request on the wire is a 16-bit command word and two 64-bit
operands (R90). -/

namespace Sys2Proof

/-- The access class (R92): fetch, load, store-or-atomic. Code 3 is reserved and is no constructor. -/
inductive AccessClass where
  | fetch
  | load
  | store
deriving DecidableEq, Repr

/-- A privilege mode (R93). Code 2 is not a mode and is no constructor. -/
inductive Mode where
  | user
  | supervisor
  | machine
deriving DecidableEq, Repr

/-- A request as the core presents it on the request port (R90, D2). -/
structure Request where
  cmd : BitVec 16
  arg0 : Word
  arg1 : Word
deriving DecidableEq, Repr

/-- The eight operations (R110). `amo` is the atomic indicator (R22), `len` a length in bytes, `sok` the
`structurallyOk` operand (R175). -/
inductive Instr where
  | validate (cls : AccessClass) (amo : Bool) (va : Word) (len : Word)
  | queryMode (cls : AccessClass)
  | refreshMode
  | translate (cls : AccessClass) (amo : Bool) (va : Word)
  | checkPerm (cls : AccessClass) (amo : Bool) (sok : Bool) (va : Word) (pte : Word)
  | pmpCheck (cls : AccessClass) (mode : Mode) (pa : Word) (len : Word)
  | spmpCheck (cls : AccessClass) (mode : Mode) (pa : Word) (len : Word)
  | access (cls : AccessClass) (amo : Bool) (va : Word) (len : Word)
deriving DecidableEq, Repr

end Sys2Proof
end

