-- ==== Sys2Proof/WellFormed.lean ====
section
/-! DEFINITION. Well-formed requests (R111), as far as a decoded request can still break the rule: an atomic indicator on
a fetch, and a length operand outside its domain. (Reserved `op`, `cls`, `mode`, non-zero unused fields and non-zero
bits 15:10 cannot be written as an `Instr`; the decoder refuses them by name.) -/

namespace Sys2Proof

/-- The length domain of `VALIDATE` and `ACCESS`: 1, 2, 4 or 8 bytes (R91, R130, R240). -/
def accessLenOk (len : Word) : Bool :=
  len == 1#64 || len == 2#64 || len == 4#64 || len == 8#64

/-- The length domain of the region checks: at least 1 (R91, R180, R210). -/
def regionLenOk (len : Word) : Bool :=
  len != 0#64

/-- `amo` = 1 with `cls` = `FETCH` is ill-formed (R111, D25). -/
def amoOk (cls : AccessClass) (amo : Bool) : Bool :=
  !(amo && cls == .fetch)

/-- The request is well formed (R111). -/
def Instr.wellFormed : Instr → Bool
  | .validate cls amo _ len => amoOk cls amo && accessLenOk len
  | .queryMode _ => true
  | .refreshMode => true
  | .translate cls amo _ => amoOk cls amo
  | .checkPerm cls amo _ _ _ => amoOk cls amo
  | .pmpCheck _ _ _ len => regionLenOk len
  | .spmpCheck _ _ _ len => regionLenOk len
  | .access cls amo _ len => amoOk cls amo && accessLenOk len

end Sys2Proof
end

