-- ==== Sys2Proof/Decode.lean ====
section
/-! DEFINITION. Decoding a request (R90 to R93, R110, R111), total on every command word and operands and refusing by name,
and the encoder written from the same tables. The opcode table's `match` and `mask` words are `rowMatch` and
`rowMask`. -/

namespace Sys2Proof

/-- Class codes (R92): 0 `FETCH`, 1 `LOAD`, 2 `STORE`. -/
def AccessClass.code : AccessClass → BitVec 2
  | .fetch => 0#2
  | .load => 1#2
  | .store => 2#2

/-- The class of a code; 3 is reserved (R92). -/
def AccessClass.ofCode (c : BitVec 2) : Option AccessClass :=
  if c = 0#2 then some .fetch
  else if c = 1#2 then some .load
  else if c = 2#2 then some .store
  else none

/-- Mode codes (R93): U 0, S 1, M 3. -/
def Mode.code : Mode → BitVec 2
  | .user => 0#2
  | .supervisor => 1#2
  | .machine => 3#2

/-- The mode of a code; 2 is not a mode (R93). -/
def Mode.ofCode (c : BitVec 2) : Option Mode :=
  if c = 0#2 then some .user
  else if c = 1#2 then some .supervisor
  else if c = 3#2 then some .machine
  else none

/-- The operations by name (R110). -/
inductive Opcode where
  | validate
  | queryMode
  | refreshMode
  | translate
  | checkPerm
  | pmpCheck
  | spmpCheck
  | access
deriving DecidableEq, Repr

/-- `op` values (R110). -/
def Opcode.code : Opcode → BitVec 4
  | .validate => 0#4
  | .queryMode => 1#4
  | .refreshMode => 2#4
  | .translate => 3#4
  | .checkPerm => 4#4
  | .pmpCheck => 5#4
  | .spmpCheck => 6#4
  | .access => 7#4

/-- The operation of an `op` value; 8 to 15 are reserved (R110, R111). -/
def Opcode.ofCode (c : BitVec 4) : Option Opcode :=
  if c = 0#4 then some .validate
  else if c = 1#4 then some .queryMode
  else if c = 2#4 then some .refreshMode
  else if c = 3#4 then some .translate
  else if c = 4#4 then some .checkPerm
  else if c = 5#4 then some .pmpCheck
  else if c = 6#4 then some .spmpCheck
  else if c = 7#4 then some .access
  else none

/-- Does the operation use `cls`? (R91) -/
def Opcode.usesCls : Opcode → Bool
  | .refreshMode => false
  | .validate | .queryMode | .translate | .checkPerm | .pmpCheck | .spmpCheck | .access => true

/-- Does the operation use `amo`? (R91) -/
def Opcode.usesAmo : Opcode → Bool
  | .validate | .translate | .checkPerm | .access => true
  | .queryMode | .refreshMode | .pmpCheck | .spmpCheck => false

/-- Does the operation use `mode`? (R91) -/
def Opcode.usesMode : Opcode → Bool
  | .pmpCheck | .spmpCheck => true
  | .validate | .queryMode | .refreshMode | .translate | .checkPerm | .access => false

/-- Does the operation use `sok`? (R91) -/
def Opcode.usesSok : Opcode → Bool
  | .checkPerm => true
  | .validate | .queryMode | .refreshMode | .translate | .pmpCheck | .spmpCheck | .access => false

/-- Does the operation use `arg0`? (R91: 0 for `QUERY_MODE` and `REFRESH_MODE`) -/
def Opcode.usesArg0 : Opcode → Bool
  | .queryMode | .refreshMode => false
  | .validate | .translate | .checkPerm | .pmpCheck | .spmpCheck | .access => true

/-- Does the operation use `arg1`? (R91: 0 for `QUERY_MODE`, `REFRESH_MODE` and `TRANSLATE`) -/
def Opcode.usesArg1 : Opcode → Bool
  | .queryMode | .refreshMode | .translate => false
  | .validate | .checkPerm | .pmpCheck | .spmpCheck | .access => true

/-- The `match` word of the operation's row in spec/opcode_table.json. -/
def Opcode.rowMatch : Opcode → BitVec 16
  | .validate => 0x0000#16
  | .queryMode => 0x0001#16
  | .refreshMode => 0x0002#16
  | .translate => 0x0003#16
  | .checkPerm => 0x0004#16
  | .pmpCheck => 0x0005#16
  | .spmpCheck => 0x0006#16
  | .access => 0x0007#16

/-- The `mask` word of the operation's row in spec/opcode_table.json. -/
def Opcode.rowMask : Opcode → BitVec 16
  | .validate => 0xff8f#16
  | .queryMode => 0xffcf#16
  | .refreshMode => 0xffff#16
  | .translate => 0xff8f#16
  | .checkPerm => 0xfd8f#16
  | .pmpCheck => 0xfe4f#16
  | .spmpCheck => 0xfe4f#16
  | .access => 0xff8f#16

/-- The row an instruction belongs to. -/
def Instr.opcode : Instr → Opcode
  | .validate _ _ _ _ => .validate
  | .queryMode _ => .queryMode
  | .refreshMode => .refreshMode
  | .translate _ _ _ => .translate
  | .checkPerm _ _ _ _ _ => .checkPerm
  | .pmpCheck _ _ _ _ => .pmpCheck
  | .spmpCheck _ _ _ _ => .spmpCheck
  | .access _ _ _ _ => .access

/-! The fields of the command word (R90). -/

def cmdOp (cmd : BitVec 16) : BitVec 4 := cmd.extractLsb' 0 4
def cmdCls (cmd : BitVec 16) : BitVec 2 := cmd.extractLsb' 4 2
def cmdAmo (cmd : BitVec 16) : Bool := cmd.getLsbD 6
def cmdMode (cmd : BitVec 16) : BitVec 2 := cmd.extractLsb' 7 2
def cmdSok (cmd : BitVec 16) : Bool := cmd.getLsbD 9
def cmdTop (cmd : BitVec 16) : BitVec 6 := cmd.extractLsb' 10 6

/-- The command word made of its fields, bits 15:10 zero (R90). -/
def mkCmd (op : BitVec 4) (cls : BitVec 2) (amo : Bool) (mode : BitVec 2) (sok : Bool) : BitVec 16 :=
  0#6 ++ BitVec.ofBool sok ++ mode ++ BitVec.ofBool amo ++ cls ++ op

/-- Why a request does not decode: the cases of R111 that concern the command word and the unused operands. -/
inductive DecodeError where
  | reservedOp      -- `op` is 8 to 15
  | reservedBits    -- `cmd[15:10]` is not 0
  | unusedCls       -- a `cls` field the operation does not use is not 0
  | unusedAmo       -- the same for `amo`
  | unusedMode      -- the same for `mode`
  | unusedSok       -- the same for `sok`
  | unusedArg0      -- an operand the operation does not use is not 0 (log entry 3)
  | unusedArg1
  | reservedCls     -- `cls` = 3 on an operation that uses `cls`
  | reservedMode    -- `mode` = 2 on an operation that uses `mode`
  | amoOnFetch      -- `amo` = 1 with `cls` = `FETCH`
deriving DecidableEq, Repr

/-- The instruction of an operation and its operands (R91). -/
def Opcode.build (op : Opcode) (cls : AccessClass) (amo : Bool) (mode : Mode) (sok : Bool) (arg0 arg1 : Word) : Instr :=
  match op with
  | .validate => .validate cls amo arg0 arg1
  | .queryMode => .queryMode cls
  | .refreshMode => .refreshMode
  | .translate => .translate cls amo arg0
  | .checkPerm => .checkPerm cls amo sok arg0 arg1
  | .pmpCheck => .pmpCheck cls mode arg0 arg1
  | .spmpCheck => .spmpCheck cls mode arg0 arg1
  | .access => .access cls amo arg0 arg1

/-- The first field the operation does not use and that is not 0 (R111). -/
def unusedFieldError (op : Opcode) (r : Request) : Option DecodeError :=
  if cmdTop r.cmd ≠ 0#6 then some .reservedBits
  else if !op.usesCls && cmdCls r.cmd != 0#2 then some .unusedCls
  else if !op.usesAmo && cmdAmo r.cmd then some .unusedAmo
  else if !op.usesMode && cmdMode r.cmd != 0#2 then some .unusedMode
  else if !op.usesSok && cmdSok r.cmd then some .unusedSok
  else if !op.usesArg0 && r.arg0 != 0#64 then some .unusedArg0
  else if !op.usesArg1 && r.arg1 != 0#64 then some .unusedArg1
  else none

/-- Decode a request (R90, R91, R110, R111). Total: every request gives an instruction or a named refusal. The domain of
a length operand is not the decoder's: it is `Instr.wellFormed`'s, which every meaning checks. -/
def decode (r : Request) : Except DecodeError Instr :=
  match Opcode.ofCode (cmdOp r.cmd) with
  | none => .error .reservedOp
  | some op =>
    match unusedFieldError op r with
    | some e => .error e
    | none =>
      match AccessClass.ofCode (cmdCls r.cmd) with
      | none => .error .reservedCls
      | some cls =>
        match Mode.ofCode (cmdMode r.cmd) with
        | none => .error .reservedMode
        | some mode =>
          if amoOk cls (cmdAmo r.cmd) then
            .ok (op.build cls (cmdAmo r.cmd) mode (cmdSok r.cmd) r.arg0 r.arg1)
          else .error .amoOnFetch

/-- Encode an instruction as a request (R90, R91): the command word from the fields it uses, the others 0. -/
def encode : Instr → Request
  | .validate cls amo va len => ⟨mkCmd Opcode.validate.code cls.code amo 0#2 false, va, len⟩
  | .queryMode cls => ⟨mkCmd Opcode.queryMode.code cls.code false 0#2 false, 0#64, 0#64⟩
  | .refreshMode => ⟨mkCmd Opcode.refreshMode.code 0#2 false 0#2 false, 0#64, 0#64⟩
  | .translate cls amo va => ⟨mkCmd Opcode.translate.code cls.code amo 0#2 false, va, 0#64⟩
  | .checkPerm cls amo sok va pte => ⟨mkCmd Opcode.checkPerm.code cls.code amo 0#2 sok, va, pte⟩
  | .pmpCheck cls mode pa len => ⟨mkCmd Opcode.pmpCheck.code cls.code false mode.code false, pa, len⟩
  | .spmpCheck cls mode pa len => ⟨mkCmd Opcode.spmpCheck.code cls.code false mode.code false, pa, len⟩
  | .access cls amo va len => ⟨mkCmd Opcode.access.code cls.code amo 0#2 false, va, len⟩

/-- The request whose bits are `w`: bits 15:0 the command word, bits 79:16 `arg0`, bits 143:80 `arg1`; of the
`nbits` lowest bits of `w`, all others 0. This layout of a request as ONE number is the model's (log entry 4). -/
def requestOfBits (nbits w : Nat) : Request :=
  let v := w % 2 ^ nbits
  { cmd := BitVec.ofNat 16 v, arg0 := BitVec.ofNat 64 (v / 2 ^ 16), arg1 := BitVec.ofNat 64 (v / 2 ^ 80) }

/-- The instruction the decoder reads from an opcode-table word. -/
def decodeTableWord (nbits w : Nat) : Option Instr :=
  match decode (requestOfBits nbits w) with
  | .ok i => some i
  | .error _ => none

end Sys2Proof
end

