-- ==== Sys2Proof/Config.lean ====
section
/-! DEFINITION. The instance parameters the spec leaves OPEN (R8, 92_eei_decisions.md "Open parameters"): "`OPEN`
means the model takes it as an argument". A step takes no argument but the state, so the state carries one `Config`,
no step changes it, and a claim about every state is a claim about every value of every parameter (log entry 1). The
defaults stand in Machine/Defaults.lean. The spec leaves no value undefined after an operation, so there is no
free value here. -/

namespace Sys2Proof

/-- `AD_POLICY` (R8, D17): how accessed and dirty bits are maintained. -/
inductive AdPolicy where
  | hwUpdate   -- "hardware-managed update policy" (R158)
  | excUpdate  -- "exception-based update policy" (R159)
deriving DecidableEq, Repr

/-- What the model does when a PREMISE of an access fails: the mode flags are stale (R285, U5) or an `ACCESS` crosses a
page boundary (R291, U25). The spec gives the literal answer and also says a model should refuse: both are
here, the choice is a parameter of the instance (log entry 2). -/
inductive PremisePolicy where
  | mirror  -- the literal answer of R285 and R291, "for a model that wants to mirror the software" (U5)
  | refuse  -- the access is refused by name
deriving DecidableEq, Repr

/-- A set of permissions drawn from {r, w, x} (R213). -/
structure PermSet where
  r : Bool
  w : Bool
  x : Bool
deriving DecidableEq, Repr

/-- `SPMP_PERM`: three tables of 16 entries, each indexed by the key `S R W X` of R107 (R213, R215). -/
structure SpmpTables where
  user : Vector PermSet 16
  sup0 : Vector PermSet 16  -- supervisor, `sum` = 0
  sup1 : Vector PermSet 16  -- supervisor, `sum` = 1
deriving DecidableEq, Repr

/-- `PMPT_*`: the layout of the PMP lookup table (R195, D31), each number a parameter. DESIGN CHOICE (log entry 11): R195 leaves
the parameters open, and this gives each a form. An index and a nibble are each one run of adjacent bits, the single-level
mark is one bit, and a leaf-table address is two shifts; the permission bits and the two bits of the shared pattern are
any bits of the nibble, each placed by itself. -/
structure PmptLayout where
  pageLo : Nat          -- `PMPT_PAGE`: lowest offset bit of the 4-bit page index (16 nibbles to a leaf entry)
  off0Lo : Nat          -- `PMPT_OFF0`: lowest offset bit of the leaf-table index
  off0Bits : Nat
  off1Lo : Nat          -- `PMPT_OFF1`: lowest offset bit of the root-table index
  off1Bits : Nat
  singleBit : Nat       -- `PMPT_ROOT_SINGLE`: the root-entry bit that tells single-level from two-level
  singleValue : Bool    -- the value of that bit that says single-level
  rootNibbleLo : Nat    -- `PMPT_ROOT_NIBBLE`: lowest bit of the nibble held in a single-level root entry
  leafShiftRight : Nat  -- `PMPT_LEAF_BASE(e) = (e >> leafShiftRight) << leafShiftLeft`
  leafShiftLeft : Nat
  rBit : Nat            -- nibble bit of `R`
  wBit : Nat            -- nibble bit of `W`
  xBit : Nat            -- nibble bit of `X`
  sharedHi : Nat        -- nibble bit that holds the 1 of the shared pattern `0b10`
  sharedLo : Nat        -- nibble bit that holds its 0; adjacent to the other or not
  execOnly : BitVec 4   -- the execute-only nibble the shared pattern is normalised to (R198)
deriving DecidableEq, Repr

/-- The parameters of one instance of the block (R8). `FI_LIMIT`, the widths and the page geometry are not
parameters: the source fixes them. -/
structure Config where
  adPolicy : AdPolicy         -- `AD_POLICY`
  alignSoft : Bool            -- `ALIGN_SOFT`
  guided : Bool               -- `GUIDED`
  npmp : Nat                  -- `NPMP`
  nspmp : Nat                 -- `NSPMP`
  pmptableExt : Bool          -- `PMPTABLE_EXT`
  pmpt : PmptLayout           -- `PMPT_*`
  spmpPerm : SpmpTables       -- `SPMP_PERM`
  spmpEn : Bool               -- `SPMP_EN`
  premises : PremisePolicy    -- the model's own: what a failed premise does (log entry 2)
deriving DecidableEq, Repr

end Sys2Proof
end

