-- ==== Sys2Proof/Machine/Defaults.lean ====
section
/-! DEFINITION. The default values of the open parameters: the SPMP permission tables of R215, the lookup-table layout
of R195, and the configuration the spec's own test vectors assume (95_test_vectors.md, Conventions). They stand under
Machine/ so that a later repair can mend a number. No statement rests on a default unless it names it. -/

namespace Sys2Proof.Machine

/-- One cell of the R215 table. -/
def permSet (r w x : Bool) : PermSet := ⟨r, w, x⟩

/-- Column `U` of R215, keys `0000` to `1111`: - x r rw r rx rw rwx - - x x - - - r. -/
def spmpUserDefault : Vector PermSet 16 :=
  #v[permSet false false false, permSet false false true, permSet true false false, permSet true true false,
     permSet true false false, permSet true false true, permSet true true false, permSet true true true,
     permSet false false false, permSet false false false, permSet false false true, permSet false false true,
     permSet false false false, permSet false false false, permSet false false false, permSet true false false]

/-- Column `S0` of R215 (supervisor, `sum` = 0): - - rw rw - - - - - x x rx r rx rw r. -/
def spmpSup0Default : Vector PermSet 16 :=
  #v[permSet false false false, permSet false false false, permSet true true false, permSet true true false,
     permSet false false false, permSet false false false, permSet false false false, permSet false false false,
     permSet false false false, permSet false false true, permSet false false true, permSet true false true,
     permSet true false false, permSet true false true, permSet true true false, permSet true false false]

/-- Column `S1` of R215 (supervisor, `sum` = 1): - - rw rw r r rw rw - x x rx r rx rw r. -/
def spmpSup1Default : Vector PermSet 16 :=
  #v[permSet false false false, permSet false false false, permSet true true false, permSet true true false,
     permSet true false false, permSet true false false, permSet true true false, permSet true true false,
     permSet false false false, permSet false false true, permSet false false true, permSet true false true,
     permSet true false false, permSet true false true, permSet true true false, permSet true false false]

/-- The default `SPMP_PERM` (R215, D34): PRESUMED, log entry 12. -/
def spmpTablesDefault : SpmpTables :=
  { user := spmpUserDefault, sup0 := spmpSup0Default, sup1 := spmpSup1Default }

/-- The default lookup-table layout (R195, D31): `o[15:12]`, `o[24:16]`, `o[33:25]`, `e[0] = 1`, `e[4:1]`,
`(e >> 5) << 12`, nibble bits `R` 0, `W` 1, `X` 2, shared pattern in bits 1:0, execute-only `0b0100` (R198). -/
def pmptLayoutDefault : PmptLayout :=
  { pageLo := 12, off0Lo := 16, off0Bits := 9, off1Lo := 25, off1Bits := 9, singleBit := 0, singleValue := true,
    rootNibbleLo := 1, leafShiftRight := 5, leafShiftLeft := 12, rBit := 0, wBit := 1, xBit := 2, sharedHi := 1, sharedLo := 0,
    execOnly := 0b0100#4 }

/-- The configuration of 95_test_vectors.md, "Unless a vector says otherwise" (log entry 1). -/
def configDefault : Config :=
  { adPolicy := .hwUpdate, alignSoft := false, guided := false, npmp := 16, nspmp := 16, pmptableExt := false,
    pmpt := pmptLayoutDefault, spmpPerm := spmpTablesDefault, spmpEn := true, premises := .mirror }

end Sys2Proof.Machine
end

