-- ==== Sys2Proof/Machine/State.lean ====
section
/-! DEFINITION. The machine's state as plain data: what the block owns (10_state.md R23, R25), what it consumes (R30 to
R37), memory (20_memory.md), the block's ports (92_eei_decisions.md D2), and the instance parameters; the reasons a
step can stop; and the state after reset (70_reset_and_hazards.md R280 to R282). -/

namespace Sys2Proof.Machine

/-- An MMU mode (R23): `Direct` (0) or `Translate` (1). -/
inductive MmuMode where
  | direct
  | translate
deriving DecidableEq, Repr

/-- One class's cells of the Fault Injector (R25): `fi_last[c]` and the 3-bit `fi_count[c]`. -/
structure FiCell where
  last : Word
  count : BitVec 3
deriving DecidableEq, Repr

/-- The Fault Injector's cells for classes 0 fetch, 1 load, 2 store (R25, R92). -/
structure FiCells where
  fetch : FiCell
  load : FiCell
  store : FiCell
deriving DecidableEq, Repr

/-- A region descriptor (R34, R35): the configuration byte and the 64-bit address field. -/
structure Region where
  cfg : BitVec 8
  addr : Word
deriving DecidableEq, Repr

/-- One PMP entry: its descriptor and `pmptbase[i]`, read only when `PMPTABLE_EXT` (R34, R36). -/
structure PmpEntry where
  region : Region
  tbase : Word
deriving DecidableEq, Repr

/-- The reference-model guide (R37), read only when `GUIDED`. -/
structure Guide where
  active : Bool
  force : Bool
  excnum : BitVec 6
  tval : Word
deriving DecidableEq, Repr

/-- The state the block consumes (R30 to R37): sampled at the start of an operation (R38) and never written by one. -/
structure CoreRegs where
  curMode : BitVec 2      -- `cur_mode` (R30)
  satp : Word             -- the root-table pointer (R31)
  mprv : Bool             -- the status controls (R32)
  mpp : BitVec 2
  sum : Bool
  mxr : Bool
  pmp : List PmpEntry     -- `pmpcfg[]`, `pmpaddr[]`, `pmptbase[]` (R34, R36)
  spmp : List Region      -- `spmpcfg[]`, `spmpaddr[]` (R35)
  guide : Guide           -- R37
deriving DecidableEq, Repr

/-- Memory: a list of (address, byte) pairs. An address that is not listed has no byte behind it: reading it is stuck (R64,
log entry 6). -/
abbrev Memory := List Host.Cell

/-- The canonical form: addresses strictly rising and below 2^64. An unlisted address reads as no value, so every
listed byte differs from that. -/
abbrev Memory.wf (m : Memory) : Prop :=
  m.Pairwise (fun a b => a.1 < b.1) ∧ ∀ c ∈ m, c.1 < 2 ^ 64

/-- A consumed register by name, for a change the core makes between two operations (R38, R143). -/
inductive CtrlReg where
  | curMode | satp | mprv | mpp | sum | mxr
  | pmpcfg (i : Nat) | pmpaddr (i : Nat) | pmptbase (i : Nat)
  | spmpcfg (i : Nat) | spmpaddr (i : Nat)
  | guideActive | guideForce | guideExcnum | guideTval
deriving DecidableEq, Repr

/-- What the world outside does to the block, one thing at a time, between operations (R21, R38, R72; log entry 5): present
a request; change a consumed register; store bytes to memory; pull reset. -/
inductive CoreEvent where
  | request (r : Request)
  | setReg (r : CtrlReg) (v : Word)
  | store (addr : Word) (bytes : List Byte)
  | reset
deriving DecidableEq, Repr

/-- The five fault kinds (R250, R251). -/
inductive FaultKind where
  | lam  -- load address misaligned
  | sam  -- store/AMO address misaligned
  | ipf  -- instruction page fault
  | lpf  -- load page fault
  | spf  -- store page fault
deriving DecidableEq, Repr

/-- The response's status (R94). `abort` never stands in a state: an `Abort` is a refusal, never a step (R262). -/
inductive Status where
  | ok
  | fault
  | abort
deriving DecidableEq, Repr

/-- The two further bits of an `ACCESS` response (R94, R240). -/
structure RegionBits where
  pmpOk : Bool
  spmpOk : Bool
deriving DecidableEq, Repr

/-- The response port (R94, D2). `checks` is present on an `Ok` of `ACCESS` only. -/
structure Response where
  status : Status
  value : Word
  checks : Option RegionBits
deriving DecidableEq, Repr

/-- The exception output while it is valid (R256, D39). -/
structure ExcOut where
  kind : FaultKind
  tval : Word
deriving DecidableEq, Repr

/-- The access-kind tags (R62). -/
inductive BusTag where
  | ptwFetchRead
  | ptwLoadRead
  | ptwStoreRead
  | ptwWriteback
  | pmptRead
deriving DecidableEq, Repr

/-- Which primitive was called (R60, R61). -/
inductive BusKind where
  | read
  | write
deriving DecidableEq, Repr

/-- One call of a backing-store primitive on the memory master port: its arguments and the value read or written (R60, R61,
R62, R63). -/
structure BusAccess where
  kind : BusKind
  addr : Word
  bytes : Nat
  tag : BusTag
  mode : Mode
  origva : Word
  value : Word
deriving DecidableEq, Repr

/-- The block's outputs for the latest step: the response and the exception output, both absent when the step served
no request; the calls made on the memory port, oldest first; and the mismatch warning (R230, diagnostic only). -/
structure Outputs where
  resp : Option Response
  exc : Option ExcOut
  bus : List BusAccess
  warn : Bool
deriving DecidableEq, Repr

/-- The machine's state. -/
structure State where
  cfg : Config              -- the instance's parameters (R8), never changed
  fetchMode : MmuMode       -- `fetch_mode` (R23)
  dataMode : MmuMode        -- `data_mode` (R23)
  fi : FiCells              -- `fi_last[]`, `fi_count[]` (R25)
  regs : CoreRegs           -- the consumed registers (R30 to R37)
  tval : Word               -- the trap-value register (R33)
  mem : Memory              -- the backing store (R60, R61)
  inputs : List CoreEvent   -- what the core has yet to present, oldest first (R21)
  out : Outputs             -- the ports (D2)
deriving DecidableEq, Repr

/-- How the machine stops with a fault. (The block's five fault KINDS are no such stop: they are raised, and a raise
is a next state.) -/
inductive Fault where
  /-- A table read of an address with no memory behind it: "must treat a walk read outside its memory as stuck or
  refused, never as a read of zero" (R64, U23). Raised by every table read: `TRANSLATE`, `ACCESS`, and with the
  lookup-table extension `PMP_CHECK`. Safe: the machine stops where hardware's collaborator would dispatch a fault
  of its own. -/
  | unpopulatedRead (addr : Word)
deriving DecidableEq, Repr

/-- Why the machine refuses: `Abort(reason)` of R262, which "a model must treat as a refusal, never as a step". -/
inductive Refusal where
  /-- An instruction without a meaning. Raised by no arm of this model. Safe. -/
  | notModelled (mnemonic : String)
  /-- `Abort(BadRequest)`: an ill-formed request (R111). Raised by the decoder's refusals and by every meaning given
  an ill-formed instruction. Safe. -/
  | badRequest
  /-- `Abort(UnsupportedPagingMode)` (R142): selector neither 0 nor 8 below machine mode. Raised by `REFRESH_MODE`. Safe. -/
  | unsupportedPagingMode
  /-- `Abort(BadMode)` (R265): the effective mode's code is 2. Raised by `REFRESH_MODE`, `TRANSLATE`, `CHECK_PERM`,
  `ACCESS`. Safe. -/
  | badMode
  /-- `Abort(TranslateInMachineMode)` (R162). Raised by `TRANSLATE`, and by `ACCESS` on a stale flag. Safe. -/
  | translateInMachineMode
  /-- `Abort(EvaluatorInMachineMode)` (R176). Raised by `CHECK_PERM`. Safe. -/
  | evaluatorInMachineMode
  /-- The mode flags are stale and the instance refuses accesses whose premises fail (R285, U5). Raised by
  `VALIDATE`, `QUERY_MODE`, `ACCESS` when `premises = refuse`. Safe. -/
  | staleModeFlags
  /-- An `ACCESS` crosses a page boundary and the instance refuses accesses whose premises fail (R291, U25). Raised by
  `ACCESS` when `premises = refuse`. Safe. -/
  | pageCrossing
deriving DecidableEq, Repr

/-- The injector's cells after reset (R281). -/
def fiCellReset : FiCell := { last := 0#64, count := 0#3 }

/-- The outputs when nothing was served. -/
def Outputs.none : Outputs := { resp := Option.none, exc := Option.none, bus := [], warn := false }

/-- The consumed registers the model names for `State.reset`: the spec gives them no reset value (R282). Machine mode
with the override clear is the reason R280 gives; the rest are zero (log entry 7). -/
def coreRegsReset (cfg : Config) : CoreRegs :=
  { curMode := 3#2, satp := 0#64, mprv := false, mpp := 0#2, sum := false, mxr := false,
    pmp := List.replicate cfg.npmp { region := { cfg := 0#8, addr := 0#64 }, tbase := 0#64 },
    spmp := List.replicate cfg.nspmp { cfg := 0#8, addr := 0#64 },
    guide := { active := false, force := false, excnum := 0#6, tval := 0#64 } }

/-- The state after reset of an instance with the given parameters: mode flags Direct (R280), injector cells zero (R281), no
memory behind any address, nothing presented; the consumed registers as the log names them (R282). -/
def State.resetOf (cfg : Config) : State :=
  { cfg := cfg, fetchMode := .direct, dataMode := .direct,
    fi := { fetch := fiCellReset, load := fiCellReset, store := fiCellReset },
    regs := coreRegsReset cfg, tval := 0#64, mem := [], inputs := [], out := Outputs.none }

/-- The machine right after reset, with the spec's default parameters. -/
def State.reset : State := State.resetOf configDefault

end Sys2Proof.Machine
end

