-- ==== Sys2Proof/Machine/Operands.lean ====
section
/-! DEFINITION. The formats the block reads: page-table entries (R95 to R97), virtual and physical addresses (R98, R99,
R131, R157, R161, R242), the root-table pointer (R31), region descriptors (R34, R35, R104 to R107), and the codes of
the ports (R62, R94). -/

namespace Sys2Proof.Machine

/-! ## Codes -/

/-- Direct 0, Translate 1 (R23, D11). -/
def MmuMode.code : MmuMode → BitVec 1
  | .direct => 0#1
  | .translate => 1#1

/-- `status` codes (R94). -/
def Status.code : Status → BitVec 2
  | .ok => 0#2
  | .fault => 1#2
  | .abort => 2#2

/-- Tag codes (R62). -/
def BusTag.code : BusTag → Nat
  | .ptwFetchRead => 3
  | .ptwLoadRead => 5
  | .ptwStoreRead => 4
  | .ptwWriteback => 6
  | .pmptRead => 7

/-- A Boolean in a response's `value` (R94). -/
def boolWord (b : Bool) : Word := if b then 1#64 else 0#64

/-! ## The page-table entry (R95) -/

def pteV (p : Word) : Bool := p.getLsbD 0
def pteR (p : Word) : Bool := p.getLsbD 1
def pteW (p : Word) : Bool := p.getLsbD 2
def pteX (p : Word) : Bool := p.getLsbD 3
def pteU (p : Word) : Bool := p.getLsbD 4
def pteG (p : Word) : Bool := p.getLsbD 5
def pteA (p : Word) : Bool := p.getLsbD 6
def pteD (p : Word) : Bool := p.getLsbD 7
def pteRsw (p : Word) : BitVec 2 := p.extractLsb' 8 2
def ptePpn (p : Word) : BitVec 44 := p.extractLsb' 10 44
def ptePad (p : Word) : BitVec 10 := p.extractLsb' 54 10

/-- The four classes of a page-table entry (R96). -/
inductive PteKind where
  | absent
  | malformed
  | leaf
  | pointer
deriving DecidableEq, Repr

/-- Classification, in the order of tests of R96. -/
def pteKind (p : Word) : PteKind :=
  if !pteV p then .absent
  else if !pteR p && pteW p then .malformed
  else if pteR p || pteX p then .leaf
  else .pointer

/-- The entry with its accessed bit set, and its dirty bit too on a store; every other bit as it was (R158). -/
def pteMarked (p : Word) (cls : AccessClass) : Word :=
  p ||| (1#64 <<< 6) ||| (if cls = .store then 1#64 <<< 7 else 0#64)

/-- Must the entry be written back under `HW_UPDATE`? (R158) -/
def pteNeedsMark (p : Word) (cls : AccessClass) : Bool :=
  !pteA p || (!pteD p && cls == .store)

/-! ## Addresses -/

/-- `satp.mode` (R31). -/
def satpMode (satp : Word) : BitVec 4 := satp.extractLsb' 60 4

/-- `satp.ppn` (R31). -/
def satpPpn (satp : Word) : BitVec 44 := satp.extractLsb' 0 44

/-- The byte address of a page number: `zext(ppn) << 12` (R99). -/
def pageBase (ppn : BitVec 44) : Word := ppn.setWidth 64 <<< 12

/-- `vpn(va, level)`, the level's 9-bit slice (R98). -/
def vpn (va : Word) (level : Nat) : BitVec 9 := va.extractLsb' (12 + 9 * level) 9

/-- The address of the entry a walk reads at a level (R152). -/
def pteAddr (base va : Word) (level : Nat) : Word := base + (vpn va level).setWidth 64 * 8#64

/-- `canonical(va)`: bits 63:39 each equal bit 38 (R131). -/
def canonical (va : Word) : Bool :=
  va.extractLsb' 39 25 == (if va.getLsbD 38 then BitVec.allOnes 25 else 0#25)

/-- The offset mask of a page at a level: `(1 << (12 + 9*level)) - 1` (R157). -/
def pageMask (level : Nat) : Word := (1#64 <<< (12 + 9 * level)) - 1#64

/-- A superpage whose base has a bit below its size (R157). -/
def superMisaligned (base : Word) (level : Nat) : Bool :=
  base &&& pageMask level != 0#64

/-- The page base of a leaf: a superpage's low page-number bits come from the virtual address, bits 11:0 stay
zero (R157). -/
def leafBase (base va : Word) (level : Nat) : Word :=
  if level = 0 then base
  else (base &&& ~~~(pageMask level)) ||| (va &&& pageMask level &&& ~~~0xfff#64)

/-- `OK` and `FAIL`, the markers of a translate result (R109). -/
def markerOk : Word := 0#64
def failWord : Word := 1#64

/-- `pa = value[63:12] ++ va[11:0]` (R242). -/
def physAddr (value va : Word) : Word := value.extractLsb' 12 52 ++ va.extractLsb' 0 12

/-- `va mod len` is not 0, for a length that is a power of two (R133, R78). -/
def misaligned (va len : Word) : Bool := va &&& (len - 1#64) != 0#64

/-- The bytes `[va, va+len)` lie in two 4 KiB pages (R291). -/
def crossesPage (va len : Word) : Bool := decide (4096 < (va.extractLsb' 0 12).toNat + len.toNat)

/-! ## Region descriptors -/

/-- The address-matching modes of bits 4:3 (R34). -/
inductive RegionMode where
  | off
  | tor
  | na4
  | napot
deriving DecidableEq, Repr

/-- `A`: bits 4:3; 0 off, 1 TOR, 2 NA4, 3 NAPOT (R34, R35). -/
def regionMode (cfg : BitVec 8) : RegionMode :=
  if cfg.extractLsb' 3 2 = 0#2 then .off
  else if cfg.extractLsb' 3 2 = 1#2 then .tor
  else if cfg.extractLsb' 3 2 = 2#2 then .na4
  else .napot

def cfgR (c : BitVec 8) : Bool := c.getLsbD 0
def cfgW (c : BitVec 8) : Bool := c.getLsbD 1
def cfgX (c : BitVec 8) : Bool := c.getLsbD 2
/-- PMP `T`, the table bit (R34). -/
def cfgT (c : BitVec 8) : Bool := c.getLsbD 5
/-- PMP `L`, the lock bit (R34). -/
def cfgL (c : BitVec 8) : Bool := c.getLsbD 7
/-- SPMP `S`, the supervisor bit (R35). -/
def cfgS (c : BitVec 8) : Bool := c.getLsbD 7

/-- `bound(a) = (a << 2) mod 2^64` (R104). -/
def regionBound (a : Word) : Word := a <<< 2

/-- The NAPOT mask, exact at every run of trailing ones (R105). -/
def napotMask (a : Word) : Word :=
  let m := (a <<< 1) ||| 1#64
  let t := m &&& ~~~(m + 1#64)
  (~~~t) <<< 2

/-- The NA4 mask (R106). -/
def na4Mask : Word := (~~~0#64) <<< 2

/-- The mask of a region that is matched by mask (R186). -/
def maskOf (mode : RegionMode) (a : Word) : Word :=
  match mode with
  | .napot => napotMask a
  | .off | .tor | .na4 => na4Mask

/-- `match(cur) = ((cur ^ (a << 2)) & nmask) = 0` (R105, R106). -/
def maskMatch (mask a cur : Word) : Bool := (cur ^^^ regionBound a) &&& mask == 0#64

/-- `base <= cur < bound`, unsigned (R185). -/
def torMatch (base bound cur : Word) : Bool := decide (base ≤ cur) && decide (cur < bound)

/-- Does one test point lie in the entry? (R181, R185, R186) `base` is the running base (R184). -/
def pointMatch (r : Region) (base cur : Word) : Bool :=
  match regionMode r.cfg with
  | .off => false
  | .tor => torMatch base (regionBound r.addr) cur
  | .na4 => maskMatch na4Mask r.addr cur
  | .napot => maskMatch (napotMask r.addr) r.addr cur

/-- `region_base(i)` (R188). -/
def regionBase (r : Region) (base : Word) : Word :=
  match regionMode r.cfg with
  | .off | .tor => base
  | .na4 => regionBound r.addr
  | .napot => regionBound r.addr &&& napotMask r.addr

/-- The SPMP key `S ++ R ++ W ++ X`, `S` most significant (R107). -/
def spmpKey (c : BitVec 8) : BitVec 4 :=
  BitVec.ofBool (cfgS c) ++ BitVec.ofBool (cfgR c) ++ BitVec.ofBool (cfgW c) ++ BitVec.ofBool (cfgX c)

/-- Is the class's permission in the set? (R213) -/
def permAllows (t : PermSet) : AccessClass → Bool
  | .load => t.r
  | .store => t.w
  | .fetch => t.x

/-! ## The lookup table (R195, R198, R199) -/

/-- `PMPT_PAGE(o)`. -/
def pmptPage (l : PmptLayout) (o : Word) : BitVec 4 := o.extractLsb' l.pageLo 4

/-- `PMPT_OFF0(o)`. -/
def pmptOff0 (l : PmptLayout) (o : Word) : Word := (o.extractLsb' l.off0Lo l.off0Bits).setWidth 64

/-- `PMPT_OFF1(o)`. -/
def pmptOff1 (l : PmptLayout) (o : Word) : Word := (o.extractLsb' l.off1Lo l.off1Bits).setWidth 64

/-- `PMPT_ROOT_SINGLE(e)`. -/
def pmptSingle (l : PmptLayout) (e : Word) : Bool := e.getLsbD l.singleBit == l.singleValue

/-- `PMPT_ROOT_NIBBLE(e)`. -/
def pmptRootNibble (l : PmptLayout) (e : Word) : BitVec 4 := e.extractLsb' l.rootNibbleLo 4

/-- `PMPT_LEAF_BASE(e)`. -/
def pmptLeafBase (l : PmptLayout) (e : Word) : Word := (e >>> l.leafShiftRight) <<< l.leafShiftLeft

/-- `le[4*p + 3 : 4*p]` (R196). -/
def pmptLeafNibble (e : Word) (p : BitVec 4) : BitVec 4 := e.extractLsb' (4 * p.toNat) 4

/-- `pmpt_normalise(n)`: where the two shared-pattern bits, wherever the layout has them, are `0b10`, the nibble becomes
execute-only (R195, R198). -/
def pmptNormalise (l : PmptLayout) (n : BitVec 4) : BitVec 4 :=
  if n.getLsbD l.sharedHi && !n.getLsbD l.sharedLo then l.execOnly else n

/-- `pmpt_bit(n, cls)` (R199). -/
def pmptBit (l : PmptLayout) (n : BitVec 4) : AccessClass → Bool
  | .load => n.getLsbD l.rBit
  | .store => n.getLsbD l.wBit
  | .fetch => n.getLsbD l.xBit

/-- A `pmptbase` register holds the 4096-byte aligned address of a table: bits 11:0 are zero whatever is written (R36; log
entry 11). -/
def tableBase (v : Word) : Word := v.extractLsb' 12 52 ++ 0#12

/-! ## Test points (R183) -/

/-- The test points `pa, pa+4, pa+8, ...` while the offset is below `len`: `ceil(len / 4)` of them, each
`(pa + off) mod 2^64`. -/
def testPoints (pa len : Word) : List Word :=
  (List.range ((len.toNat + 3) / 4)).map (fun k => pa + BitVec.ofNat 64 (4 * k))

end Sys2Proof.Machine
end

