-- ==== Sys2Proof/Machine/Flags.lean ====
section
/-! DEFINITION. What the control signals decide: the effective privilege mode (R265), the two MMU mode flags (R140, R144,
R285), and the fault kind of a class (R251 to R253). The block has no condition codes (R22). -/

namespace Sys2Proof.Machine

/-- `FaultKind` codes (R251). -/
def FaultKind.code : FaultKind → BitVec 6
  | .lam => 4#6
  | .sam => 6#6
  | .ipf => 12#6
  | .lpf => 13#6
  | .spf => 15#6

/-- `pf_kind(cls, amo)` (R252). -/
def pfKind (cls : AccessClass) (amo : Bool) : FaultKind :=
  match cls with
  | .fetch => .ipf
  | .load => if amo then .spf else .lpf
  | .store => .spf

/-- `pf_code(cls) = pf_kind(cls, 0)` (R228, R252). -/
def pfCode (cls : AccessClass) : FaultKind := pfKind cls false

/-- The misaligned kind of a data access (R253). -/
def misalignedKind (cls : AccessClass) (amo : Bool) : FaultKind :=
  if amo || cls == .store then .sam else .lam

/-- The code of the effective mode: the override applies to data accesses only (R265). -/
def effModeCode (r : CoreRegs) (cls : AccessClass) : BitVec 2 :=
  if r.mprv && cls != .fetch then r.mpp else r.curMode

/-- `effMode(cls)` (R265). -/
def effMode (r : CoreRegs) (cls : AccessClass) : Except Refusal Mode :=
  match Mode.ofCode (effModeCode r cls) with
  | some m => .ok m
  | none => .error .badMode

/-- `computeMode(cls)` (R140, R142, R145). -/
def computeMode (r : CoreRegs) (cls : AccessClass) : Except Refusal MmuMode :=
  match effMode r cls with
  | .error e => .error e
  | .ok .machine => .ok .direct
  | .ok .user | .ok .supervisor =>
    if satpMode r.satp = 8#4 then .ok .translate
    else if satpMode r.satp = 0#4 then .ok .direct
    else .error .unsupportedPagingMode

/-- The stored flag of a class (R144). -/
def modeFlag (s : State) (cls : AccessClass) : MmuMode :=
  match cls with
  | .fetch => s.fetchMode
  | .load | .store => s.dataMode

/-- A computed mode equals a stored flag. -/
def agrees (m : Except Refusal MmuMode) (flag : MmuMode) : Bool :=
  match m with
  | .ok f => f == flag
  | .error _ => false

/-- Freshness: `fetch_mode = computeMode(FETCH)` and `data_mode = computeMode(LOAD)` (R285). -/
def fresh (s : State) : Bool :=
  agrees (computeMode s.regs .fetch) s.fetchMode && agrees (computeMode s.regs .load) s.dataMode

/-- The instance serves an operation that reads the mode flags: always when it mirrors the software, only with fresh flags
when it refuses failed premises (R285, U5). -/
def flagsUsable (s : State) : Bool := s.cfg.premises == .mirror || fresh s

/-- The instance serves this `ACCESS` as far as page crossing goes (R291, U25). -/
def pageUsable (s : State) (va len : Word) : Bool := s.cfg.premises == .mirror || !crossesPage va len

/-- The page-table read tag of a class (R62, R153). -/
def ptwTag (cls : AccessClass) : BusTag :=
  match cls with
  | .fetch => .ptwFetchRead
  | .load => .ptwLoadRead
  | .store => .ptwStoreRead

end Sys2Proof.Machine
end

