-- ==== Sys2Proof/Machine/Ops.lean ====
section
/-! DEFINITION. The operations the meanings share: the backing store (20_memory.md R60 to R65), the memory master port, the
three outcomes of an operation (R12), raising a fault (R256: the block's whole part in taking an exception), serving a
request (R94), and what the world outside does between operations. Returning from an exception is the core's (R261):
the block has no operation for it and no state that it would restore. -/

namespace Sys2Proof.Machine

/-! ## The backing store -/

/-- The byte at an address, if there is one. -/
def Memory.get : Memory → Nat → Option Byte
  | [], _ => none
  | c :: rest, a => if c.1 = a then some c.2 else Memory.get rest a

/-- Put a byte at an address, keeping the canonical form. -/
def Memory.set : Memory → Nat → Byte → Memory
  | [], a, b => [(a, b)]
  | c :: rest, a, b =>
    if a < c.1 then (a, b) :: c :: rest
    else if a = c.1 then (a, b) :: rest
    else c :: Memory.set rest a b

/-- The byte at a 64-bit physical address. -/
def Memory.byte (m : Memory) (a : Word) : Option Byte := m.get a.toNat

/-- The `n`-byte little-endian value at an address (R60, R65); none when a byte has no memory behind it (R64). -/
def Memory.readLE (m : Memory) (a : Word) : Nat → Option Word
  | 0 => some 0#64
  | n + 1 =>
    match m.byte a, Memory.readLE m (a + 1#64) n with
    | some b, some v => some (b.setWidth 64 ||| (v <<< 8))
    | _, _ => none

/-- Write the `n` low bytes of a value, the lowest at the lowest address (R61, R65). -/
def Memory.writeLE (m : Memory) (a : Word) (v : Word) : Nat → Memory
  | 0 => m
  | n + 1 => Memory.writeLE (m.set a.toNat (v.setWidth 8)) (a + 1#64) (v >>> 8) n

/-- The 8-byte read and write, the only widths the block uses (R60, R61). -/
def Memory.readWord (m : Memory) (a : Word) : Option Word := m.readLE a 8
def Memory.writeWord (m : Memory) (a : Word) (v : Word) : Memory := m.writeLE a v 8

/-- Write bytes from an address upward: the core's own store (R72). -/
def Memory.storeBytes : Memory → Word → List Byte → Memory
  | m, _, [] => m
  | m, a, b :: bs => Memory.storeBytes (m.set a.toNat b) (a + 1#64) bs

/-! ## Updates of the state, one name each -/

/-- The state at the start of an operation: the outputs of the operation before are gone (R256 "asserted once"). -/
def State.beginOp (s : State) : State := { s with out := Outputs.none }

/-- The event at the head of the input is taken. -/
def State.dropInput (s : State) : State := { s with inputs := s.inputs.tail }

/-- One more call on the memory master port. -/
def State.logBus (s : State) (b : BusAccess) : State := { s with out := { s.out with bus := s.out.bus ++ [b] } }

def State.setMem (s : State) (m : Memory) : State := { s with mem := m }

def State.setRegs (s : State) (r : CoreRegs) : State := { s with regs := r }

def State.setModes (s : State) (f d : MmuMode) : State := { s with fetchMode := f, dataMode := d }

def State.setFi (s : State) (f : FiCells) : State := { s with fi := f }

def State.setWarn (s : State) (b : Bool) : State := { s with out := { s.out with warn := b } }

/-- The response of an operation that ended in `Ok` (R94). -/
def State.respond (s : State) (r : Response) : State := { s with out := { s.out with resp := some r } }

/-- `Ok(value)` (R94). -/
def okResponse (v : Word) : Response := { status := .ok, value := v, checks := none }

/-- The response of a fault: `value` holds the `FAIL` word (R109, R160; log entry 9). -/
def faultResponse : Response := { status := .fault, value := failWord, checks := none }

/-- `raise K(tval = v)` (R256): the trap-value register is written, then the exception output is asserted with the kind
and the value; the outcome is `Fault(K, v)`. It saves nothing else (R257): the mode, the pc and the handler are the
core's. -/
def State.raise (s : State) (k : FaultKind) (v : Word) : State :=
  { s with tval := v, out := { s.out with resp := some faultResponse, exc := some { kind := k, tval := v } } }

/-! ## The outcome of an operation (R12) -/

/-- `Ok(value)` with the state so far; `Fault`: the state after the raise; `Abort(reason)`; or stuck at a read with no memory
behind it (R64). -/
inductive Res (α : Type) where
  | ok (a : α) (s : State)
  | raised (s : State)
  | abort (r : Refusal)
  | stuck (f : Fault)
deriving DecidableEq, Repr

/-- What follows runs only after an `Ok`: "none of the caller's remaining logic ... executes" (R258). -/
def Res.andThen {α β : Type} (x : Res α) (f : α → State → Res β) : Res β :=
  match x with
  | .ok a s => f a s
  | .raised s => .raised s
  | .abort r => .abort r
  | .stuck e => .stuck e

/-- A computation on the sampled inputs that may abort. -/
def Res.ofExcept {α : Type} (x : Except Refusal α) (s : State) : Res α :=
  match x with
  | .ok a => .ok a s
  | .error r => .abort r

/-- The end of an operation: `Ok` drives the response port; a raise has driven it already; an `Abort` is a refusal (R262). -/
def finish (x : Res Response) : Host.Outcome State Fault Refusal :=
  match x with
  | .ok r s => .next (s.respond r)
  | .raised s => .next s
  | .abort r => .refused r
  | .stuck f => .fault f

/-- Serve one request: an ill-formed one is `Abort(BadRequest)` (R111), any other runs on cleared outputs. -/
def serve (wellFormed : Bool) (s : State) (body : State → Res Response) : Host.Outcome State Fault Refusal :=
  if wellFormed then finish (body s.beginOp) else .refused .badRequest

/-! ## The memory master port -/

/-- `MemRead(addr, 8, tag, mode, origva)` (R60): the read is recorded with its arguments and the value it returned. -/
def memRead (s : State) (addr : Word) (tag : BusTag) (mode : Mode) (origva : Word) : Res Word :=
  match s.mem.readWord addr with
  | some v => .ok v (s.logBus { kind := .read, addr := addr, bytes := 8, tag := tag, mode := mode, origva := origva, value := v })
  | none => .stuck (.unpopulatedRead addr)

/-- `MemWrite(addr, 8, v, tag, mode, origva)` (R61). -/
def memWrite (s : State) (addr v : Word) (tag : BusTag) (mode : Mode) (origva : Word) : State :=
  (s.setMem (s.mem.writeWord addr v)).logBus
    { kind := .write, addr := addr, bytes := 8, tag := tag, mode := mode, origva := origva, value := v }

/-! ## The injector's cells (R25) -/

def FiCells.get (f : FiCells) : AccessClass → FiCell
  | .fetch => f.fetch
  | .load => f.load
  | .store => f.store

def FiCells.put (f : FiCells) (cls : AccessClass) (c : FiCell) : FiCells :=
  match cls with
  | .fetch => { f with fetch := c }
  | .load => { f with load := c }
  | .store => { f with store := c }

/-! ## Between operations: what the world outside does -/

/-- Change one field of an entry of an array; an index past the end changes nothing (the length is fixed, R34). -/
def modifyAt {α : Type} (l : List α) (i : Nat) (f : α → α) : List α := l.modify i f

/-- The core gives a consumed register a new value, cut to what the register holds: its width (R30 to R37), and for a table
base its alignment (R36). -/
def writeReg (c : CoreRegs) (r : CtrlReg) (v : Word) : CoreRegs :=
  match r with
  | .curMode => { c with curMode := v.setWidth 2 }
  | .satp => { c with satp := v }
  | .mprv => { c with mprv := v.getLsbD 0 }
  | .mpp => { c with mpp := v.setWidth 2 }
  | .sum => { c with sum := v.getLsbD 0 }
  | .mxr => { c with mxr := v.getLsbD 0 }
  | .pmpcfg i => { c with pmp := modifyAt c.pmp i (fun e => { e with region := { e.region with cfg := v.setWidth 8 } }) }
  | .pmpaddr i => { c with pmp := modifyAt c.pmp i (fun e => { e with region := { e.region with addr := v } }) }
  | .pmptbase i => { c with pmp := modifyAt c.pmp i (fun e => { e with tbase := tableBase v }) }
  | .spmpcfg i => { c with spmp := modifyAt c.spmp i (fun e => { e with cfg := v.setWidth 8 }) }
  | .spmpaddr i => { c with spmp := modifyAt c.spmp i (fun e => { e with addr := v }) }
  | .guideActive => { c with guide := { c.guide with active := v.getLsbD 0 } }
  | .guideForce => { c with guide := { c.guide with force := v.getLsbD 0 } }
  | .guideExcnum => { c with guide := { c.guide with excnum := v.setWidth 6 } }
  | .guideTval => { c with guide := { c.guide with tval := v } }

/-- Reset of the block: its own state takes the values of R280 and R281; everything it consumes is launch state and stays
(R282). -/
def State.applyReset (s : State) : State :=
  { s with fetchMode := .direct, dataMode := .direct,
           fi := { fetch := fiCellReset, load := fiCellReset, store := fiCellReset }, out := Outputs.none }

/-- Present a request next, ahead of whatever the core has yet to present. -/
def State.presentNext (s : State) (r : Request) : State := { s with inputs := .request r :: s.inputs }

end Sys2Proof.Machine
end

