-- ==== Sys2Proof/Machine/ModeCache.lean ====
section
/-! DEFINITION. The MMU Mode Cache (41_mmu_mode_cache.md): `QUERY_MODE` and `REFRESH_MODE`. -/

namespace Sys2Proof.Machine

/-- `QUERY_MODE.cls` (R144): the stored flag, without recomputation. -/
def execQueryMode (cls : AccessClass) (s : State) : Host.Outcome State Fault Refusal :=
  serve (Instr.wellFormed (.queryMode cls)) s fun s =>
    if flagsUsable s then .ok (okResponse ((modeFlag s cls).code.setWidth 64)) s
    else .abort .staleModeFlags

/-- The body of `REFRESH_MODE` (R141): both modes are computed before either flag is written; the answer says whether the
data flag changed. -/
def refresh (s : State) : Res Bool :=
  (Res.ofExcept (computeMode s.regs .fetch) s).andThen fun f s =>
    (Res.ofExcept (computeMode s.regs .load) s).andThen fun d s =>
      .ok (d != s.dataMode) (s.setModes f d)

/-- `REFRESH_MODE` (R141). -/
def execRefreshMode (s : State) : Host.Outcome State Fault Refusal :=
  serve (Instr.wellFormed .refreshMode) s fun s =>
    (refresh s).andThen fun changed s => .ok (okResponse (boolWord changed)) s

end Sys2Proof.Machine
end

