-- ==== Sys2Proof/Machine/Region.lean ====
section
/-! DEFINITION. The region-matching primitive both checkers share (44_pmp_region_checker.md R181 to R188). -/

namespace Sys2Proof.Machine

/-- The outcome of `REGION_MATCH` (R181): the entry that decided, with `region_base(i)` on a full match. -/
inductive MatchResult (α : Type) where
  | none
  | partialMatch (e : α)
  | full (e : α) (rbase : Word)
deriving DecidableEq, Repr

/-- Any test point lies in the entry. -/
def anyMatch (r : Region) (base : Word) (pts : List Word) : Bool := pts.any (pointMatch r base)

/-- Every test point lies in the entry. -/
def allMatch (r : Region) (base : Word) (pts : List Word) : Bool := pts.all (pointMatch r base)

/-- The walk of the array from an entry on, with the running base (R181, R184): the first entry that matches any test point
decides (R182); the base becomes the bound of EVERY entry passed, whatever its mode. -/
def regionScan {α : Type} (region : α → Region) : List α → Word → List Word → MatchResult α
  | [], _, _ => .none
  | e :: rest, base, pts =>
    if anyMatch (region e) base pts then
      if allMatch (region e) base pts then .full e (regionBase (region e) base) else .partialMatch e
    else regionScan region rest (regionBound (region e).addr) pts

/-- `REGION_MATCH(cfg[], addr[], N, pa, len)` (R181). -/
def regionMatch {α : Type} (region : α → Region) (l : List α) (pa len : Word) : MatchResult α :=
  regionScan region l 0#64 (testPoints pa len)

/-- Some entry is configured: its mode is not off (R192). -/
def anyConfigured {α : Type} (region : α → Region) (l : List α) : Bool :=
  l.any fun e => regionMode (region e).cfg != .off

end Sys2Proof.Machine
end

