-- ==== Sys2Proof/Machine/Pmp.lean ====
section
/-! DEFINITION. The PMP region checker and its lookup-table extension (44_pmp_region_checker.md): `PMP_CHECK`. -/

namespace Sys2Proof.Machine

/-- A lookup-table read: tag `PMPT_READ`, mode machine, no originating address (R196, R62). -/
def readPmpt (addr : Word) (s : State) : Res Word := memRead s addr .pmptRead .machine 0#64

/-- `pmpt_nibble(root, o)` (R196): the root entry, and the leaf entry unless the root entry is single-level. -/
def pmptNibble (root o : Word) (s : State) : Res (BitVec 4) :=
  let l := s.cfg.pmpt
  (readPmpt (root + pmptOff1 l o * 8#64) s).andThen fun re s =>
    if pmptSingle l re then .ok (pmptRootNibble l re) s
    else
      (readPmpt (pmptLeafBase l re + pmptOff0 l o * 8#64) s).andThen fun le s =>
        .ok (pmptLeafNibble le (pmptPage l o)) s

/-- The table's answer for one test point (R194, R198, R199). -/
def pmptPoint (root rbase cur : Word) (cls : AccessClass) (s : State) : Res Bool :=
  (pmptNibble root (cur - rbase) s).andThen fun n s =>
    .ok (pmptBit s.cfg.pmpt (pmptNormalise s.cfg.pmpt n) cls) s

/-- `pmpt_perm` (R194): every test point must be permitted; the first that is not ends the lookup. -/
def pmptPerm (root rbase : Word) (cls : AccessClass) : List Word → State → Res Bool
  | [], s => .ok true s
  | cur :: rest, s =>
    (pmptPoint root rbase cur cls s).andThen fun allowed s =>
      if allowed then pmptPerm root rbase cls rest s else .ok false s

/-- The configuration byte's own permission bit (R190). -/
def cfgAllows (c : BitVec 8) : AccessClass → Bool
  | .load => cfgR c
  | .store => cfgW c
  | .fetch => cfgX c

/-- `pmp_perm` (R190): machine mode bypasses an unlocked entry, then the table if the entry has one, then the bit of
the class. -/
def pmpPerm (e : PmpEntry) (rbase pa len : Word) (cls : AccessClass) (mode : Mode) (s : State) : Res Bool :=
  if mode = .machine ∧ cfgL e.region.cfg = false then .ok true s
  else if s.cfg.pmptableExt ∧ cfgT e.region.cfg then pmptPerm e.tbase rbase cls (testPoints pa len) s
  else .ok (cfgAllows e.region.cfg cls) s

/-- The body of `PMP_CHECK` (R180, R187, R190, R192). -/
def pmpCheck (cls : AccessClass) (mode : Mode) (pa len : Word) (s : State) : Res Bool :=
  match regionMatch PmpEntry.region s.regs.pmp pa len with
  | .partialMatch _ => .ok false s
  | .full e rbase => pmpPerm e rbase pa len cls mode s
  | .none => .ok (mode == .machine || !anyConfigured PmpEntry.region s.regs.pmp) s

/-- `PMP_CHECK.cls.mode pa, len` (R180). -/
def execPmpCheck (cls : AccessClass) (mode : Mode) (pa len : Word) (s : State) : Host.Outcome State Fault Refusal :=
  serve (Instr.wellFormed (.pmpCheck cls mode pa len)) s fun s =>
    (pmpCheck cls mode pa len s).andThen fun allowed s => .ok (okResponse (boolWord allowed)) s

end Sys2Proof.Machine
end

