-- ==== Sys2Proof/Machine/Spmp.lean ====
section
/-! DEFINITION. The SPMP region checker (45_spmp_region_checker.md): `SPMP_CHECK`. -/

namespace Sys2Proof.Machine

/-- The permission set of a key in the table the mode and `sum` select (R213, R214). -/
def spmpSet (t : SpmpTables) (sum : Bool) (mode : Mode) (key : BitVec 4) : PermSet :=
  match mode with
  | .user => t.user.get key.toFin
  | .supervisor => if sum then t.sup1.get key.toFin else t.sup0.get key.toFin
  | .machine => ⟨true, true, true⟩

/-- `spmp_perm(c, cls, mode)` (R213): a full match never restricts machine mode (R216). -/
def spmpPerm (c : Config) (r : CoreRegs) (cfg : BitVec 8) (cls : AccessClass) (mode : Mode) : Bool :=
  mode == .machine || permAllows (spmpSet c.spmpPerm r.sum mode (spmpKey cfg)) cls

/-- The answer of `SPMP_CHECK` (R210): no match allows (R211), a partial match denies (R212). -/
def spmpCheck (c : Config) (r : CoreRegs) (cls : AccessClass) (mode : Mode) (pa len : Word) : Bool :=
  match regionMatch id r.spmp pa len with
  | .partialMatch _ => false
  | .full e _ => spmpPerm c r e.cfg cls mode
  | .none => true

/-- `SPMP_CHECK.cls.mode pa, len` (R210). -/
def execSpmpCheck (cls : AccessClass) (mode : Mode) (pa len : Word) (s : State) : Host.Outcome State Fault Refusal :=
  serve (Instr.wellFormed (.spmpCheck cls mode pa len)) s fun s =>
    .ok (okResponse (boolWord (spmpCheck s.cfg s.regs cls mode pa len))) s

end Sys2Proof.Machine
end

