-- ==== Sys2Proof/Machine/Validator.lean ====
section
/-! DEFINITION. The Address Range Validator (40_address_range_validator.md): `VALIDATE`. -/

namespace Sys2Proof.Machine

/-- A non-canonical address of a class whose stored flag says Translate (R130, R131, R132). -/
def rangeFault (s : State) (cls : AccessClass) (va : Word) : Bool :=
  modeFlag s cls == .translate && !canonical va

/-- A misaligned data address where the instance enforces alignment (R133). -/
def alignFault (c : Config) (cls : AccessClass) (va len : Word) : Bool :=
  c.alignSoft && cls != .fetch && misaligned va len

/-- The body of `VALIDATE` (R130): the canonical test first, the alignment test second (R135). -/
def validate (cls : AccessClass) (amo : Bool) (va len : Word) (s : State) : Res Unit :=
  if rangeFault s cls va then .raised (s.raise (pfKind cls amo) va)
  else if alignFault s.cfg cls va len then .raised (s.raise (misalignedKind cls amo) va)
  else .ok () s

/-- `VALIDATE.cls[.amo] va, len` (R130). -/
def execValidate (cls : AccessClass) (amo : Bool) (va len : Word) (s : State) : Host.Outcome State Fault Refusal :=
  serve (Instr.wellFormed (.validate cls amo va len)) s fun s =>
    if flagsUsable s then
      (validate cls amo va len s).andThen fun _ s => .ok (okResponse 0#64) s
    else .abort .staleModeFlags

end Sys2Proof.Machine
end

