-- ==== Sys2Proof/Machine/Evaluator.lean ====
section
/-! DEFINITION. The Permission Evaluator (43_permission_evaluator.md): `CHECK_PERM`, and the check the walker runs. -/

namespace Sys2Proof.Machine

/-- Tests (2) and (3) of R170: a user needs a user page; the supervisor enters a user page for data only, and only
with `sum`. -/
def pageOwnerOk (r : CoreRegs) (mode : Mode) (cls : AccessClass) (pte : Word) : Bool :=
  !(mode == .user && !pteU pte) && !(pteU pte && mode == .supervisor && (!r.sum || cls == .fetch))

/-- Tests (4) to (6) of R170: the class's permission bit, with `mxr` for loads. -/
def classBitOk (r : CoreRegs) (cls : AccessClass) (pte : Word) : Bool :=
  match cls with
  | .fetch => pteX pte
  | .load => pteR pte || (r.mxr && pteX pte)
  | .store => pteW pte

/-- Test (7) of R170: the accessed bit, and the dirty bit on a store, under `EXC_UPDATE` only (R174). -/
def markOk (c : Config) (cls : AccessClass) (pte : Word) : Bool :=
  match c.adPolicy with
  | .hwUpdate => true
  | .excUpdate => pteA pte && (cls != .store || pteD pte)

/-- The conjunction of R170 for an effective mode below machine. -/
def permOk (c : Config) (r : CoreRegs) (mode : Mode) (sok : Bool) (cls : AccessClass) (pte : Word) : Bool :=
  sok && pteV pte && pageOwnerOk r mode cls pte && classBitOk r cls pte && markOk c cls pte

/-- `CHECK(pte, sok, va, cls, amo)` (R170): true, the class's page fault, or an abort; never false (R171). -/
def checkPerm (cls : AccessClass) (amo sok : Bool) (va pte : Word) (s : State) : Res Unit :=
  (Res.ofExcept (effMode s.regs cls) s).andThen fun mode s =>
    if mode = .machine then .abort .evaluatorInMachineMode
    else if permOk s.cfg s.regs mode sok cls pte then .ok () s
    else .raised (s.raise (pfKind cls amo) va)

/-- `CHECK_PERM.cls[.amo] ok=sok, va, pte` (R170). -/
def execCheckPerm (cls : AccessClass) (amo sok : Bool) (va pte : Word) (s : State) : Host.Outcome State Fault Refusal :=
  serve (Instr.wellFormed (.checkPerm cls amo sok va pte)) s fun s =>
    (checkPerm cls amo sok va pte s).andThen fun _ s => .ok (okResponse 1#64) s

end Sys2Proof.Machine
end

