-- ==== Sys2Proof/Machine/Injector.lean ====
section
/-! DEFINITION. The Fault Injector (46_fault_injector_mux.md): `FI_CONSULT`, a step of `TRANSLATE` with no request of its
own (R225). -/

namespace Sys2Proof.Machine

/-- `FI_LIMIT` (R8). -/
def fiLimit : BitVec 3 := 5#3

/-- The reference recorded this class's page fault in a guided instruction (R226, R228). -/
def guideNames (c : Config) (g : Guide) (cls : AccessClass) : Bool :=
  c.guided && g.active && g.force && g.excnum == (pfCode cls).code

/-- A class's cell after one more considered request: a new address restarts the count; the count saturates at 6 (R226,
R227). -/
def FiCell.considered (c : FiCell) (va : Word) : FiCell :=
  let count := if va = c.last then c.count.toNat else 0
  { last := va, count := BitVec.ofNat 3 (min (count + 1) 6) }

/-- `cross_page_exempt` (R230; log entry 13). -/
def crossPageExempt (va t : Word) (cls : AccessClass) : Bool :=
  cls == .fetch && va.extractLsb' 0 12 == 0xffe#12 && t.extractLsb' 0 12 == 0x000#12

/-- The mismatch warning's condition (R226, R230). -/
def mismatchWarned (va t : Word) (cls : AccessClass) : Bool :=
  va != t && !crossPageExempt va t cls

/-- `FI_CONSULT(va, cls)` (R226): the request that makes the count exactly 5 passes, every other named one raises the class's
page fault with the reference's trap value (R229). -/
def fiConsult (cls : AccessClass) (va : Word) (s : State) : Res Unit :=
  if guideNames s.cfg s.regs.guide cls then
    let cell := (s.fi.get cls).considered va
    let s := s.setFi (s.fi.put cls cell)
    if cell.count = fiLimit then .ok () s
    else .raised ((s.setWarn (mismatchWarned va s.regs.guide.tval cls)).raise (pfCode cls) s.regs.guide.tval)
  else .ok () s

end Sys2Proof.Machine
end

