-- ==== Sys2Proof/Machine/Walker.lean ====
section
/-! DEFINITION. The Page-Table Walker (42_page_table_walker.md): `TRANSLATE`. -/

namespace Sys2Proof.Machine

/-- How the descent ends: at a leaf, with the level and the address it was read from; or at the last entry read of a
walk that failed (R150). -/
inductive WalkEnd where
  | leaf (level : Nat) (addr pte : Word)
  | bad (pte : Word)
deriving DecidableEq, Repr

/-- The entry of one level is read with the class's tag, supervisor mode and the request's address (R152, R153, R63). -/
def readPte (cls : AccessClass) (va base : Word) (level : Nat) (s : State) : Res Word :=
  memRead s (pteAddr base va level) (ptwTag cls) .supervisor va

/-- One level of the descent (R154): read, classify, and go on to `next` at a pointer. -/
def walkLevel (cls : AccessClass) (va base : Word) (level : Nat) (next : Word → State → Res WalkEnd) (s : State) :
    Res WalkEnd :=
  (readPte cls va base level s).andThen fun pte s =>
    match pteKind pte with
    | .absent => .ok (.bad pte) s
    | .malformed => .ok (.bad pte) s
    | .leaf => .ok (.leaf level (pteAddr base va level) pte) s
    | .pointer => next pte s

/-- The descent from a level down; a pointer at level 0 runs out of levels (R155). -/
def walk (cls : AccessClass) (va : Word) : Nat → Word → State → Res WalkEnd
  | 0, base, s => walkLevel cls va base 0 (fun pte s => .ok (.bad pte) s) s
  | level + 1, base, s =>
    walkLevel cls va base (level + 1) (fun pte s => walk cls va level (pageBase (ptePpn pte)) s) s

/-- The root table's base (R151). -/
def rootBase (r : CoreRegs) : Word := pageBase (satpPpn r.satp)

/-- The fault path (R160): the evaluator is asked with `structurallyOk` = 0 and always raises. -/
def walkFault {α : Type} (cls : AccessClass) (amo : Bool) (va pte : Word) (s : State) : Res α :=
  (checkPerm cls amo false va pte s).andThen fun _ _ => .abort .evaluatorInMachineMode

/-- Accessed/dirty maintenance (R158): under `HW_UPDATE`, one write-back to the address the leaf was read from, when a bit must
be set. -/
def markLeaf (cls : AccessClass) (va addr pte : Word) (s : State) : State :=
  if s.cfg.adPolicy = .hwUpdate ∧ pteNeedsMark pte cls then
    memWrite s addr (pteMarked pte cls) .ptwWriteback .supervisor va
  else s

/-- From the leaf to the result (R156 to R158, R161, R163): permission, superpage alignment, write-back, injector. -/
def leafResult (cls : AccessClass) (amo : Bool) (va : Word) (level : Nat) (addr pte : Word) (s : State) : Res Word :=
  (checkPerm cls amo true va pte s).andThen fun _ s =>
    if level ≠ 0 ∧ superMisaligned (pageBase (ptePpn pte)) level then walkFault cls amo va pte s
    else
      (fiConsult cls va (markLeaf cls va addr pte s)).andThen fun _ s =>
        .ok (leafBase (pageBase (ptePpn pte)) va level ||| markerOk) s

/-- The body of `TRANSLATE` (R150), giving the result word of R109. -/
def translate (cls : AccessClass) (amo : Bool) (va : Word) (s : State) : Res Word :=
  (Res.ofExcept (effMode s.regs cls) s).andThen fun mode s =>
    if mode = .machine then .abort .translateInMachineMode
    else if canonical va then
      (walk cls va 2 (rootBase s.regs) s).andThen fun e s =>
        match e with
        | .bad pte => walkFault cls amo va pte s
        | .leaf level addr pte => leafResult cls amo va level addr pte s
    else .raised (s.raise (pfKind cls amo) va)

/-- `TRANSLATE.cls[.amo] va` (R150). -/
def execTranslate (cls : AccessClass) (amo : Bool) (va : Word) (s : State) : Host.Outcome State Fault Refusal :=
  serve (Instr.wellFormed (.translate cls amo va)) s fun s =>
    (translate cls amo va s).andThen fun w s => .ok (okResponse w) s

end Sys2Proof.Machine
end

