-- ==== Sys2Proof/Machine/Pipeline.lean ====
section
/-! DEFINITION. The access pipeline (47_access_pipeline.md): `ACCESS`, the composite, which adds no semantics of its own. -/

namespace Sys2Proof.Machine

/-- The physical address of an access that passed the validator: the walker's page base with the request's offset under
Translate, the address itself under Direct (R240, R242). -/
def accessAddr (cls : AccessClass) (amo : Bool) (va : Word) (s : State) : Res Word :=
  match modeFlag s cls with
  | .translate => (translate cls amo va s).andThen fun w s => .ok (physAddr w va) s
  | .direct => .ok va s

/-- `spmp_ok` (R240): 1 when the SPMP checker takes no part. -/
def spmpAllows (c : Config) (r : CoreRegs) (cls : AccessClass) (mode : Mode) (pa len : Word) : Bool :=
  !c.spmpEn || spmpCheck c r cls mode pa len

/-- The response of `ACCESS`: the physical address and the two bits (R94, R240). -/
def accessResponse (pa : Word) (pmpOk spmpOk : Bool) : Response :=
  { status := .ok, value := pa, checks := some { pmpOk := pmpOk, spmpOk := spmpOk } }

/-- The region checks of an access whose physical address is known, with its effective mode (R240, R243, R244). -/
def accessChecks (cls : AccessClass) (pa len : Word) (s : State) : Res Response :=
  (Res.ofExcept (effMode s.regs cls) s).andThen fun mode s =>
    (pmpCheck cls mode pa len s).andThen fun pmpOk s =>
      .ok (accessResponse pa pmpOk (spmpAllows s.cfg s.regs cls mode pa len)) s

/-- The body of `ACCESS` (R240, R241). -/
def access (cls : AccessClass) (amo : Bool) (va len : Word) (s : State) : Res Response :=
  (validate cls amo va len s).andThen fun _ s =>
    (accessAddr cls amo va s).andThen fun pa s => accessChecks cls pa len s

/-- `ACCESS.cls[.amo] va, len` (R240). -/
def execAccess (cls : AccessClass) (amo : Bool) (va len : Word) (s : State) : Host.Outcome State Fault Refusal :=
  serve (Instr.wellFormed (.access cls amo va len)) s fun s =>
    if !flagsUsable s then .abort .staleModeFlags
    else if !pageUsable s va len then .abort .pageCrossing
    else access cls amo va len s

end Sys2Proof.Machine
end

