-- ==== Sys2Proof/Machine/Dispatch.lean ====
section
/-! DEFINITION. One arm per operation, each a direct call of its meaning. -/

namespace Sys2Proof.Machine

def exec (i : Instr) (s : State) : Host.Outcome State Fault Refusal :=
  match i with
  | .validate cls amo va len => Sys2Proof.Machine.execValidate cls amo va len s
  | .queryMode cls => Sys2Proof.Machine.execQueryMode cls s
  | .refreshMode => Sys2Proof.Machine.execRefreshMode s
  | .translate cls amo va => Sys2Proof.Machine.execTranslate cls amo va s
  | .checkPerm cls amo sok va pte => Sys2Proof.Machine.execCheckPerm cls amo sok va pte s
  | .pmpCheck cls mode pa len => Sys2Proof.Machine.execPmpCheck cls mode pa len s
  | .spmpCheck cls mode pa len => Sys2Proof.Machine.execSpmpCheck cls mode pa len s
  | .access cls amo va len => Sys2Proof.Machine.execAccess cls amo va len s

end Sys2Proof.Machine
end

