-- ==== Sys2Proof/Machine/Step.lean ====
section
/-! DEFINITION. One step: the oldest thing the core has to present is taken. A request is decoded and served (R21: "one at
a time in the order the core issues them"); a register change, a store or a reset lands between operations (R38); with
nothing presented the block idles. -/

namespace Sys2Proof.Machine

/-- What a step does with the event it has taken from the input. -/
def takeEvent (e : CoreEvent) (s : State) : Host.Outcome State Fault Refusal :=
  match e with
  | .request r =>
    match decode r with
    | .ok i => exec i s
    | .error _ => .refused .badRequest
  | .setReg r v => .next (s.beginOp.setRegs (writeReg s.regs r v))
  | .store addr bytes => .next (s.beginOp.setMem (s.mem.storeBytes addr bytes))
  | .reset => .next s.applyReset

/-- One step of the machine. -/
def step (s : State) : Host.Outcome State Fault Refusal :=
  match s.inputs with
  | [] => .next s.beginOp
  | e :: _ => takeEvent e s.dropInput

/-- The table word presented as the very next request (log entry 4). -/
def State.withFetchWord (s : State) (nbits w : Nat) : State := s.presentNext (requestOfBits nbits w)

end Sys2Proof.Machine
end

