-- ==== Sys2Proof/Safety.lean ====
section
/-! DEFINITION. What a safe state, a safe step and a permitted access are, in the terms the claims use. -/

namespace Sys2Proof

open Sys2Proof.Machine

/-- An injector count stays in 0 to 6 (R25: "saturates at 6"). -/
abbrev fiBounded (f : FiCells) : Prop := f.fetch.count ≤ 6#3 ∧ f.load.count ≤ 6#3 ∧ f.store.count ≤ 6#3

/-- The outputs of a step belong together: the exception output is valid exactly when the response says `Fault` (R256), carries
the value just written to the trap-value register, and no response says `Abort` (R262). -/
abbrev outputsAgree (s : State) : Prop :=
  (∀ e, s.out.exc = some e → s.out.resp = some faultResponse ∧ e.tval = s.tval) ∧
  (∀ r, s.out.resp = some r → r.status ≠ .abort ∧ (r.status = .fault ↔ s.out.exc.isSome = true))

/-- Every lookup table lies where its entries' addresses are multiples of 8 (R66): each root table is 4096-byte aligned (R36), and
the layout's leaf-table addresses are multiples of 8, as the default's, multiples of 4096, are (R195). -/
abbrev tablesAligned (s : State) : Prop :=
  (∀ e ∈ s.regs.pmp, e.tbase.toNat % 4096 = 0) ∧ 3 ≤ s.cfg.pmpt.leafShiftLeft

/-- The invariant every step keeps: memory in canonical form, both region arrays at their fixed lengths (R34, R35), the lookup
tables aligned (R66), the injector's counts bounded (R25), the outputs consistent. -/
structure Inv (s : State) : Prop where
  mem : s.mem.wf
  pmpLength : s.regs.pmp.length = s.cfg.npmp
  spmpLength : s.regs.spmp.length = s.cfg.nspmp
  tables : tablesAligned s
  counts : fiBounded s.fi
  outputs : outputsAgree s

/-- The access may reach the backing store: the translation succeeded and every checker that runs allows it (R243, R244). -/
def mayProceed (r : Response) : Bool :=
  match r.status, r.checks with
  | .ok, some c => c.pmpOk && c.spmpOk
  | .ok, none => false
  | .fault, _ => false
  | .abort, _ => false

/-- The `status` the response port shows for the outcome of serving a request (R94): a refusal is `Abort`. A machine that
is stuck at a table read shows nothing (R64). -/
def wireStatus (o : Host.Outcome State Fault Refusal) : Option (BitVec 2) :=
  match o with
  | .next s => s.out.resp.map fun r => r.status.code
  | .refused _ => some Status.abort.code
  | .fault _ => none

end Sys2Proof
end

