-- ==== Sys2Proof/Certificates/Slice0/Obligations.lean ====
section
/-! DEFINITION. The statements for the provers, each from the spec's numbered rules, and the few words they are written in:
the chain of entries a walk visits, the permission table of R177, the ill-formed requests of R111, the entries a region
array consults. Where a statement holds under the instance's premise policy (log entry 2) it says so. -/

namespace Sys2Proof.Claims

open Sys2Proof.Machine

/-- `path` is the chain of (address, entry) pairs of a walk that starts at `base` on `level` (R151 to R154): each entry but
the last is a pointer, and the next table is where it points. -/
def walkPath (m : Memory) (va : Word) : Word → Nat → List (Word × Word) → Bool
  | base, level, [(a, p)] => a == pteAddr base va level && m.readWord a == some p
  | base, level + 1, (a, p) :: q :: rest =>
    a == pteAddr base va (level + 1) && m.readWord a == some p && pteKind p == .pointer &&
      walkPath m va (pageBase (ptePpn p)) level (q :: rest)
  | _, _, _ => false

/-- The chain a `TRANSLATE` of `va` visits, from the root table at level 2. -/
def rootPath (s : State) (va : Word) (path : List (Word × Word)) : Bool :=
  walkPath s.mem va (pageBase (satpPpn s.regs.satp)) 2 path

/-- One page-table read on the memory port: the class's tag (R62), supervisor mode and the request's address (R63). -/
def readRecord (cls : AccessClass) (va a p : Word) : BusAccess :=
  { kind := .read, addr := a, bytes := 8, mode := .supervisor, origva := va, value := p,
    tag := match cls with
      | .fetch => .ptwFetchRead
      | .load => .ptwLoadRead
      | .store => .ptwStoreRead }

/-- The write-back of a leaf on the memory port (R61, R62, R63). -/
def writeRecord (va a p : Word) : BusAccess :=
  { kind := .write, addr := a, bytes := 8, tag := .ptwWriteback, mode := .supervisor, origva := va, value := p }

/-- The calls a walk makes on the memory port (R62, R63). -/
def pathReads (cls : AccessClass) (va : Word) (path : List (Word × Word)) : List BusAccess :=
  path.map fun e => readRecord cls va e.1 e.2

/-- The state once the walk has made these reads and nothing else. -/
def afterReads (s : State) (cls : AccessClass) (va : Word) (path : List (Word × Word)) : State :=
  { s with out := { Outputs.none with bus := pathReads cls va path } }

/-- Bits 63:39 each equal bit 38 (R131). -/
def signExtended (va : Word) : Prop := ∀ i, 39 ≤ i → i < 64 → va.getLsbD i = va.getLsbD 38

/-- The instance serves operations that read the mode flags in this state (R285, log entry 2). -/
def flagsPremise (s : State) : Prop := s.cfg.premises = .mirror ∨ fresh s = true

/-- The instance serves this access as far as page crossing goes (R291, log entry 2). -/
def pagePremise (s : State) (va len : Word) : Prop :=
  s.cfg.premises = .mirror ∨ (va.extractLsb' 0 12).toNat + len.toNat ≤ 4096

/-- The cell of the R177 table, with the access class's own bit. -/
def classCell (mxr r w x : Bool) : AccessClass → Bool
  | .fetch => x
  | .load => r || (mxr && x)
  | .store => w

/-- The R177 table. -/
def tableAllows (mode : Mode) (sum mxr u r w x : Bool) (cls : AccessClass) : Bool :=
  match mode, u with
  | .user, false => false
  | .user, true => classCell mxr r w x cls
  | .supervisor, false => classCell mxr r w x cls
  | .supervisor, true => sum && cls != .fetch && classCell mxr r w x cls
  | .machine, _ => false

/-- What R174 asks of the accessed and dirty bits. -/
def adAllows (p : AdPolicy) (a d : Bool) (cls : AccessClass) : Bool :=
  match p with
  | .hwUpdate => true
  | .excUpdate => a && (d || cls != .store)

/-- A leaf entry grants the access (R177, R174), with the entry's bits read by number (R95). -/
def entryGrants (s : State) (mode : Mode) (cls : AccessClass) (pte : Word) : Bool :=
  pte.getLsbD 0 &&
    tableAllows mode s.regs.sum s.regs.mxr (pte.getLsbD 4) (pte.getLsbD 1) (pte.getLsbD 2) (pte.getLsbD 3) cls &&
    adAllows s.cfg.adPolicy (pte.getLsbD 6) (pte.getLsbD 7) cls

/-- A superpage leaf whose page number has one of its low `9L` bits set (R157). -/
def misalignedSuper (level : Nat) (pte : Word) : Bool :=
  (List.range (9 * level)).any fun k => pte.getLsbD (10 + k)

/-- The ill-formed requests of R111, from the bit positions of R90 and the table of R91. -/
def illFormed (r : Request) : Bool :=
  let op := r.cmd.toNat % 16
  let cls := r.cmd.toNat / 16 % 4
  let amo := r.cmd.toNat / 64 % 2
  let mode := r.cmd.toNat / 128 % 4
  let sok := r.cmd.toNat / 512 % 2
  decide (8 ≤ op) || decide (r.cmd.toNat / 1024 ≠ 0) ||
    decide (op = 2 ∧ cls ≠ 0) || decide (op ∈ [1, 2, 5, 6] ∧ amo ≠ 0) || decide (op ∉ [5, 6] ∧ mode ≠ 0) ||
    decide (op ≠ 4 ∧ sok ≠ 0) || decide (op ∈ [1, 2] ∧ r.arg0 ≠ 0#64) || decide (op ∈ [1, 2, 3] ∧ r.arg1 ≠ 0#64) ||
    decide (op ≠ 2 ∧ cls = 3) || decide (op ∈ [5, 6] ∧ mode = 2) || decide (amo = 1 ∧ cls = 0) ||
    decide (op ∈ [0, 7] ∧ r.arg1.toNat ∉ [1, 2, 4, 8]) || decide (op ∈ [5, 6] ∧ r.arg1.toNat = 0)

/-- The running base of entry `i`: the bound of the entry before it, whatever its mode, or 0 (R184). -/
def baseOf {α : Type} (region : α → Region) (l : List α) : Nat → Word
  | 0 => 0#64
  | i + 1 => match l[i]? with
    | some e => (region e).addr <<< 2
    | none => 0#64

/-- Entry `e` at index `i` covers a test point (R185, R186). -/
def covers {α : Type} (region : α → Region) (l : List α) (i : Nat) (e : α) (cur : Word) : Bool :=
  pointMatch (region e) (baseOf region l i) cur

/-- The nibble of the lookup table for an offset, from memory as it stands (R196); none where a table read has no memory
behind it. -/
def tableNibble (s : State) (root o : Word) : Option (BitVec 4) :=
  match s.mem.readWord (root + pmptOff1 s.cfg.pmpt o * 8#64) with
  | none => none
  | some re =>
    if pmptSingle s.cfg.pmpt re then some (pmptRootNibble s.cfg.pmpt re)
    else (s.mem.readWord (pmptLeafBase s.cfg.pmpt re + pmptOff0 s.cfg.pmpt o * 8#64)).map fun le =>
      pmptLeafNibble le (pmptPage s.cfg.pmpt o)

/-- The table is consulted for a fully matching entry (R190). -/
def tableConsulted (s : State) (e : PmpEntry) (mode : Mode) : Bool :=
  !(mode == .machine && !e.region.cfg.getLsbD 7) && s.cfg.pmptableExt && e.region.cfg.getLsbD 5

/-- The class's bit of a PMP configuration byte (R34, R190). -/
def cfgBit (c : BitVec 8) : AccessClass → Bool
  | .load => c.getLsbD 0
  | .store => c.getLsbD 1
  | .fetch => c.getLsbD 2

/-- The nibble of the lookup table permits the class at a test point (R194, R198, R199); none where a table read has no memory
behind it. -/
def pointAllowed (s : State) (e : PmpEntry) (rbase : Word) (cls : AccessClass) (p : Word) : Option Bool :=
  (tableNibble s e.tbase (p - rbase)).map fun n => pmptBit s.cfg.pmpt (pmptNormalise s.cfg.pmpt n) cls

/-- The lookup of a test point needs the table entry at `a`, root or leaf, and there is no memory behind it (R196). -/
def pointStuckAt (s : State) (e : PmpEntry) (rbase p a : Word) : Prop :=
  let o := p - rbase
  let root := e.tbase + pmptOff1 s.cfg.pmpt o * 8#64
  s.mem.readWord a = none ∧
    (a = root ∨ ∃ re, s.mem.readWord root = some re ∧ pmptSingle s.cfg.pmpt re = false ∧
      a = pmptLeafBase s.cfg.pmpt re + pmptOff0 s.cfg.pmpt o * 8#64)

/-- A fully matching entry consults the lookup table, and the table permits every test point, or permits those before one that it
denies (R190, R194). -/
def tableAnswers (s : State) (cls : AccessClass) (mode : Mode) (pa len : Word) (b : Bool) : Prop :=
  ∃ e rbase, regionMatch PmpEntry.region s.regs.pmp pa len = .full e rbase ∧ tableConsulted s e mode = true ∧
    (b = true → ∀ p ∈ testPoints pa len, pointAllowed s e rbase cls p = some true) ∧
    (b = false → ∃ before p after, testPoints pa len = before ++ p :: after ∧
      (∀ q ∈ before, pointAllowed s e rbase cls q = some true) ∧ pointAllowed s e rbase cls p = some false)

/-- A fully matching entry consults the lookup table, which permits some first test points and then has no memory behind the
entry at `a` (R64, U23). -/
def tableStuckAt (s : State) (cls : AccessClass) (mode : Mode) (pa len a : Word) : Prop :=
  ∃ e rbase before p after, regionMatch PmpEntry.region s.regs.pmp pa len = .full e rbase ∧ tableConsulted s e mode = true ∧
    testPoints pa len = before ++ p :: after ∧ (∀ q ∈ before, pointAllowed s e rbase cls q = some true) ∧
    pointStuckAt s e rbase p a

/-- A lookup-table read on the memory port (R62, R196). -/
def isTableRead (b : BusAccess) : Prop :=
  b.kind = .read ∧ b.bytes = 8 ∧ b.tag = .pmptRead ∧ b.mode = .machine ∧ b.origva = 0#64

/-- The state once these further reads stand on the memory port. -/
def withReads (s : State) (reads : List BusAccess) : State := { s with out := { s.out with bus := s.out.bus ++ reads } }

/-- `l'` is `l` with entry `i` changed by `f`; past the end of the array nothing changes (R34, R35). -/
def entryChanged {α : Type} (l l' : List α) (i : Nat) (f : α → α) : Prop :=
  ∀ j : Nat, l'[j]? = if j = i then (l[j]?).map f else l[j]?

/-- `c'` is `c` with the named register given the value, cut to what the register holds (R30 to R37), and every other register
as it was. -/
def registerChanged (c c' : CoreRegs) (r : CtrlReg) (v : Word) : Prop :=
  match r with
  | .curMode => c' = { c with curMode := v.extractLsb' 0 2 }
  | .satp => c' = { c with satp := v }
  | .mprv => c' = { c with mprv := v.getLsbD 0 }
  | .mpp => c' = { c with mpp := v.extractLsb' 0 2 }
  | .sum => c' = { c with sum := v.getLsbD 0 }
  | .mxr => c' = { c with mxr := v.getLsbD 0 }
  | .pmpcfg i => c' = { c with pmp := c'.pmp } ∧
      entryChanged c.pmp c'.pmp i fun e => { e with region := { e.region with cfg := v.extractLsb' 0 8 } }
  | .pmpaddr i => c' = { c with pmp := c'.pmp } ∧
      entryChanged c.pmp c'.pmp i fun e => { e with region := { e.region with addr := v } }
  | .pmptbase i => c' = { c with pmp := c'.pmp } ∧
      entryChanged c.pmp c'.pmp i fun e => { e with tbase := v.extractLsb' 12 52 ++ 0#12 }
  | .spmpcfg i => c' = { c with spmp := c'.spmp } ∧ entryChanged c.spmp c'.spmp i fun e => { e with cfg := v.extractLsb' 0 8 }
  | .spmpaddr i => c' = { c with spmp := c'.spmp } ∧ entryChanged c.spmp c'.spmp i fun e => { e with addr := v }
  | .guideActive => c' = { c with guide := { c.guide with active := v.getLsbD 0 } }
  | .guideForce => c' = { c with guide := { c.guide with force := v.getLsbD 0 } }
  | .guideExcnum => c' = { c with guide := { c.guide with excnum := v.extractLsb' 0 6 } }
  | .guideTval => c' = { c with guide := { c.guide with tval := v } }

/-- `PMP_CHECK` answers `b` without consulting a lookup table (R180, R187, R190, R192). -/
def pmpAnswers (s : State) (cls : AccessClass) (mode : Mode) (pa len : Word) (b : Bool) : Prop :=
  match regionMatch PmpEntry.region s.regs.pmp pa len with
  | .partialMatch _ => b = false
  | .none => b = (mode == .machine || s.regs.pmp.all fun e => e.region.cfg.extractLsb' 3 2 == 0#2)
  | .full e _ =>
    tableConsulted s e mode = false ∧ b = ((mode == .machine && !e.region.cfg.getLsbD 7) || cfgBit e.region.cfg cls)

/-- The answer of `SPMP_CHECK` (R210 to R213, R216). -/
def spmpAnswer (s : State) (cls : AccessClass) (mode : Mode) (pa len : Word) : Bool :=
  match regionMatch id s.regs.spmp pa len with
  | .partialMatch _ => false
  | .none => true
  | .full e _ =>
    match mode with
    | .machine => true
    | .user => permAllows (s.cfg.spmpPerm.user.get (spmpKey e.cfg).toFin) cls
    | .supervisor =>
      permAllows ((if s.regs.sum then s.cfg.spmpPerm.sup1 else s.cfg.spmpPerm.sup0).get (spmpKey e.cfg).toFin) cls

/-- The bytes of a word, lowest first (R65). -/
def leBytes (v : Word) : List Byte := (List.range 8).map fun k => v.extractLsb' (8 * k) 8

/-- The class and the address an instruction's page fault would name, where it has them (R254). -/
def faultOperands : Instr → Option (AccessClass × Bool × Word)
  | .validate cls amo va _ => some (cls, amo, va)
  | .translate cls amo va => some (cls, amo, va)
  | .checkPerm cls amo _ va _ => some (cls, amo, va)
  | .access cls amo va _ => some (cls, amo, va)
  | .queryMode _ | .refreshMode | .pmpCheck _ _ _ _ | .spmpCheck _ _ _ _ => none

/-- The operations that walk page tables (R68). -/
def walks : Instr → Bool
  | .translate _ _ _ | .access _ _ _ _ => true
  | .validate _ _ _ _ | .queryMode _ | .refreshMode | .checkPerm _ _ _ _ _ | .pmpCheck _ _ _ _ | .spmpCheck _ _ _ _ => false

/-- The length operand of an `ACCESS`. -/
def accessLen : Instr → Word
  | .access _ _ _ len => len
  | .validate _ _ _ _ | .queryMode _ | .refreshMode | .translate _ _ _ | .checkPerm _ _ _ _ _ | .pmpCheck _ _ _ _
  | .spmpCheck _ _ _ _ => 0#64

/-- The value on the response port. -/
def answered (s : State) : Option Word := s.out.resp.map fun r => r.value

end Sys2Proof.Claims

open Sys2Proof Sys2Proof.Machine Sys2Proof.Claims

/-! ## Encoding -/

/-- Decoding what the encoder writes gives the instruction back, for every well-formed instruction and every operand (R90,
R91, R110). -/
def Obligations.DecodeOfEncode : Prop :=
  ∀ i : Instr, i.wellFormed = true → decode (encode i) = .ok i

/-- A request decodes to one instruction and is the encoding of it: no two requests share a meaning and no bit of a request
is dropped (R90, R111: every field an operation does not use is 0). -/
def Obligations.EncodeOfDecode : Prop :=
  ∀ (r : Request) (i : Instr), decode r = .ok i → encode i = r

/-- The command words that the spec's test vectors write out (95_test_vectors.md 2.1, 2.2, 2.3, 2.4, 1.2, 1.3, P1). -/
def Obligations.DecodesSpecWords : Prop :=
  decode ⟨0x0050#16, 0xffffffbfffffffff#64, 1#64⟩ = .ok (.validate .load true 0xffffffbfffffffff#64 1#64) ∧
  decode ⟨0x0021#16, 0#64, 0#64⟩ = .ok (.queryMode .store) ∧
  decode ⟨0x0002#16, 0#64, 0#64⟩ = .ok .refreshMode ∧
  decode ⟨0x0053#16, 0x1000#64, 0#64⟩ = .ok (.translate .load true 0x1000#64) ∧
  decode ⟨0x0254#16, 0x1000#64, 0xcf#64⟩ = .ok (.checkPerm .load true true 0x1000#64 0xcf#64) ∧
  decode ⟨0x01a5#16, 0x80000ffc#64, 8#64⟩ = .ok (.pmpCheck .store .machine 0x80000ffc#64 8#64) ∧
  decode ⟨0x0096#16, 0x80000000#64, 4#64⟩ = .ok (.spmpCheck .load .supervisor 0x80000000#64 4#64) ∧
  decode ⟨0x0027#16, 0x40203abc#64, 4#64⟩ = .ok (.access .store false 0x40203abc#64 4#64)

/-- A decoded command word selects its instruction's row of the opcode table, and no command word selects two rows
(R110: "a `cmd` selects the row when `cmd & mask = match`"). -/
def Obligations.DecodeSelectsOneTableRow : Prop :=
  (∀ (r : Request) (i : Instr), decode r = .ok i → r.cmd &&& i.opcode.rowMask = i.opcode.rowMatch) ∧
  (∀ (op op' : Opcode) (cmd : BitVec 16),
    cmd &&& op.rowMask = op.rowMatch → cmd &&& op'.rowMask = op'.rowMatch → op = op')

/-- A request is refused as `BadRequest` when R111 calls it ill-formed, and decodes to a well-formed instruction when it does
not. (That an unused OPERAND must be 0 is log entry 3's reading of R91 and R111.) -/
def Obligations.IllFormedRequestsAreRefused : Prop :=
  ∀ (s : State) (r : Request) (rest : List CoreEvent), s.inputs = .request r :: rest →
    (illFormed r = true → step s = .refused .badRequest) ∧
    (illFormed r = false → ∃ i, decode r = .ok i ∧ i.wellFormed = true)

/-! ## The step -/

/-- A step takes the oldest request, decodes it and runs it on the state without it (R21). -/
def Obligations.StepServesDecodedRequest : Prop :=
  ∀ (s : State) (r : Request) (rest : List CoreEvent) (i : Instr),
    s.inputs = .request r :: rest → decode r = .ok i → step s = exec i { s with inputs := rest }

/-- Between requests: an idle block stays as it is but for its outputs, and a register change of the core lands in that register,
for every register by name, and leaves every other register and entry, the block's own state, memory and the trap value
alone (R24, R38; the events are log entry 5's, the alignment of a table base log entry 11's). -/
def Obligations.StepBetweenRequests : Prop :=
  (∀ s : State, s.inputs = [] → step s = .next { s with out := Outputs.none }) ∧
  (∀ (s : State) (r : CtrlReg) (v : Word) (rest : List CoreEvent), s.inputs = .setReg r v :: rest →
    ∃ t, step s = .next t ∧ t = { s with regs := t.regs, inputs := rest, out := Outputs.none } ∧
      registerChanged s.regs t.regs r v)

/-- The core's own store puts its bytes at its addresses, one after the other modulo 2^64, and leaves every other byte and
everything else as it was (R72). -/
def Obligations.CoreStoreSetsItsBytes : Prop :=
  ∀ (s : State) (a : Word) (bytes : List Byte) (rest : List CoreEvent),
    s.inputs = .store a bytes :: rest → bytes.length ≤ 2 ^ 64 →
    ∃ t, step s = .next t ∧ t = { s with mem := t.mem, inputs := rest, out := Outputs.none } ∧
      (∀ k, k < bytes.length → t.mem.byte (a + BitVec.ofNat 64 k) = bytes[k]?) ∧
      (∀ x, (∀ k, k < bytes.length → x ≠ a + BitVec.ofNat 64 k) → t.mem.byte x = s.mem.byte x)

/-- "a store to a page table is seen by the very next walk, with no maintenance operation between them" (R76): the core stores
an entry over the root entry of `va`, and the `TRANSLATE` presented next reads that entry: an absent one faults, whatever
stood there before. -/
def Obligations.StoreIsSeenByTheNextWalk : Prop :=
  ∀ (s : State) (cls : AccessClass) (amo : Bool) (va pte : Word) (mode : Mode) (rest : List CoreEvent),
    s.inputs = .store (pteAddr (pageBase (satpPpn s.regs.satp)) va 2) (leBytes pte) ::
      .request (encode (.translate cls amo va)) :: rest →
    (amo = true → cls ≠ .fetch) → effMode s.regs cls = .ok mode → mode ≠ .machine → signExtended va →
    (∀ t, Host.Core.run Sys2Proof.core 2 s = .next t →
      t.out.bus.head? = some (readRecord cls va (pteAddr (pageBase (satpPpn s.regs.satp)) va 2) pte)) ∧
    (pteKind pte = .absent → ∃ t, Host.Core.run Sys2Proof.core 2 s = .next t ∧
      t.out.exc = some { kind := pfKind cls amo, tval := va } ∧ t.out.bus.length = 1)

/-! ## `VALIDATE` -/

/-- `VALIDATE` passes an address whose bits 63:39 equal bit 38, or any address of a class whose stored flag is Direct, when the
alignment test does not apply or the address is a multiple of the width (R130, R132, R133). -/
def Obligations.ValidateCompletes : Prop :=
  ∀ (s : State) (cls : AccessClass) (amo : Bool) (va len : Word),
    (Instr.validate cls amo va len).wellFormed = true → flagsPremise s →
    (modeFlag s cls = .translate → signExtended va) →
    (s.cfg.alignSoft = true → cls ≠ .fetch → va.toNat % len.toNat = 0) →
    exec (.validate cls amo va len) s = .next (s.beginOp.respond (okResponse 0#64))

/-- A non-canonical address of a class whose flag is Translate raises the class's page fault with the whole address as trap value,
misaligned or not (R130, R134, R135). That `value` is 1 on this Fault is the model's reading, log entry 9. -/
def Obligations.ValidateRaisesOnNonCanonical : Prop :=
  ∀ (s : State) (cls : AccessClass) (amo : Bool) (va len : Word),
    (Instr.validate cls amo va len).wellFormed = true → flagsPremise s →
    modeFlag s cls = .translate → ¬ signExtended va →
    exec (.validate cls amo va len) s = .next
      { s with tval := va, out :=
        { resp := some { status := .fault, value := 1#64, checks := none },
          exc := some { kind := pfKind cls amo, tval := va }, bus := [], warn := false } }

/-- A misaligned data address that passed the first test raises `SAM` for a store or an atomic and `LAM` for a load, in Direct
mode and in Translate mode alike, only under `ALIGN_SOFT` (R133, R253). That `value` is 1 on this Fault is the model's
reading, log entry 9. -/
def Obligations.ValidateRaisesOnMisaligned : Prop :=
  ∀ (s : State) (cls : AccessClass) (amo : Bool) (va len : Word),
    (Instr.validate cls amo va len).wellFormed = true → flagsPremise s →
    (modeFlag s cls = .translate → signExtended va) →
    s.cfg.alignSoft = true → cls ≠ .fetch → va.toNat % len.toNat ≠ 0 →
    exec (.validate cls amo va len) s = .next
      { s with tval := va, out :=
        { resp := some { status := .fault, value := 1#64, checks := none },
          exc := some { kind := if cls = .store ∨ amo = true then .sam else .lam, tval := va },
          bus := [], warn := false } }

/-- The canonical addresses (R131): bits 63:39 each equal bit 38; bits 63:38 all zeros or all ones; the fixed points of sign
extension from 39 bits; the two ranges. -/
def Obligations.CanonicalAddressRanges : Prop :=
  ∀ va : Word,
    (canonical va = true ↔ va.toNat ≤ 0x0000003fffffffff ∨ 0xffffffc000000000 ≤ va.toNat) ∧
    (canonical va = true ↔ (va.setWidth 39).signExtend 64 = va) ∧
    (canonical va = true ↔ va.extractLsb' 38 26 = 0#26 ∨ va.extractLsb' 38 26 = 0x3ffffff#26) ∧
    (canonical va = true ↔ signExtended va)

/-! ## The MMU Mode Cache -/

/-- `QUERY_MODE` answers the stored flag of the class, 0 Direct and 1 Translate, without recomputation (R144). -/
def Obligations.QueryModeAnswersStoredFlag : Prop :=
  ∀ (s : State) (cls : AccessClass), flagsPremise s →
    exec (.queryMode cls) s = .next (s.beginOp.respond (okResponse
      (if (if cls = .fetch then s.fetchMode else s.dataMode) = .translate then 1#64 else 0#64)))

/-- `REFRESH_MODE` computes both flags, the data flag for loads and stores alike, writes both and answers whether the data flag
changed; where either computation aborts it is that `Abort`, with no next state and so neither flag written (R141). -/
def Obligations.RefreshModeCompletes : Prop :=
  ∀ s : State, computeMode s.regs .store = computeMode s.regs .load ∧
    (∀ f d : MmuMode, computeMode s.regs .fetch = .ok f → computeMode s.regs .load = .ok d →
      exec .refreshMode s = .next
        (({ s with fetchMode := f, dataMode := d, out := Outputs.none } : State).respond
          (okResponse (if d = s.dataMode then 0#64 else 1#64)))) ∧
    (∀ e, computeMode s.regs .fetch = .error e → exec .refreshMode s = .refused e) ∧
    (∀ f e, computeMode s.regs .fetch = .ok f → computeMode s.regs .load = .error e → exec .refreshMode s = .refused e)

/-- The table of `computeMode` (R145), by class, effective mode and selector; every case is covered by a clause. -/
def Obligations.ComputeModeTable : Prop :=
  ∀ (r : CoreRegs) (cls : AccessClass),
    let override := r.mprv = true ∧ cls ≠ .fetch
    let code := if override then r.mpp else r.curMode
    let selector := r.satp.extractLsb' 60 4
    (code = 2#2 → computeMode r cls = .error .badMode) ∧
    (code = 3#2 → computeMode r cls = .ok .direct) ∧
    (code = 0#2 ∨ code = 1#2 → selector = 8#4 → computeMode r cls = .ok .translate) ∧
    (code = 0#2 ∨ code = 1#2 → selector = 0#4 → computeMode r cls = .ok .direct) ∧
    (code = 0#2 ∨ code = 1#2 → selector ≠ 8#4 → selector ≠ 0#4 →
      computeMode r cls = .error .unsupportedPagingMode)

/-- A refresh that meets a selector other than 0 and 8 while the effective mode of either class is below machine is
`Abort(UnsupportedPagingMode)`; in machine effective mode the selector is not looked at (R142). Mode code 2 is `Abort(BadMode)`. -/
def Obligations.RefreshModeAborts : Prop :=
  ∀ s : State, let selector := s.regs.satp.extractLsb' 60 4
    (∀ m, effMode s.regs .fetch = .ok m → m ≠ .machine → selector ≠ 8#4 → selector ≠ 0#4 →
      exec .refreshMode s = .refused .unsupportedPagingMode) ∧
    (∀ m, effMode s.regs .fetch = .ok .machine → effMode s.regs .load = .ok m → m ≠ .machine → selector ≠ 8#4 →
      selector ≠ 0#4 → exec .refreshMode s = .refused .unsupportedPagingMode) ∧
    (effMode s.regs .fetch = .ok .machine → effMode s.regs .load = .ok .machine →
      ∃ t, exec .refreshMode s = .next t ∧ t.fetchMode = .direct ∧ t.dataMode = .direct) ∧
    (s.regs.curMode = 2#2 → exec .refreshMode s = .refused .badMode) ∧
    (effMode s.regs .fetch = .ok .machine → s.regs.mprv = true → s.regs.mpp = 2#2 → exec .refreshMode s = .refused .badMode)

/-- A refresh leaves the flags fresh, a second one answers 0 and changes nothing, and no operation makes fresh flags stale: only
a change the core makes can (R285, R143, 95_test_vectors.md M9). -/
def Obligations.RefreshLeavesFlagsFresh : Prop :=
  ∀ s t : State,
    (exec .refreshMode s = .next t → fresh t = true ∧
      exec .refreshMode t = .next (t.beginOp.respond (okResponse 0#64))) ∧
    (∀ i, fresh s = true → exec i s = .next t → fresh t = true)

/-- "The Fault Injector's cells are never cleared except by the address-change branch; the mode flags change only by
`REFRESH_MODE`" (R283): no operation resets state. A cell an operation changes has a count of at least 1; a cell whose
address is as before has not counted down (R25 bounds the count it started from), and one whose address changed starts
again at 1. -/
def Obligations.NoOperationResetsState : Prop :=
  ∀ (i : Instr) (s t : State), exec i s = .next t →
    (i ≠ .refreshMode → t.fetchMode = s.fetchMode ∧ t.dataMode = s.dataMode) ∧
    (∀ c, t.fi.get c = s.fi.get c ∨ 1 ≤ (t.fi.get c).count.toNat) ∧
    (∀ c, fiBounded s.fi → (t.fi.get c).last = (s.fi.get c).last → (s.fi.get c).count.toNat ≤ (t.fi.get c).count.toNat) ∧
    (∀ c, (t.fi.get c).last ≠ (s.fi.get c).last → (t.fi.get c).count = 1#3)

/-! ## `TRANSLATE` -/

/-- `TRANSLATE` of an address whose chain ends in a leaf that grants the access and is no misaligned superpage: the chain is read
once a level, the leaf is marked as the policy says, and the answer is the page base with the superpage bits merged (R150 to
R158, R161, R163). The guide does not name this class's page fault here; `InjectorDecides` is the other case. -/
def Obligations.TranslateCompletes : Prop :=
  ∀ (s : State) (cls : AccessClass) (amo : Bool) (va : Word) (path : List (Word × Word)) (a pte : Word) (mode : Mode),
    (Instr.translate cls amo va).wellFormed = true → effMode s.regs cls = .ok mode → mode ≠ .machine → signExtended va →
    rootPath s va path = true → path.getLast? = some (a, pte) → pteKind pte = .leaf →
    entryGrants s mode cls pte = true → misalignedSuper (3 - path.length) pte = false →
    guideNames s.cfg s.regs.guide cls = false →
    exec (.translate cls amo va) s = .next ((markLeaf cls va a pte (afterReads s cls va path)).respond
      (okResponse (leafBase (pageBase (ptePpn pte)) va (3 - path.length))))

/-- The preconditions of `TRANSLATE` (R162): in machine effective mode it is `Abort(TranslateInMachineMode)`; below, a
non-canonical address raises the class's page fault with the address as trap value and reads no memory. -/
def Obligations.TranslatePreconditions : Prop :=
  ∀ (s : State) (cls : AccessClass) (amo : Bool) (va : Word) (mode : Mode),
    (Instr.translate cls amo va).wellFormed = true → effMode s.regs cls = .ok mode →
    (mode = .machine → exec (.translate cls amo va) s = .refused .translateInMachineMode) ∧
    (mode ≠ .machine → ¬ signExtended va →
      exec (.translate cls amo va) s = .next
        { s with tval := va, out :=
          { resp := some { status := .fault, value := 1#64, checks := none },
            exc := some { kind := pfKind cls amo, tval := va }, bus := [], warn := false } })

/-- A structural fault at level `L` (absent or malformed entry, or a pointer at level 0) raises the class's page fault with the
address as trap value after exactly `3 - L` reads, levels 2 down to `L`, and no write (R73, R155, R160). -/
def Obligations.StructuralFaultAfterExactlyItsReads : Prop :=
  ∀ (s : State) (cls : AccessClass) (amo : Bool) (va : Word) (path : List (Word × Word)) (a pte : Word) (mode : Mode)
    (level : Nat),
    (Instr.translate cls amo va).wellFormed = true → effMode s.regs cls = .ok mode → mode ≠ .machine → signExtended va →
    rootPath s va path = true → path.getLast? = some (a, pte) → path.length = 3 - level → level ≤ 2 →
    (pteKind pte = .absent ∨ pteKind pte = .malformed ∨ (pteKind pte = .pointer ∧ level = 0)) →
    ∃ t, exec (.translate cls amo va) s = .next t ∧
      t = (afterReads s cls va path).raise (pfKind cls amo) va ∧
      t.out.bus.length = 3 - level ∧ (∀ b ∈ t.out.bus, b.kind = .read) ∧ t.mem = s.mem

/-- At a leaf: a denied access raises the class's page fault; a permitted one through a misaligned superpage raises it too, before
any write-back, under either policy (R156, R157, R259 steps 4 and 5). -/
def Obligations.LeafFaultsWriteNothing : Prop :=
  ∀ (s : State) (cls : AccessClass) (amo : Bool) (va : Word) (path : List (Word × Word)) (a pte : Word) (mode : Mode),
    (Instr.translate cls amo va).wellFormed = true → effMode s.regs cls = .ok mode → mode ≠ .machine → signExtended va →
    rootPath s va path = true → path.getLast? = some (a, pte) → pteKind pte = .leaf →
    (entryGrants s mode cls pte = false ∨ misalignedSuper (3 - path.length) pte = true) →
    exec (.translate cls amo va) s = .next ((afterReads s cls va path).raise (pfKind cls amo) va)

/-- A table read with no memory behind it is stuck at that read, never a read of zero (R64, U23; that unlisted memory has no value
is log entry 6): the walk of `TRANSLATE` at any level; the lookup of `PMP_CHECK` at its root or leaf table, once the
test points before have been permitted; and `ACCESS` in its walk and in its lookup, translated or Direct. -/
def Obligations.WalkOffMemoryIsStuck : Prop :=
  (∀ (s : State) (cls : AccessClass) (amo : Bool) (va : Word) (mode : Mode),
    (Instr.translate cls amo va).wellFormed = true → effMode s.regs cls = .ok mode → mode ≠ .machine → signExtended va →
    (s.mem.readWord (pteAddr (pageBase (satpPpn s.regs.satp)) va 2) = none →
      exec (.translate cls amo va) s = .fault (.unpopulatedRead (pteAddr (pageBase (satpPpn s.regs.satp)) va 2))) ∧
    (∀ (path : List (Word × Word)) (a pte : Word),
      rootPath s va path = true → path.getLast? = some (a, pte) → path.length ≤ 2 → pteKind pte = .pointer →
      s.mem.readWord (pteAddr (pageBase (ptePpn pte)) va (2 - path.length)) = none →
      exec (.translate cls amo va) s = .fault (.unpopulatedRead (pteAddr (pageBase (ptePpn pte)) va (2 - path.length))))) ∧
  (∀ (s : State) (cls : AccessClass) (mode : Mode) (pa len a : Word), len ≠ 0#64 → tableStuckAt s cls mode pa len a →
    exec (.pmpCheck cls mode pa len) s = .fault (.unpopulatedRead a)) ∧
  (∀ (s : State) (cls : AccessClass) (amo : Bool) (va len : Word) (mode : Mode),
    (Instr.access cls amo va len).wellFormed = true → flagsPremise s → pagePremise s va len →
    (s.cfg.alignSoft = true → cls ≠ .fetch → va.toNat % len.toNat = 0) → effMode s.regs cls = .ok mode →
    (∀ x, modeFlag s cls = .direct → tableStuckAt s cls mode va len x →
      exec (.access cls amo va len) s = .fault (.unpopulatedRead x)) ∧
    (modeFlag s cls = .translate → mode ≠ .machine → signExtended va →
      (∀ f, exec (.translate cls amo va) s = .fault f → exec (.access cls amo va len) s = .fault f) ∧
      (∀ (path : List (Word × Word)) (a pte x : Word),
        rootPath s va path = true → path.getLast? = some (a, pte) → pteKind pte = .leaf →
        entryGrants s mode cls pte = true → misalignedSuper (3 - path.length) pte = false →
        guideNames s.cfg s.regs.guide cls = false →
        let pa := (leafBase (pageBase (ptePpn pte)) va (3 - path.length)).extractLsb' 12 52 ++ va.extractLsb' 0 12
        tableStuckAt (markLeaf cls va a pte (afterReads s cls va path)) cls mode pa len x →
        exec (.access cls amo va len) s = .fault (.unpopulatedRead x))))

/-- The page base of a leaf, bit by bit: bits 11:0 zero; below the page's size the bits of the virtual address; from there up to bit
55 the leaf's page number; bits 63:56 zero (R157, R161, R99). -/
def Obligations.LeafBaseBits : Prop :=
  ∀ (pte va : Word) (level : Nat), level ≤ 2 → misalignedSuper level pte = false →
    ∀ i, i < 64 → (leafBase (pageBase (ptePpn pte)) va level).getLsbD i =
      (if i < 12 then false else if i < 12 + 9 * level then va.getLsbD i
        else if i < 56 then pte.getLsbD (i - 2) else false)

/-- Accessed/dirty maintenance under `HW_UPDATE` (R158): after a translation that succeeded, the leaf in memory has its accessed bit
set and, for a store, its dirty bit; every other bit is as it was read, a dirty bit already set among them; there is one write,
to the address the leaf was read from, when a bit had to be set, and none otherwise. -/
def Obligations.HardwareUpdateMarksTheLeaf : Prop :=
  ∀ (s t : State) (cls : AccessClass) (amo : Bool) (va : Word) (path : List (Word × Word)) (a pte : Word),
    s.cfg.adPolicy = .hwUpdate → rootPath s va path = true → path.getLast? = some (a, pte) → pteKind pte = .leaf →
    exec (.translate cls amo va) s = .next t → t.out.exc = none →
    ∃ pte', t.mem.readWord a = some pte' ∧
      (∀ i, i < 64 → pte'.getLsbD i = (pte.getLsbD i || (i == 6) || (i == 7 && cls == .store))) ∧
      (pte' = pte → t.mem = s.mem ∧ t.out.bus = pathReads cls va path) ∧
      (pte' ≠ pte → t.out.bus = pathReads cls va path ++ [writeRecord va a pte'])

/-- Under `EXC_UPDATE` no operation writes memory; a leaf whose accessed bit is clear, or whose dirty bit is clear on a store, raises
the fault the permission check would raise (R159, R174). -/
def Obligations.ExceptionUpdateWritesNoMemory : Prop :=
  (∀ (i : Instr) (s t : State), s.cfg.adPolicy = .excUpdate → exec i s = .next t →
    t.mem = s.mem ∧ ∀ b ∈ t.out.bus, b.kind = .read) ∧
  (∀ (s : State) (cls : AccessClass) (amo : Bool) (va : Word) (path : List (Word × Word)) (a pte : Word) (mode : Mode),
    s.cfg.adPolicy = .excUpdate → (Instr.translate cls amo va).wellFormed = true → effMode s.regs cls = .ok mode →
    mode ≠ .machine → signExtended va → rootPath s va path = true → path.getLast? = some (a, pte) → pteKind pte = .leaf →
    (pte.getLsbD 6 = false ∨ (cls = .store ∧ pte.getLsbD 7 = false)) →
    exec (.translate cls amo va) s = .next ((afterReads s cls va path).raise (pfKind cls amo) va))

/-- The frame of memory for the operations that walk: every byte outside the 8 bytes at the address of the last entry of the chain
reads as before; and where the access is not translated, or the operation ends in a fault that the injector did not raise, every
byte does (R68, R158, R258). -/
def Obligations.WalkingOperationsMemoryFrame : Prop :=
  ∀ (i : Instr) (cls : AccessClass) (amo : Bool) (va : Word) (s t : State),
    walks i = true → faultOperands i = some (cls, amo, va) → exec i s = .next t →
    (∀ (path : List (Word × Word)) (a pte : Word), rootPath s va path = true → path.getLast? = some (a, pte) →
      pteKind pte = .leaf → ∀ x, (∀ k, k < 8 → x ≠ a + BitVec.ofNat 64 k) → t.mem.byte x = s.mem.byte x) ∧
    ((∀ (path : List (Word × Word)) (a pte : Word), rootPath s va path = true → path.getLast? = some (a, pte) →
      pteKind pte ≠ .leaf) → t.mem = s.mem) ∧
    (i = .access cls amo va (accessLen i) → modeFlag s cls = .direct → t.mem = s.mem) ∧
    (t.out.exc.isSome = true → guideNames s.cfg s.regs.guide cls = false → t.mem = s.mem)

/-- The rest of the frame of the operations that walk: parameters, mode flags, consumed registers and pending inputs are as before;
the injector's cells change for the operation's own class only, and only when the guide names its page fault; the trap
value changes only by a raise (R150, R227, R258). -/
def Obligations.WalkingOperationsFrame : Prop :=
  ∀ (i : Instr) (cls : AccessClass) (amo : Bool) (va : Word) (s t : State),
    walks i = true → faultOperands i = some (cls, amo, va) → exec i s = .next t →
    t.cfg = s.cfg ∧ t.fetchMode = s.fetchMode ∧ t.dataMode = s.dataMode ∧ t.regs = s.regs ∧ t.inputs = s.inputs ∧
    (∀ c, c ≠ cls → t.fi.get c = s.fi.get c) ∧
    (guideNames s.cfg s.regs.guide cls = false → t.fi = s.fi) ∧
    (t.out.exc = none → t.tval = s.tval)

/-- The frame of the operations that walk no table: nothing of the state changes but the outputs, the mode flags (by `REFRESH_MODE`
alone) and the trap value (by a raise); every byte of memory reads as before (R68, R130, R141, R144, R170, R180, R210). -/
def Obligations.NonWalkingOperationsFrame : Prop :=
  ∀ (i : Instr) (s t : State), walks i = false → exec i s = .next t →
    t.cfg = s.cfg ∧ t.regs = s.regs ∧ t.fi = s.fi ∧ t.inputs = s.inputs ∧ (∀ x, t.mem.byte x = s.mem.byte x) ∧
    (i ≠ .refreshMode → t.fetchMode = s.fetchMode ∧ t.dataMode = s.dataMode) ∧
    (t.out.exc = none → t.tval = s.tval)

/-- What `TRANSLATE` puts on the memory port: at most three reads and then at most one write, each of 8 bytes in supervisor mode with
the request's address; the reads carry the tag of the access class and the write the write-back tag (R62, R63, R68, R292). -/
def Obligations.TranslateBusTraffic : Prop :=
  ∀ (s t : State) (cls : AccessClass) (amo : Bool) (va : Word), exec (.translate cls amo va) s = .next t →
    ∃ reads writes, t.out.bus = reads ++ writes ∧ reads.length ≤ 3 ∧ writes.length ≤ 1 ∧
      (∀ b ∈ reads, b = readRecord cls va b.addr b.value) ∧
      (∀ b ∈ writes, b = writeRecord va b.addr b.value ∧ s.cfg.adPolicy = .hwUpdate)

/-- The address of a page-table entry: the table's page number times 4096 plus the slice times 8, with no carry out of bit 55, and a
multiple of 8 (R152, R66, R78). Every access of the block, to a page table or to a lookup table, made or stuck, is at a
multiple of 8 (R66), in every state whose lookup tables are aligned, as `Inv` says. -/
def Obligations.PteAddressIsAligned : Prop :=
  (∀ (ppn : BitVec 44) (va : Word) (level : Nat), level ≤ 2 →
    (pteAddr (pageBase ppn) va level).toNat = ppn.toNat * 4096 + (va.toNat / 2 ^ (12 + 9 * level)) % 512 * 8 ∧
    (pteAddr (pageBase ppn) va level).toNat < 2 ^ 56 ∧ (pteAddr (pageBase ppn) va level).toNat % 8 = 0) ∧
  (∀ (i : Instr) (s : State), tablesAligned s →
    (∀ t, exec i s = .next t → ∀ b ∈ t.out.bus, b.addr.toNat % 8 = 0) ∧
    (∀ a, exec i s = .fault (.unpopulatedRead a) → a.toNat % 8 = 0))

/-- "The walker does not look at `satp.mode` and does not look at the MMU Mode Cache" (R151): changing the flags, or any bit of the
root-table pointer above its page number, changes nothing a `TRANSLATE` does. -/
def Obligations.TranslateIgnoresFlagsAndSelector : Prop :=
  ∀ (s t : State) (cls : AccessClass) (amo : Bool) (va : Word), exec (.translate cls amo va) s = .next t →
    ∀ (f d : MmuMode) (satp : Word), satp.extractLsb' 0 44 = s.regs.satp.extractLsb' 0 44 →
      exec (.translate cls amo va) { s with fetchMode := f, dataMode := d, regs := { s.regs with satp := satp } } =
        .next { t with fetchMode := f, dataMode := d, regs := { t.regs with satp := satp } }

/-- The classes of a page-table entry by its bits 3:0, `x w r v` (R96, R112). -/
def Obligations.PteClassesByLowBits : Prop :=
  ∀ p : Word,
    (pteKind p = .pointer ↔ p.extractLsb' 0 4 = 0b0001#4) ∧
    (pteKind p = .leaf ↔ p.extractLsb' 0 4 ∈ [0b0011#4, 0b0111#4, 0b1001#4, 0b1011#4, 0b1111#4]) ∧
    (pteKind p = .malformed ↔ p.extractLsb' 0 4 ∈ [0b0101#4, 0b1101#4]) ∧
    (pteKind p = .absent ↔ p.getLsbD 0 = false)

/-! ## `CHECK_PERM` -/

/-- `CHECK_PERM` answers 1 exactly where the R177 table and, under `EXC_UPDATE`, the accessed and dirty bits allow the access
(R170, R172, R174): it does so there, and a next state with no fault is found only there. -/
def Obligations.CheckPermCompletes : Prop :=
  ∀ (s : State) (cls : AccessClass) (amo : Bool) (va pte : Word) (mode : Mode),
    (Instr.checkPerm cls amo true va pte).wellFormed = true → effMode s.regs cls = .ok mode → mode ≠ .machine →
    (entryGrants s mode cls pte = true →
      exec (.checkPerm cls amo true va pte) s = .next (s.beginOp.respond (okResponse 1#64))) ∧
    (∀ t, exec (.checkPerm cls amo true va pte) s = .next t → t.out.exc = none → entryGrants s mode cls pte = true)

/-- Every denial raises the page fault of the class with the virtual address as trap value: instruction; store for a store or an
atomic; load. With `structurallyOk` = 0 the result is always that, whatever the entry (R173, R175). That `value`
is 1 on this Fault is the model's reading, log entry 9. -/
def Obligations.CheckPermRaisesOnDenial : Prop :=
  ∀ (s : State) (cls : AccessClass) (amo sok : Bool) (va pte : Word) (mode : Mode),
    (Instr.checkPerm cls amo sok va pte).wellFormed = true → effMode s.regs cls = .ok mode → mode ≠ .machine →
    (sok = false ∨ entryGrants s mode cls pte = false) →
    exec (.checkPerm cls amo sok va pte) s = .next
      { s with tval := va, out :=
        { resp := some { status := .fault, value := 1#64, checks := none },
          exc := some { kind := if cls = .fetch then .ipf else if cls = .store ∨ amo = true then .spf else .lpf, tval := va },
          bus := [], warn := false } }

/-- The invariant violations of the effective mode are refusals (R262): machine mode in `CHECK_PERM` (R176), and mode code 2 in
`TRANSLATE` and `CHECK_PERM` (R114, R265). An `ACCESS` that passes `VALIDATE` on an instance that mirrors the software (log
entry 2) is refused as well for mode code 2, and for a stale Translate flag in machine mode (R162, R285). -/
def Obligations.BadEffectiveModesAreRefused : Prop :=
  (∀ (s : State) (cls : AccessClass) (amo sok : Bool) (va pte : Word), (amo = true → cls ≠ .fetch) →
    (effMode s.regs cls = .ok .machine → exec (.checkPerm cls amo sok va pte) s = .refused .evaluatorInMachineMode) ∧
    (effModeCode s.regs cls = 2#2 → exec (.checkPerm cls amo sok va pte) s = .refused .badMode ∧
      exec (.translate cls amo va) s = .refused .badMode)) ∧
  (∀ (s : State) (cls : AccessClass) (amo : Bool) (va len : Word),
    (Instr.access cls amo va len).wellFormed = true → s.cfg.premises = .mirror →
    (modeFlag s cls = .translate → signExtended va) →
    (s.cfg.alignSoft = true → cls ≠ .fetch → va.toNat % len.toNat = 0) →
    (effModeCode s.regs cls = 2#2 → exec (.access cls amo va len) s = .refused .badMode) ∧
    (modeFlag s cls = .translate → effMode s.regs cls = .ok .machine →
      exec (.access cls amo va len) s = .refused .translateInMachineMode))

/-- The effective mode (R265): the previous privilege for data accesses under the override, the current mode otherwise and for every
fetch; code 2 is no mode, whichever of the two it stands in. The codes are 0, 1 and 3. -/
def Obligations.EffectiveModeRule : Prop :=
  ∀ (r : CoreRegs) (cls : AccessClass) (m : Mode),
    (effMode r .fetch = .ok m ↔ r.curMode = m.code) ∧
    (cls ≠ .fetch → r.mprv = true → (effMode r cls = .ok m ↔ r.mpp = m.code)) ∧
    (r.mprv = false → (effMode r cls = .ok m ↔ r.curMode = m.code)) ∧
    (effMode r cls = .error .badMode ↔ (if r.mprv = true ∧ cls ≠ .fetch then r.mpp else r.curMode) = 2#2) ∧
    Mode.user.code = 0#2 ∧ Mode.supervisor.code = 1#2 ∧ Mode.machine.code = 3#2

/-- The page-fault kind of a class, and the injector's, which ignores the atomic indicator (R252). The codes are those of R251's
table. -/
def Obligations.FaultKindsAndCodes : Prop :=
  (∀ amo, pfKind .fetch amo = .ipf) ∧ pfKind .load false = .lpf ∧ pfKind .load true = .spf ∧
  (∀ amo, pfKind .store amo = .spf) ∧ (∀ cls, pfCode cls = pfKind cls false) ∧
  FaultKind.lam.code = 4#6 ∧ FaultKind.sam.code = 6#6 ∧ FaultKind.ipf.code = 12#6 ∧ FaultKind.lpf.code = 13#6 ∧
  FaultKind.spf.code = 15#6

/-! ## Region matching and `PMP_CHECK` -/

/-- The first entry that covers any test point decides: fully if it covers them all, partially otherwise; with no such entry there
is no match. The base of an entry under TOR is the bound of the entry before it, whatever that entry's mode (R181, R182, R184).
It holds of the PMP array, of the SPMP array and of any other array of regions: the primitive is shared. -/
def Obligations.FirstMatchingEntryDecides : Prop :=
  ∀ (α : Type) (region : α → Region) (l : List α) (pa len : Word),
    (∀ (i : Nat) (e : α), l[i]? = some e →
      (∀ (j : Nat) (d : α), j < i → l[j]? = some d → ∀ p ∈ testPoints pa len, covers region l j d p = false) →
      (∃ p ∈ testPoints pa len, covers region l i e p = true) →
      ((∀ p ∈ testPoints pa len, covers region l i e p = true) →
        regionMatch region l pa len = .full e (regionBase (region e) (baseOf region l i))) ∧
      ((∃ p ∈ testPoints pa len, covers region l i e p = false) → regionMatch region l pa len = .partialMatch e)) ∧
    ((∀ (i : Nat) (e : α), l[i]? = some e → ∀ p ∈ testPoints pa len, covers region l i e p = false) →
      regionMatch region l pa len = .none)

/-- The test points: `ceil(len / 4)` of them, the `k`-th at `pa + 4k` modulo 2^64, starting at `pa` itself (R183). -/
def Obligations.TestPointsEveryFourBytes : Prop :=
  ∀ (pa len : Word),
    (testPoints pa len).length = (len.toNat + 3) / 4 ∧
    (∀ k p, (testPoints pa len)[k]? = some p → p.toNat = (pa.toNat + 4 * k) % 2 ^ 64 ∧ 4 * k < len.toNat)

/-- NAPOT (R105): an address field with `k` trailing ones matches exactly the addresses that agree with `a << 2` in every bit from
`k + 3` upward; for `k` of 61 and more, every address. -/
def Obligations.NapotMatchesItsBlock : Prop :=
  ∀ (a cur : Word) (k : Nat), k ≤ 64 → (∀ i, i < k → a.getLsbD i = true) → (k < 64 → a.getLsbD k = false) →
    (maskMatch (napotMask a) a cur = true ↔ ∀ i, k + 3 ≤ i → i < 64 → cur.getLsbD i = (a <<< 2).getLsbD i)

/-- An off entry covers nothing; TOR covers `base <= cur < bound`, unsigned, and so nothing when the bound is not above the base; NA4
covers the four bytes at `a << 2` (R181, R185, R106). -/
def Obligations.OffTorAndNa4Match : Prop :=
  ∀ (c : BitVec 8) (a base cur : Word),
    (c.extractLsb' 3 2 = 0#2 → pointMatch ⟨c, a⟩ base cur = false) ∧
    (c.extractLsb' 3 2 = 1#2 →
      (pointMatch ⟨c, a⟩ base cur = true ↔ base.toNat ≤ cur.toNat ∧ cur.toNat < a.toNat * 4 % 2 ^ 64)) ∧
    (c.extractLsb' 3 2 = 2#2 →
      (pointMatch ⟨c, a⟩ base cur = true ↔ cur.toNat / 4 = a.toNat % 2 ^ 62)) ∧
    (c.extractLsb' 3 2 = 3#2 → pointMatch ⟨c, a⟩ base cur = maskMatch (napotMask a) a cur)

/-- `PMP_CHECK` where no lookup table is consulted answers 0 on a partial match, in every mode; on a full match 1 in machine mode
through an unlocked entry and else the class's bit; on no match 1 in machine mode or with nothing configured and else 0 (R180,
R187, R190, R192). -/
def Obligations.PmpCheckCompletes : Prop :=
  ∀ (s : State) (cls : AccessClass) (mode : Mode) (pa len : Word) (b : Bool), len ≠ 0#64 →
    pmpAnswers s cls mode pa len b →
    exec (.pmpCheck cls mode pa len) s = .next (s.beginOp.respond (okResponse (if b then 1#64 else 0#64)))

/-- `PMP_CHECK` where the lookup table is consulted. Where every table entry it may read is there, it answers 1 exactly when the
normalised nibble of every test point has the class's bit; and it answers 0 at the first test point that is denied, whatever
the entries of later points (R194, R196, R198, R199; the layout is the instance's). -/
def Obligations.PmpTableCheckCompletes : Prop :=
  (∀ (s : State) (cls : AccessClass) (mode : Mode) (pa len : Word) (e : PmpEntry) (rbase : Word) (nibble : Word → BitVec 4),
    len ≠ 0#64 → regionMatch PmpEntry.region s.regs.pmp pa len = .full e rbase → tableConsulted s e mode = true →
    (∀ p ∈ testPoints pa len, tableNibble s e.tbase (p - rbase) = some (nibble p)) →
    ∃ t, exec (.pmpCheck cls mode pa len) s = .next t ∧
      t = { s with out := { Outputs.none with bus := t.out.bus, resp := t.out.resp } } ∧
      t.out.resp = some (okResponse (if (testPoints pa len).all fun p =>
        pmptBit s.cfg.pmpt (pmptNormalise s.cfg.pmpt (nibble p)) cls then 1#64 else 0#64)) ∧
      (∀ b ∈ t.out.bus, isTableRead b)) ∧
  (∀ (s : State) (cls : AccessClass) (mode : Mode) (pa len : Word) (b : Bool), len ≠ 0#64 →
    tableAnswers s cls mode pa len b →
    ∃ reads, (∀ r ∈ reads, isTableRead r) ∧
      exec (.pmpCheck cls mode pa len) s =
        .next ((withReads s.beginOp reads).respond (okResponse (if b then 1#64 else 0#64))))

/-- A region denial is a Boolean, never a fault: the region checks raise nothing, answer 0 or 1, and change nothing but their outputs
(R180, R210, R264). -/
def Obligations.RegionChecksNeverRaise : Prop :=
  ∀ (s t : State) (cls : AccessClass) (mode : Mode) (pa len : Word),
    (exec (.pmpCheck cls mode pa len) s = .next t ∨ exec (.spmpCheck cls mode pa len) s = .next t) →
    t.out.exc = none ∧ (answered t = some 0#64 ∨ answered t = some 1#64) ∧ t = { s with out := t.out }

/-! ## `SPMP_CHECK` -/

/-- `SPMP_CHECK` answers 0 on a partial match in every mode, 1 on no match, and on a full match what the table that the mode and `sum`
select holds for the key; machine mode is not restricted by a full match (R210 to R213, R216). -/
def Obligations.SpmpCheckCompletes : Prop :=
  ∀ (s : State) (cls : AccessClass) (mode : Mode) (pa len : Word), len ≠ 0#64 →
    exec (.spmpCheck cls mode pa len) s =
      .next (s.beginOp.respond (okResponse (if spmpAnswer s cls mode pa len then 1#64 else 0#64)))

/-! ## The Fault Injector -/

/-- Where the guide names this class's page fault and the walk itself succeeds: the class's cell counts the request, the request that
makes the count 5 completes with its result, and every other raises the class's page fault with the reference's trap value; under
`HW_UPDATE` the write-back has happened (R226 to R229, R232). -/
def Obligations.InjectorDecides : Prop :=
  ∀ (s : State) (cls : AccessClass) (amo : Bool) (va : Word) (path : List (Word × Word)) (a pte : Word) (mode : Mode),
    (Instr.translate cls amo va).wellFormed = true → effMode s.regs cls = .ok mode → mode ≠ .machine → signExtended va →
    rootPath s va path = true → path.getLast? = some (a, pte) → pteKind pte = .leaf →
    entryGrants s mode cls pte = true → misalignedSuper (3 - path.length) pte = false →
    s.cfg.guided = true → s.regs.guide.active = true → s.regs.guide.force = true →
    s.regs.guide.excnum = (pfKind cls false).code →
    let old := s.fi.get cls
    let count := if old.last = va then min (old.count.toNat + 1) 6 else 1
    let marked := (markLeaf cls va a pte (afterReads s cls va path)).setFi
      (s.fi.put cls { last := va, count := BitVec.ofNat 3 count })
    (count = 5 → exec (.translate cls amo va) s =
      .next (marked.respond (okResponse (leafBase (pageBase (ptePpn pte)) va (3 - path.length))))) ∧
    (count ≠ 5 → ∃ warn, exec (.translate cls amo va) s =
      .next ((marked.setWarn warn).raise (pfKind cls false) s.regs.guide.tval))

/-- The count after `n` considered requests at one new address is `n`, and 6 from the sixth on; so the fifth passes and the sixth is
injected again (R227, R233). -/
def Obligations.InjectorCountsRepeats : Prop :=
  ∀ (c : FiCell) (va : Word) (n : Nat), 1 ≤ n → (c.last ≠ va ∨ c.count = 0#3) →
    ((fun d : FiCell => d.considered va)^[n] c) = { last := va, count := BitVec.ofNat 3 (min n 6) }

/-! ## `ACCESS` -/

/-- A Direct access: the address is passed through unchanged, and the answer carries it with the two checks made on it in the
effective mode (R240, R243, R244), by the region's own bits or by its lookup table (R190, R194), whose reads then stand on
the memory port. -/
def Obligations.AccessDirectCompletes : Prop :=
  ∀ (s : State) (cls : AccessClass) (amo : Bool) (va len : Word) (mode : Mode) (b : Bool),
    (Instr.access cls amo va len).wellFormed = true → flagsPremise s → pagePremise s va len →
    modeFlag s cls = .direct → (s.cfg.alignSoft = true → cls ≠ .fetch → va.toNat % len.toNat = 0) →
    effMode s.regs cls = .ok mode →
    let answer : Response :=
      { status := .ok, value := va,
        checks := some { pmpOk := b, spmpOk := !s.cfg.spmpEn || spmpAnswer s cls mode va len } }
    (pmpAnswers s cls mode va len b → exec (.access cls amo va len) s = .next (s.beginOp.respond answer)) ∧
    (tableAnswers s cls mode va len b → ∃ reads, (∀ r ∈ reads, isTableRead r) ∧
      exec (.access cls amo va len) s = .next ((withReads s.beginOp reads).respond answer))

/-- A translated access: the walk, then the page base with the request's offset, then the checks on that address, by the region's own
bits or by its lookup table, read from memory as the walk left it; a denial is reported, and the leaf has been marked all the
same (R240, R242, R243, R290). -/
def Obligations.AccessTranslatedCompletes : Prop :=
  ∀ (s : State) (cls : AccessClass) (amo : Bool) (va len : Word) (path : List (Word × Word)) (a pte : Word) (mode : Mode)
    (b : Bool),
    (Instr.access cls amo va len).wellFormed = true → flagsPremise s → pagePremise s va len →
    modeFlag s cls = .translate → (s.cfg.alignSoft = true → cls ≠ .fetch → va.toNat % len.toNat = 0) →
    effMode s.regs cls = .ok mode → mode ≠ .machine → signExtended va →
    rootPath s va path = true → path.getLast? = some (a, pte) → pteKind pte = .leaf →
    entryGrants s mode cls pte = true → misalignedSuper (3 - path.length) pte = false →
    guideNames s.cfg s.regs.guide cls = false →
    let pa := (leafBase (pageBase (ptePpn pte)) va (3 - path.length)).extractLsb' 12 52 ++ va.extractLsb' 0 12
    let marked := markLeaf cls va a pte (afterReads s cls va path)
    let answer : Response :=
      { status := .ok, value := pa,
        checks := some { pmpOk := b, spmpOk := !s.cfg.spmpEn || spmpAnswer s cls mode pa len } }
    (pmpAnswers s cls mode pa len b → exec (.access cls amo va len) s = .next (marked.respond answer)) ∧
    (tableAnswers marked cls mode pa len b → ∃ reads, (∀ r ∈ reads, isTableRead r) ∧
      exec (.access cls amo va len) s = .next ((withReads marked reads).respond answer))

/-- `ACCESS` adds no semantics of its own (R118, R240): whatever the operations of its expansion answer one after the other, it
answers at once, and leaves the state they leave but for the ports. -/
def Obligations.AccessEqualsItsExpansion : Prop :=
  ∀ (s s1 s2 s3 s4 s5 : State) (cls : AccessClass) (amo : Bool) (va len : Word) (mode : Mode) (w pa : Word),
    pagePremise s va len →
    exec (.validate cls amo va len) s = .next s1 → s1.out.exc = none →
    exec (.queryMode cls) s1 = .next s2 →
    (answered s2 = some 1#64 → exec (.translate cls amo va) s2 = .next s3 ∧ s3.out.exc = none ∧ answered s3 = some w ∧
      pa = w.extractLsb' 12 52 ++ va.extractLsb' 0 12) →
    (answered s2 = some 0#64 → s3 = s2 ∧ pa = va) →
    effMode s.regs cls = .ok mode →
    exec (.pmpCheck cls mode pa len) s3 = .next s4 → exec (.spmpCheck cls mode pa len) s4 = .next s5 →
    ∃ t, exec (.access cls amo va len) s = .next t ∧ s5 = { t with out := s5.out } ∧ t.out.exc = none ∧
      t.out.resp = some
        { status := .ok, value := pa,
          checks := some { pmpOk := answered s4 == some 1#64, spmpOk := !s.cfg.spmpEn || answered s5 == some 1#64 } }

/-- "A fault in an earlier step ends the composite: later steps do not run, their state is not touched" (R241): where `VALIDATE`
raises, `ACCESS` is that raise; where the walk it goes on to raises, `ACCESS` is that raise. -/
def Obligations.AccessEndsAtTheFirstFault : Prop :=
  ∀ (s t : State) (cls : AccessClass) (amo : Bool) (va len : Word), pagePremise s va len →
    (exec (.validate cls amo va len) s = .next t → t.out.exc.isSome = true →
      exec (.access cls amo va len) s = .next t ∧ t.out.bus = []) ∧
    (∀ u, exec (.validate cls amo va len) s = .next u → u.out.exc = none → modeFlag s cls = .translate →
      exec (.translate cls amo va) s = .next t → t.out.exc.isSome = true →
      exec (.access cls amo va len) s = .next t)

/-- An instance that refuses failed premises refuses `VALIDATE`, `QUERY_MODE` and `ACCESS` with stale flags, and an `ACCESS` that
crosses a page boundary (R285, R291, U5, U25; the policy is log entry 2's). -/
def Obligations.FailedPremisesAreRefused : Prop :=
  ∀ (s : State) (cls : AccessClass) (amo : Bool) (va len : Word), s.cfg.premises = .refuse →
    (fresh s = false →
      exec (.queryMode cls) s = .refused .staleModeFlags ∧
      ((Instr.access cls amo va len).wellFormed = true →
        exec (.validate cls amo va len) s = .refused .staleModeFlags ∧
        exec (.access cls amo va len) s = .refused .staleModeFlags)) ∧
    (fresh s = true → (Instr.access cls amo va len).wellFormed = true →
      4096 < va.toNat % 4096 + len.toNat → exec (.access cls amo va len) s = .refused .pageCrossing)

/-! ## The whole machine -/

/-- The invariant holds at reset. -/
def Obligations.InvariantHoldsAtReset : Prop := Inv State.reset

/-- Every step keeps the invariant: memory in canonical form, the region arrays at their fixed lengths, the lookup tables aligned
(R36, R66; what a write of an unaligned base does is log entry 11's), the injector's counts at most 6, the exception output
valid exactly with a `Fault` response and carrying the trap value. -/
def Obligations.StepKeepsTheInvariant : Prop :=
  ∀ s t : State, Inv s → step s = .next t → Inv t

/-- No operation writes what the block only consumes: the current mode, the root-table pointer, the status controls, both region
arrays, the table roots and the guide (R30 to R37), nor an instance parameter (R8), nor a pending input. -/
def Obligations.ConsumedStateIsNeverWritten : Prop :=
  ∀ (i : Instr) (s t : State), exec i s = .next t → t.regs = s.regs ∧ t.cfg = s.cfg ∧ t.inputs = s.inputs

/-- The fault record (R250, R254, R255): a raise that the guide did not ask for names the operation's own page-fault kind or a data
misalignment, and its trap value is the request's virtual address exactly as given; the trap-value register holds it. -/
def Obligations.FaultRecordIsTheRequestAddress : Prop :=
  ∀ (i : Instr) (s t : State) (x : ExcOut), exec i s = .next t → t.out.exc = some x →
    t.tval = x.tval ∧ ∃ cls amo va, faultOperands i = some (cls, amo, va) ∧
      (guideNames s.cfg s.regs.guide cls = false → x.tval = va ∧
        (x.kind = pfKind cls amo ∨ (cls ≠ .fetch ∧ s.cfg.alignSoft = true ∧
          x.kind = if cls = .store ∨ amo = true then .sam else .lam)))

/-- Faults are precise (R258): after a raise the mode flags are as before the operation, the injector's cells are changed only if the
raise was the injector's own, and memory is changed only in that case and under `HW_UPDATE` (R232). -/
def Obligations.FaultsArePrecise : Prop :=
  ∀ (i : Instr) (s t : State) (x : ExcOut), exec i s = .next t → t.out.exc = some x →
    t.fetchMode = s.fetchMode ∧ t.dataMode = s.dataMode ∧
    (t.fi ≠ s.fi ∨ t.mem ≠ s.mem → ∃ cls amo va, faultOperands i = some (cls, amo, va) ∧
      guideNames s.cfg s.regs.guide cls = true ∧ x.kind = pfKind cls false ∧ x.tval = s.regs.guide.tval) ∧
    (t.mem ≠ s.mem → s.cfg.adPolicy = .hwUpdate)

/-- Reset (R280, R281, R282): the flags are Direct and the injector's cells zero; everything the block consumes, the trap value and
memory are launch state and stay as they were. -/
def Obligations.ResetSetsOwnedStateOnly : Prop :=
  ∀ (s : State) (rest : List CoreEvent), s.inputs = .reset :: rest →
    ∃ t, step s = .next t ∧ t.fetchMode = .direct ∧ t.dataMode = .direct ∧
      (∀ c, (t.fi.get c).last = 0#64 ∧ (t.fi.get c).count = 0#3) ∧
      t.cfg = s.cfg ∧ t.regs = s.regs ∧ t.tval = s.tval ∧ t.mem = s.mem ∧ t.inputs = rest
end

