-- ==== Sys2Proof/Laws/Memory.lean ====
section
/-! SUPPORT. The laws of memory: a read after a write to the same place, every other place alone, and every operation
keeps the canonical form (R72). -/

namespace Sys2Proof.Machine

@[simp] theorem memory_get_nil (a : Nat) : Memory.get [] a = none := rfl

/-- Reading the byte just written. -/
@[simp] theorem memory_get_set_same (m : Memory) (a : Nat) (b : Byte) : (m.set a b).get a = some b := by
  induction m with
  | nil => simp [Memory.set, Memory.get]
  | cons c rest ih =>
    simp only [Memory.set]
    split
    · simp [Memory.get]
    · split
      · simp [Memory.get]
      · rename_i h1 h2
        simp [Memory.get, Ne.symm h2, ih]

/-- A write leaves every other address alone. -/
theorem memory_get_set_other (m : Memory) (a a' : Nat) (b : Byte) (h : a' ≠ a) :
    (m.set a b).get a' = m.get a' := by
  induction m with
  | nil => simp [Memory.set, Memory.get, Ne.symm h]
  | cons c rest ih =>
    simp only [Memory.set]
    split
    · simp [Memory.get, Ne.symm h]
    · split
      · rename_i h1 h2
        subst h2
        simp [Memory.get, Ne.symm h]
      · simp only [Memory.get]
        split
        · rfl
        · exact ih

/-- A write below a bound keeps all addresses above a lower bound. -/
theorem memory_mem_set (m : Memory) (a : Nat) (b : Byte) (c : Host.Cell) (h : c ∈ m.set a b) :
    c.1 = a ∨ c ∈ m := by
  induction m with
  | nil => simp [Memory.set] at h; simp [h]
  | cons d rest ih =>
    simp only [Memory.set] at h
    split at h
    · rcases List.mem_cons.1 h with rfl | h
      · exact .inl rfl
      · exact .inr h
    · split at h
      · rcases List.mem_cons.1 h with rfl | h
        · exact .inl rfl
        · exact .inr (List.mem_cons_of_mem _ h)
      · rcases List.mem_cons.1 h with rfl | h
        · exact .inr (List.mem_cons_self)
        · rcases ih h with h | h
          · exact .inl h
          · exact .inr (List.mem_cons_of_mem _ h)

/-- A byte write keeps the canonical form. -/
theorem memory_set_wf (m : Memory) (a : Nat) (b : Byte) (hm : m.wf) (ha : a < 2 ^ 64) : (m.set a b).wf := by
  obtain ⟨hp, hb⟩ := hm
  refine ⟨?_, fun c hc => (memory_mem_set m a b c hc).elim (fun h => h ▸ ha) (hb c)⟩
  clear hb
  induction m with
  | nil => simp [Memory.set]
  | cons d rest ih =>
    rw [List.pairwise_cons] at hp
    simp only [Memory.set]
    split
    · rename_i hlt
      refine List.pairwise_cons.2 ⟨fun c hc => ?_, List.pairwise_cons.2 hp⟩
      rcases List.mem_cons.1 hc with rfl | hc
      · exact hlt
      · exact lt_trans hlt (hp.1 c hc)
    · split
      · rename_i h
        exact List.pairwise_cons.2 ⟨fun c hc => h ▸ hp.1 c hc, hp.2⟩
      · rename_i h1 h2
        refine List.pairwise_cons.2 ⟨fun c hc => ?_, ih hp.2⟩
        rcases memory_mem_set rest a b c hc with h | h
        · rw [h]; omega
        · exact hp.1 c h

/-- A multi-byte write keeps the canonical form. -/
theorem memory_writeLE_wf (n : Nat) (m : Memory) (a v : Word) (hm : m.wf) : (m.writeLE a v n).wf := by
  induction n generalizing m a v with
  | zero => exact hm
  | succ n ih => exact ih _ _ _ (memory_set_wf m _ _ hm a.isLt)

theorem memory_writeWord_wf (m : Memory) (a v : Word) (hm : m.wf) : (m.writeWord a v).wf :=
  memory_writeLE_wf 8 m a v hm

theorem memory_storeBytes_wf (bs : List Byte) (m : Memory) (a : Word) (hm : m.wf) : (m.storeBytes a bs).wf := by
  induction bs generalizing m a with
  | nil => exact hm
  | cons b bs ih => exact ih _ _ (memory_set_wf m _ _ hm a.isLt)

@[simp] theorem memory_byte_set_same (m : Memory) (a : Word) (b : Byte) : (m.set a.toNat b).byte a = some b := by
  simp [Memory.byte]

theorem memory_byte_set_other (m : Memory) (a a' : Word) (b : Byte) (h : a' ≠ a) :
    (m.set a.toNat b).byte a' = m.byte a' :=
  memory_get_set_other m _ _ _ fun e => h (BitVec.eq_of_toNat_eq e)

/-- A multi-byte write leaves every address outside its bytes alone. -/
theorem memory_byte_writeLE_other (n : Nat) (m : Memory) (a v x : Word)
    (h : ∀ k, k < n → x ≠ a + BitVec.ofNat 64 k) : (m.writeLE a v n).byte x = m.byte x := by
  induction n generalizing m a v with
  | zero => rfl
  | succ n ih =>
    rw [Memory.writeLE, ih]
    · exact memory_byte_set_other m a x _ (by simpa using h 0 (by omega))
    · intro k hk
      have := h (k + 1) (by omega)
      rwa [show BitVec.ofNat 64 (k + 1) = 1#64 + BitVec.ofNat 64 k by
        simp [BitVec.ofNat_add, BitVec.add_comm], ← BitVec.add_assoc] at this

theorem memory_byte_writeWord_other (m : Memory) (a v x : Word)
    (h : ∀ k, k < 8 → x ≠ a + BitVec.ofNat 64 k) : (m.writeWord a v).byte x = m.byte x :=
  memory_byte_writeLE_other 8 m a v x h

/-- A read depends on the bytes it covers only. -/
theorem memory_readLE_congr (n : Nat) (m m' : Memory) (a : Word)
    (h : ∀ k, k < n → m'.byte (a + BitVec.ofNat 64 k) = m.byte (a + BitVec.ofNat 64 k)) :
    m'.readLE a n = m.readLE a n := by
  induction n generalizing a with
  | zero => rfl
  | succ n ih =>
    have h0 : m'.byte a = m.byte a := by simpa using h 0 (by omega)
    have h1 : m'.readLE (a + 1#64) n = m.readLE (a + 1#64) n := by
      refine ih _ fun k hk => ?_
      have := h (k + 1) (by omega)
      rwa [show BitVec.ofNat 64 (k + 1) = 1#64 + BitVec.ofNat 64 k by
        simp [BitVec.ofNat_add, BitVec.add_comm], ← BitVec.add_assoc] at this
    simp only [Memory.readLE, h0, h1]

/-- The byte at the base of a write, when the write does not come round to it again. -/
theorem memory_byte_writeLE_base (n : Nat) (m : Memory) (a v : Word) (hn : n < 2 ^ 64) :
    (m.writeLE a v (n + 1)).byte a = some (v.setWidth 8) := by
  rw [Memory.writeLE, memory_byte_writeLE_other]
  · exact memory_byte_set_same m a _
  · intro k hk e
    have := congrArg BitVec.toNat e
    simp at this
    have := a.isLt
    omega

/-- Reading back the bytes just written gives the value's low bytes (R61, R65, R72). -/
theorem memory_readLE_writeLE_same (n : Nat) (m : Memory) (a v : Word) (hn : n ≤ 8) :
    (m.writeLE a v n).readLE a n = some (v &&& BitVec.ofNat 64 (2 ^ (8 * n) - 1)) := by
  induction n generalizing m a v with
  | zero => simp [Memory.readLE]
  | succ n ih =>
    have hb := memory_byte_writeLE_base n m a v (by omega)
    have hr : (m.writeLE a v (n + 1)).readLE (a + 1#64) n
        = some ((v >>> 8) &&& BitVec.ofNat 64 (2 ^ (8 * n) - 1)) := by
      rw [Memory.writeLE]
      exact ih _ _ _ (by omega)
    simp only [Memory.readLE, hb, hr, Option.some.injEq]
    apply BitVec.eq_of_getLsbD_eq
    intro i hi
    simp only [BitVec.getLsbD_or, BitVec.getLsbD_setWidth, BitVec.getLsbD_shiftLeft, BitVec.getLsbD_and,
      BitVec.getLsbD_ushiftRight, BitVec.getLsbD_ofNat, Nat.testBit_two_pow_sub_one]
    by_cases h8 : i < 8
    · have : i < 8 * (n + 1) := by omega
      simp [h8, hi, this]
    · have e : 8 + (i - 8) = i := by omega
      by_cases hn' : i - 8 < 8 * n
      · have : i < 8 * (n + 1) := by omega
        have : i - 8 < 64 := by omega
        simp [*]
      · have : ¬ i < 8 * (n + 1) := by omega
        simp [h8, hi, hn', this]

/-- After a write of a word, a read of the same address returns it (R61, R72). -/
theorem memory_readWord_writeWord_same (m : Memory) (a v : Word) : (m.writeWord a v).readWord a = some v := by
  have := memory_readLE_writeLE_same 8 m a v (by omega)
  rw [Memory.readWord, Memory.writeWord, this]
  congr 1
  exact BitVec.and_allOnes (x := v)

end Sys2Proof.Machine
end

