-- ==== Sys2Proof/Laws/State.lean ====
section
/-! SUPPORT. One lemma per field and per update of the state, each true by rfl, so that no proof unfolds an update. -/

namespace Sys2Proof.Machine

variable (s : State)

/-! ## beginOp -/

@[simp] theorem State.beginOp_cfg : (s.beginOp).cfg = s.cfg := rfl
@[simp] theorem State.beginOp_fetchMode : (s.beginOp).fetchMode = s.fetchMode := rfl
@[simp] theorem State.beginOp_dataMode : (s.beginOp).dataMode = s.dataMode := rfl
@[simp] theorem State.beginOp_fi : (s.beginOp).fi = s.fi := rfl
@[simp] theorem State.beginOp_regs : (s.beginOp).regs = s.regs := rfl
@[simp] theorem State.beginOp_tval : (s.beginOp).tval = s.tval := rfl
@[simp] theorem State.beginOp_mem : (s.beginOp).mem = s.mem := rfl
@[simp] theorem State.beginOp_inputs : (s.beginOp).inputs = s.inputs := rfl
@[simp] theorem State.beginOp_out : (s.beginOp).out = Outputs.none := rfl

/-! ## dropInput -/

@[simp] theorem State.dropInput_cfg : (s.dropInput).cfg = s.cfg := rfl
@[simp] theorem State.dropInput_fetchMode : (s.dropInput).fetchMode = s.fetchMode := rfl
@[simp] theorem State.dropInput_dataMode : (s.dropInput).dataMode = s.dataMode := rfl
@[simp] theorem State.dropInput_fi : (s.dropInput).fi = s.fi := rfl
@[simp] theorem State.dropInput_regs : (s.dropInput).regs = s.regs := rfl
@[simp] theorem State.dropInput_tval : (s.dropInput).tval = s.tval := rfl
@[simp] theorem State.dropInput_mem : (s.dropInput).mem = s.mem := rfl
@[simp] theorem State.dropInput_inputs : (s.dropInput).inputs = s.inputs.tail := rfl
@[simp] theorem State.dropInput_out : (s.dropInput).out = s.out := rfl

/-! ## logBus -/

@[simp] theorem State.logBus_cfg (b : BusAccess) : (s.logBus b).cfg = s.cfg := rfl
@[simp] theorem State.logBus_fetchMode (b : BusAccess) : (s.logBus b).fetchMode = s.fetchMode := rfl
@[simp] theorem State.logBus_dataMode (b : BusAccess) : (s.logBus b).dataMode = s.dataMode := rfl
@[simp] theorem State.logBus_fi (b : BusAccess) : (s.logBus b).fi = s.fi := rfl
@[simp] theorem State.logBus_regs (b : BusAccess) : (s.logBus b).regs = s.regs := rfl
@[simp] theorem State.logBus_tval (b : BusAccess) : (s.logBus b).tval = s.tval := rfl
@[simp] theorem State.logBus_mem (b : BusAccess) : (s.logBus b).mem = s.mem := rfl
@[simp] theorem State.logBus_inputs (b : BusAccess) : (s.logBus b).inputs = s.inputs := rfl
@[simp] theorem State.logBus_out_resp (b : BusAccess) : (s.logBus b).out.resp = s.out.resp := rfl
@[simp] theorem State.logBus_out_exc (b : BusAccess) : (s.logBus b).out.exc = s.out.exc := rfl
@[simp] theorem State.logBus_out_bus (b : BusAccess) : (s.logBus b).out.bus = s.out.bus ++ [b] := rfl
@[simp] theorem State.logBus_out_warn (b : BusAccess) : (s.logBus b).out.warn = s.out.warn := rfl

/-! ## setMem -/

@[simp] theorem State.setMem_cfg (m : Memory) : (s.setMem m).cfg = s.cfg := rfl
@[simp] theorem State.setMem_fetchMode (m : Memory) : (s.setMem m).fetchMode = s.fetchMode := rfl
@[simp] theorem State.setMem_dataMode (m : Memory) : (s.setMem m).dataMode = s.dataMode := rfl
@[simp] theorem State.setMem_fi (m : Memory) : (s.setMem m).fi = s.fi := rfl
@[simp] theorem State.setMem_regs (m : Memory) : (s.setMem m).regs = s.regs := rfl
@[simp] theorem State.setMem_tval (m : Memory) : (s.setMem m).tval = s.tval := rfl
@[simp] theorem State.setMem_mem (m : Memory) : (s.setMem m).mem = m := rfl
@[simp] theorem State.setMem_inputs (m : Memory) : (s.setMem m).inputs = s.inputs := rfl
@[simp] theorem State.setMem_out (m : Memory) : (s.setMem m).out = s.out := rfl

/-! ## setRegs -/

@[simp] theorem State.setRegs_cfg (r : CoreRegs) : (s.setRegs r).cfg = s.cfg := rfl
@[simp] theorem State.setRegs_fetchMode (r : CoreRegs) : (s.setRegs r).fetchMode = s.fetchMode := rfl
@[simp] theorem State.setRegs_dataMode (r : CoreRegs) : (s.setRegs r).dataMode = s.dataMode := rfl
@[simp] theorem State.setRegs_fi (r : CoreRegs) : (s.setRegs r).fi = s.fi := rfl
@[simp] theorem State.setRegs_regs (r : CoreRegs) : (s.setRegs r).regs = r := rfl
@[simp] theorem State.setRegs_tval (r : CoreRegs) : (s.setRegs r).tval = s.tval := rfl
@[simp] theorem State.setRegs_mem (r : CoreRegs) : (s.setRegs r).mem = s.mem := rfl
@[simp] theorem State.setRegs_inputs (r : CoreRegs) : (s.setRegs r).inputs = s.inputs := rfl
@[simp] theorem State.setRegs_out (r : CoreRegs) : (s.setRegs r).out = s.out := rfl

/-! ## setModes -/

@[simp] theorem State.setModes_cfg (f d : MmuMode) : (s.setModes f d).cfg = s.cfg := rfl
@[simp] theorem State.setModes_fetchMode (f d : MmuMode) : (s.setModes f d).fetchMode = f := rfl
@[simp] theorem State.setModes_dataMode (f d : MmuMode) : (s.setModes f d).dataMode = d := rfl
@[simp] theorem State.setModes_fi (f d : MmuMode) : (s.setModes f d).fi = s.fi := rfl
@[simp] theorem State.setModes_regs (f d : MmuMode) : (s.setModes f d).regs = s.regs := rfl
@[simp] theorem State.setModes_tval (f d : MmuMode) : (s.setModes f d).tval = s.tval := rfl
@[simp] theorem State.setModes_mem (f d : MmuMode) : (s.setModes f d).mem = s.mem := rfl
@[simp] theorem State.setModes_inputs (f d : MmuMode) : (s.setModes f d).inputs = s.inputs := rfl
@[simp] theorem State.setModes_out (f d : MmuMode) : (s.setModes f d).out = s.out := rfl

/-! ## setFi -/

@[simp] theorem State.setFi_cfg (f : FiCells) : (s.setFi f).cfg = s.cfg := rfl
@[simp] theorem State.setFi_fetchMode (f : FiCells) : (s.setFi f).fetchMode = s.fetchMode := rfl
@[simp] theorem State.setFi_dataMode (f : FiCells) : (s.setFi f).dataMode = s.dataMode := rfl
@[simp] theorem State.setFi_fi (f : FiCells) : (s.setFi f).fi = f := rfl
@[simp] theorem State.setFi_regs (f : FiCells) : (s.setFi f).regs = s.regs := rfl
@[simp] theorem State.setFi_tval (f : FiCells) : (s.setFi f).tval = s.tval := rfl
@[simp] theorem State.setFi_mem (f : FiCells) : (s.setFi f).mem = s.mem := rfl
@[simp] theorem State.setFi_inputs (f : FiCells) : (s.setFi f).inputs = s.inputs := rfl
@[simp] theorem State.setFi_out (f : FiCells) : (s.setFi f).out = s.out := rfl

/-! ## setWarn -/

@[simp] theorem State.setWarn_cfg (w : Bool) : (s.setWarn w).cfg = s.cfg := rfl
@[simp] theorem State.setWarn_fetchMode (w : Bool) : (s.setWarn w).fetchMode = s.fetchMode := rfl
@[simp] theorem State.setWarn_dataMode (w : Bool) : (s.setWarn w).dataMode = s.dataMode := rfl
@[simp] theorem State.setWarn_fi (w : Bool) : (s.setWarn w).fi = s.fi := rfl
@[simp] theorem State.setWarn_regs (w : Bool) : (s.setWarn w).regs = s.regs := rfl
@[simp] theorem State.setWarn_tval (w : Bool) : (s.setWarn w).tval = s.tval := rfl
@[simp] theorem State.setWarn_mem (w : Bool) : (s.setWarn w).mem = s.mem := rfl
@[simp] theorem State.setWarn_inputs (w : Bool) : (s.setWarn w).inputs = s.inputs := rfl
@[simp] theorem State.setWarn_out_resp (w : Bool) : (s.setWarn w).out.resp = s.out.resp := rfl
@[simp] theorem State.setWarn_out_exc (w : Bool) : (s.setWarn w).out.exc = s.out.exc := rfl
@[simp] theorem State.setWarn_out_bus (w : Bool) : (s.setWarn w).out.bus = s.out.bus := rfl
@[simp] theorem State.setWarn_out_warn (w : Bool) : (s.setWarn w).out.warn = w := rfl

/-! ## respond -/

@[simp] theorem State.respond_cfg (r : Response) : (s.respond r).cfg = s.cfg := rfl
@[simp] theorem State.respond_fetchMode (r : Response) : (s.respond r).fetchMode = s.fetchMode := rfl
@[simp] theorem State.respond_dataMode (r : Response) : (s.respond r).dataMode = s.dataMode := rfl
@[simp] theorem State.respond_fi (r : Response) : (s.respond r).fi = s.fi := rfl
@[simp] theorem State.respond_regs (r : Response) : (s.respond r).regs = s.regs := rfl
@[simp] theorem State.respond_tval (r : Response) : (s.respond r).tval = s.tval := rfl
@[simp] theorem State.respond_mem (r : Response) : (s.respond r).mem = s.mem := rfl
@[simp] theorem State.respond_inputs (r : Response) : (s.respond r).inputs = s.inputs := rfl
@[simp] theorem State.respond_out_resp (r : Response) : (s.respond r).out.resp = some r := rfl
@[simp] theorem State.respond_out_exc (r : Response) : (s.respond r).out.exc = s.out.exc := rfl
@[simp] theorem State.respond_out_bus (r : Response) : (s.respond r).out.bus = s.out.bus := rfl
@[simp] theorem State.respond_out_warn (r : Response) : (s.respond r).out.warn = s.out.warn := rfl

/-! ## raise -/

@[simp] theorem State.raise_cfg (k : FaultKind) (v : Word) : (s.raise k v).cfg = s.cfg := rfl
@[simp] theorem State.raise_fetchMode (k : FaultKind) (v : Word) : (s.raise k v).fetchMode = s.fetchMode := rfl
@[simp] theorem State.raise_dataMode (k : FaultKind) (v : Word) : (s.raise k v).dataMode = s.dataMode := rfl
@[simp] theorem State.raise_fi (k : FaultKind) (v : Word) : (s.raise k v).fi = s.fi := rfl
@[simp] theorem State.raise_regs (k : FaultKind) (v : Word) : (s.raise k v).regs = s.regs := rfl
@[simp] theorem State.raise_tval (k : FaultKind) (v : Word) : (s.raise k v).tval = v := rfl
@[simp] theorem State.raise_mem (k : FaultKind) (v : Word) : (s.raise k v).mem = s.mem := rfl
@[simp] theorem State.raise_inputs (k : FaultKind) (v : Word) : (s.raise k v).inputs = s.inputs := rfl
@[simp] theorem State.raise_out_resp (k : FaultKind) (v : Word) : (s.raise k v).out.resp = some faultResponse := rfl
@[simp] theorem State.raise_out_exc (k : FaultKind) (v : Word) : (s.raise k v).out.exc = some { kind := k, tval := v } := rfl
@[simp] theorem State.raise_out_bus (k : FaultKind) (v : Word) : (s.raise k v).out.bus = s.out.bus := rfl
@[simp] theorem State.raise_out_warn (k : FaultKind) (v : Word) : (s.raise k v).out.warn = s.out.warn := rfl

/-! ## applyReset -/

@[simp] theorem State.applyReset_cfg : (s.applyReset).cfg = s.cfg := rfl
@[simp] theorem State.applyReset_fetchMode : (s.applyReset).fetchMode = .direct := rfl
@[simp] theorem State.applyReset_dataMode : (s.applyReset).dataMode = .direct := rfl
@[simp] theorem State.applyReset_fi : (s.applyReset).fi = { fetch := fiCellReset, load := fiCellReset, store := fiCellReset } := rfl
@[simp] theorem State.applyReset_regs : (s.applyReset).regs = s.regs := rfl
@[simp] theorem State.applyReset_tval : (s.applyReset).tval = s.tval := rfl
@[simp] theorem State.applyReset_mem : (s.applyReset).mem = s.mem := rfl
@[simp] theorem State.applyReset_inputs : (s.applyReset).inputs = s.inputs := rfl
@[simp] theorem State.applyReset_out : (s.applyReset).out = Outputs.none := rfl

/-! ## presentNext -/

@[simp] theorem State.presentNext_cfg (r : Request) : (s.presentNext r).cfg = s.cfg := rfl
@[simp] theorem State.presentNext_fetchMode (r : Request) : (s.presentNext r).fetchMode = s.fetchMode := rfl
@[simp] theorem State.presentNext_dataMode (r : Request) : (s.presentNext r).dataMode = s.dataMode := rfl
@[simp] theorem State.presentNext_fi (r : Request) : (s.presentNext r).fi = s.fi := rfl
@[simp] theorem State.presentNext_regs (r : Request) : (s.presentNext r).regs = s.regs := rfl
@[simp] theorem State.presentNext_tval (r : Request) : (s.presentNext r).tval = s.tval := rfl
@[simp] theorem State.presentNext_mem (r : Request) : (s.presentNext r).mem = s.mem := rfl
@[simp] theorem State.presentNext_inputs (r : Request) : (s.presentNext r).inputs = .request r :: s.inputs := rfl
@[simp] theorem State.presentNext_out (r : Request) : (s.presentNext r).out = s.out := rfl

/-! ## The empty outputs -/

@[simp] theorem outputsNone_resp : Outputs.none.resp = none := rfl
@[simp] theorem outputsNone_exc : Outputs.none.exc = none := rfl
@[simp] theorem outputsNone_bus : Outputs.none.bus = [] := rfl
@[simp] theorem outputsNone_warn : Outputs.none.warn = false := rfl

/-- Starting an operation forgets the outputs of the one before. -/
@[simp] theorem State.beginOp_beginOp : s.beginOp.beginOp = s.beginOp := rfl
@[simp] theorem State.respond_beginOp (r : Response) : (s.respond r).beginOp = s.beginOp := rfl
@[simp] theorem State.logBus_beginOp (b : BusAccess) : (s.logBus b).beginOp = s.beginOp := rfl
@[simp] theorem State.setWarn_beginOp (w : Bool) : (s.setWarn w).beginOp = s.beginOp := rfl

/-! ## The injector's cells -/

@[simp] theorem fiCells_get_put (f : FiCells) (cls : AccessClass) (c : FiCell) : (f.put cls c).get cls = c := by
  cases cls <;> rfl

/-- Putting one class's cell leaves the others' alone (R227). -/
theorem fiCells_get_put_other (f : FiCells) (cls cls' : AccessClass) (c : FiCell) (h : cls' ≠ cls) :
    (f.put cls c).get cls' = f.get cls' := by
  cases cls <;> cases cls' <;> first | rfl | exact absurd rfl h

/-! ## The consumed registers -/

/-- A table base is a multiple of 4096 (R36). -/
theorem tableBase_aligned (v : Word) : (tableBase v).toNat % 4096 = 0 := by
  simp only [tableBase, BitVec.toNat_append, BitVec.toNat_ofNat, Nat.shiftLeft_eq, Nat.or_zero,
    Nat.zero_mod]
  omega

/-- The core changes no array's length (R34). -/
@[simp] theorem writeReg_pmp_length (c : CoreRegs) (r : CtrlReg) (v : Word) : (writeReg c r v).pmp.length = c.pmp.length := by
  cases r <;> simp [writeReg, modifyAt]

@[simp] theorem writeReg_spmp_length (c : CoreRegs) (r : CtrlReg) (v : Word) :
    (writeReg c r v).spmp.length = c.spmp.length := by
  cases r <;> simp [writeReg, modifyAt]

/-- Whatever the core writes, an entry's table base is one that stood in the array or an aligned one (R36). -/
theorem writeReg_tbase {c : CoreRegs} {r : CtrlReg} {v : Word} {e : PmpEntry} (h : e ∈ (writeReg c r v).pmp) :
    (∃ d ∈ c.pmp, e.tbase = d.tbase) ∨ e.tbase = tableBase v := by
  cases r <;> simp only [writeReg, modifyAt] at h
  case pmpcfg | pmpaddr | pmptbase =>
    obtain ⟨j, hj⟩ := List.mem_iff_getElem?.1 h
    rw [List.getElem?_modify, Option.map_eq_map, Option.map_eq_some_iff] at hj
    obtain ⟨d, hd, he⟩ := hj
    have hm := List.mem_of_getElem? hd
    subst he
    split
    · first | exact .inl ⟨d, hm, rfl⟩ | exact .inr rfl
    · exact .inl ⟨d, hm, rfl⟩
  all_goals exact .inl ⟨e, h, rfl⟩

end Sys2Proof.Machine
end

