-- ==== Sys2Proof/Laws/Ops.lean ====
section
/-! SUPPORT. What the shared operations can do, said once each: the outcomes (R12), serving a request (R94, R111), the
memory port (R60, R61), the evaluator (R170), the injector (R226), the validator (R130). Later proofs cite these
lemmas; they do not unfold the operations. -/

namespace Sys2Proof.Machine

/-! ## Outcomes -/

section Outcomes
variable {α β : Type}

@[simp] theorem andThen_ok (a : α) (s : State) (f : α → State → Res β) : (Res.ok a s).andThen f = f a s := rfl
@[simp] theorem andThen_raised (s : State) (f : α → State → Res β) : (Res.raised s).andThen f = .raised s := rfl
@[simp] theorem andThen_abort (r : Refusal) (f : α → State → Res β) : (Res.abort r).andThen f = .abort r := rfl
@[simp] theorem andThen_stuck (e : Fault) (f : α → State → Res β) : (Res.stuck e).andThen f = .stuck e := rfl

@[simp] theorem ofExcept_ok (a : α) (s : State) : Res.ofExcept (.ok a) s = .ok a s := rfl
@[simp] theorem ofExcept_error (r : Refusal) (s : State) : (Res.ofExcept (.error r) s : Res α) = .abort r := rfl

theorem andThen_eq_ok {x : Res α} {f : α → State → Res β} {b : β} {t : State} :
    x.andThen f = .ok b t ↔ ∃ a s, x = .ok a s ∧ f a s = .ok b t := by
  cases x <;> simp [Res.andThen]

theorem andThen_eq_raised {x : Res α} {f : α → State → Res β} {t : State} :
    x.andThen f = .raised t ↔ x = .raised t ∨ ∃ a s, x = .ok a s ∧ f a s = .raised t := by
  cases x <;> simp [Res.andThen]

theorem ofExcept_eq_ok {x : Except Refusal α} {s t : State} {a : α} :
    Res.ofExcept x s = .ok a t ↔ x = .ok a ∧ t = s := by
  cases x <;> simp [Res.ofExcept, eq_comm]

theorem ofExcept_ne_raised {x : Except Refusal α} {s t : State} : Res.ofExcept x s ≠ .raised t := by
  cases x <;> simp [Res.ofExcept]

end Outcomes

/-- The two ways an operation ends in a next state: `Ok`, which drives the response port, or a raise. -/
theorem finish_eq_next {x : Res Response} {t : State} :
    finish x = .next t ↔ (∃ r s, x = .ok r s ∧ t = s.respond r) ∨ x = .raised t := by
  cases x <;> simp [finish, eq_comm]

@[simp] theorem finish_ok (r : Response) (s : State) : finish (.ok r s) = .next (s.respond r) := rfl
@[simp] theorem finish_raised (s : State) : finish (.raised s) = .next s := rfl
@[simp] theorem finish_abort (r : Refusal) : finish (.abort r) = .refused r := rfl
@[simp] theorem finish_stuck (f : Fault) : finish (.stuck f) = .fault f := rfl

/-- A well-formed request runs on cleared outputs. -/
theorem serve_of_wellFormed {w : Bool} (h : w = true) (s : State) (body : State → Res Response) :
    serve w s body = finish (body s.beginOp) := by
  simp [serve, h]

/-- An ill-formed request is `Abort(BadRequest)` (R111). -/
theorem serve_of_illFormed {w : Bool} (h : w = false) (s : State) (body : State → Res Response) :
    serve w s body = .refused .badRequest := by
  simp [serve, h]

theorem serve_eq_next {w : Bool} {s t : State} {body : State → Res Response} :
    serve w s body = .next t ↔
      w = true ∧ ((∃ r u, body s.beginOp = .ok r u ∧ t = u.respond r) ∨ body s.beginOp = .raised t) := by
  cases w <;> simp [serve, finish_eq_next]

/-! ## The memory port -/

/-- A read of a populated address answers the value there and records the call; nothing else changes (R60). -/
theorem memRead_eq_ok {s t : State} {a v ov : Word} {tag : BusTag} {m : Mode} :
    memRead s a tag m ov = .ok v t ↔
      s.mem.readWord a = some v ∧
        t = s.logBus { kind := .read, addr := a, bytes := 8, tag := tag, mode := m, origva := ov, value := v } := by
  unfold memRead
  split <;> rename_i h <;> simp only [h, Res.ok.injEq, reduceCtorEq, Option.some.injEq, false_and]
  exact ⟨fun ⟨e, h⟩ => by subst e; exact ⟨rfl, h.symm⟩, fun ⟨e, h⟩ => by subst e; exact ⟨rfl, h.symm⟩⟩

theorem memRead_ne_raised {s t : State} {a ov : Word} {tag : BusTag} {m : Mode} : memRead s a tag m ov ≠ .raised t := by
  unfold memRead; split <;> simp

/-- A read of an address with no memory behind it is stuck, never zero (R64). -/
theorem memRead_unpopulated {s : State} {a ov : Word} {tag : BusTag} {m : Mode} (h : s.mem.readWord a = none) :
    memRead s a tag m ov = .stuck (.unpopulatedRead a) := by
  simp [memRead, h]

/-! ## The validator -/

theorem validate_eq_ok {cls : AccessClass} {amo : Bool} {va len : Word} {s t : State} {u : Unit} :
    validate cls amo va len s = .ok u t ↔
      rangeFault s cls va = false ∧ alignFault s.cfg cls va len = false ∧ t = s := by
  unfold validate
  cases rangeFault s cls va <;> cases alignFault s.cfg cls va len <;> simp [eq_comm]

theorem validate_eq_raised {cls : AccessClass} {amo : Bool} {va len : Word} {s t : State} :
    validate cls amo va len s = .raised t ↔
      (rangeFault s cls va = true ∧ t = s.raise (pfKind cls amo) va) ∨
        (rangeFault s cls va = false ∧ alignFault s.cfg cls va len = true ∧
          t = s.raise (misalignedKind cls amo) va) := by
  unfold validate
  cases rangeFault s cls va <;> cases alignFault s.cfg cls va len <;> simp [eq_comm]

/-! ## The evaluator -/

theorem checkPerm_eq_ok {cls : AccessClass} {amo sok : Bool} {va pte : Word} {s t : State} {u : Unit} :
    checkPerm cls amo sok va pte s = .ok u t ↔
      ∃ mode, effMode s.regs cls = .ok mode ∧ mode ≠ .machine ∧
        permOk s.cfg s.regs mode sok cls pte = true ∧ t = s := by
  simp only [checkPerm, andThen_eq_ok, ofExcept_eq_ok]
  constructor
  · rintro ⟨mode, s', ⟨he, rfl⟩, h⟩
    refine ⟨mode, he, ?_⟩
    split at h
    · simp at h
    · split at h
      · simp at h; exact ⟨by assumption, by assumption, h.symm⟩
      · simp at h
  · rintro ⟨mode, he, hm, hp, rfl⟩
    exact ⟨mode, t, ⟨he, rfl⟩, by simp [hm, hp]⟩

theorem checkPerm_eq_raised {cls : AccessClass} {amo sok : Bool} {va pte : Word} {s t : State} :
    checkPerm cls amo sok va pte s = .raised t ↔
      ∃ mode, effMode s.regs cls = .ok mode ∧ mode ≠ .machine ∧
        permOk s.cfg s.regs mode sok cls pte = false ∧ t = s.raise (pfKind cls amo) va := by
  simp only [checkPerm, andThen_eq_raised, ofExcept_eq_ok]
  constructor
  · rintro (h | ⟨mode, s', ⟨he, rfl⟩, h⟩)
    · exact absurd h ofExcept_ne_raised
    · refine ⟨mode, he, ?_⟩
      split at h
      · simp at h
      · split at h
        · simp at h
        · simp at h; exact ⟨by assumption, by simpa using ‹¬ _ = true›, h.symm⟩
  · rintro ⟨mode, he, hm, hp, rfl⟩
    exact .inr ⟨mode, s, ⟨he, rfl⟩, by simp [hm, hp]⟩

/-- With `structurallyOk` = 0 nothing is permitted (R175). -/
@[simp] theorem permOk_not_sok (c : Config) (r : CoreRegs) (m : Mode) (cls : AccessClass) (pte : Word) :
    permOk c r m false cls pte = false := by
  simp [permOk]

/-- The fault path raises the class's page fault with the request's address (R160). -/
theorem walkFault_eq {α : Type} {cls : AccessClass} {amo : Bool} {va pte : Word} {s : State} {mode : Mode}
    (he : effMode s.regs cls = .ok mode) (hm : mode ≠ .machine) :
    (walkFault cls amo va pte s : Res α) = .raised (s.raise (pfKind cls amo) va) := by
  have : checkPerm cls amo false va pte s = .raised (s.raise (pfKind cls amo) va) :=
    checkPerm_eq_raised.2 ⟨mode, he, hm, by simp, rfl⟩
  simp [walkFault, this]

theorem walkFault_ne_ok {α : Type} {cls : AccessClass} {amo : Bool} {va pte : Word} {s t : State} {a : α} :
    walkFault cls amo va pte s ≠ .ok a t := by
  unfold walkFault
  intro h
  obtain ⟨_, _, _, h⟩ := andThen_eq_ok.1 h
  simp at h

theorem walkFault_eq_raised {α : Type} {cls : AccessClass} {amo : Bool} {va pte : Word} {s t : State}
    (h : (walkFault cls amo va pte s : Res α) = .raised t) :
    t = s.raise (pfKind cls amo) va := by
  unfold walkFault at h
  rcases andThen_eq_raised.1 h with h | ⟨_, _, _, h⟩
  · obtain ⟨_, _, _, _, h⟩ := checkPerm_eq_raised.1 h
    exact h
  · simp at h

/-! ## The injector -/

/-- The injector passes: the guide does not name this class's page fault, and nothing changes; or it does, the count
comes to `FI_LIMIT`, and the class's cell alone changes (R226, R227). -/
theorem fiConsult_eq_ok {cls : AccessClass} {va : Word} {s t : State} {u : Unit} :
    fiConsult cls va s = .ok u t ↔
      (guideNames s.cfg s.regs.guide cls = false ∧ t = s) ∨
        (guideNames s.cfg s.regs.guide cls = true ∧ ((s.fi.get cls).considered va).count = fiLimit ∧
          t = s.setFi (s.fi.put cls ((s.fi.get cls).considered va))) := by
  unfold fiConsult
  cases guideNames s.cfg s.regs.guide cls with
  | false => simp [eq_comm]
  | true =>
    by_cases h : ((s.fi.get cls).considered va).count = fiLimit <;> simp [h, eq_comm]

/-- The injector raises the class's page fault with the reference's trap value (R229). -/
theorem fiConsult_eq_raised {cls : AccessClass} {va : Word} {s t : State} :
    fiConsult cls va s = .raised t ↔
      guideNames s.cfg s.regs.guide cls = true ∧ ((s.fi.get cls).considered va).count ≠ fiLimit ∧
        t = ((s.setFi (s.fi.put cls ((s.fi.get cls).considered va))).setWarn
              (mismatchWarned va s.regs.guide.tval cls)).raise (pfCode cls) s.regs.guide.tval := by
  unfold fiConsult
  cases guideNames s.cfg s.regs.guide cls with
  | false => simp
  | true =>
    by_cases h : ((s.fi.get cls).considered va).count = fiLimit <;> simp [h, eq_comm]

/-- A considered cell holds the address and a count of 1 to 6 (R227). -/
theorem considered_count_le (c : FiCell) (va : Word) : (c.considered va).count ≤ 6#3 := by
  simp only [FiCell.considered, BitVec.le_def, BitVec.toNat_ofNat]
  omega

@[simp] theorem considered_last (c : FiCell) (va : Word) : (c.considered va).last = va := rfl

end Sys2Proof.Machine
end

