-- ==== Sys2Proof/Laws/Walker.lean ====
section
/-! SUPPORT. What the walker, the region checkers and the pipeline can do, said once each. A walk and a region check
change nothing but the record of the memory port; `logAll` names that change. -/

namespace Sys2Proof.Machine

/-- The state after a list of calls on the memory port. -/
def State.logAll (s : State) (l : List BusAccess) : State := { s with out := { s.out with bus := s.out.bus ++ l } }

section LogAll
variable (s : State) (l : List BusAccess)

@[simp] theorem logAll_cfg : (s.logAll l).cfg = s.cfg := rfl
@[simp] theorem logAll_fetchMode : (s.logAll l).fetchMode = s.fetchMode := rfl
@[simp] theorem logAll_dataMode : (s.logAll l).dataMode = s.dataMode := rfl
@[simp] theorem logAll_fi : (s.logAll l).fi = s.fi := rfl
@[simp] theorem logAll_regs : (s.logAll l).regs = s.regs := rfl
@[simp] theorem logAll_tval : (s.logAll l).tval = s.tval := rfl
@[simp] theorem logAll_mem : (s.logAll l).mem = s.mem := rfl
@[simp] theorem logAll_inputs : (s.logAll l).inputs = s.inputs := rfl
@[simp] theorem logAll_out_resp : (s.logAll l).out.resp = s.out.resp := rfl
@[simp] theorem logAll_out_exc : (s.logAll l).out.exc = s.out.exc := rfl
@[simp] theorem logAll_out_warn : (s.logAll l).out.warn = s.out.warn := rfl
@[simp] theorem logAll_out_bus : (s.logAll l).out.bus = s.out.bus ++ l := rfl
@[simp] theorem logAll_nil : s.logAll [] = s := by simp [State.logAll]
@[simp] theorem logAll_logAll (k : List BusAccess) : (s.logAll l).logAll k = s.logAll (l ++ k) := by
  simp [State.logAll]
@[simp] theorem logAll_beginOp : (s.logAll l).beginOp = s.beginOp := rfl
theorem logBus_eq_logAll (b : BusAccess) : s.logBus b = s.logAll [b] := rfl

end LogAll

/-- The record of one page-table read (R62, R63). -/
def pteRead (cls : AccessClass) (va a p : Word) : BusAccess :=
  { kind := .read, addr := a, bytes := 8, tag := ptwTag cls, mode := .supervisor, origva := va, value := p }

/-- One level: the entry is read, and it decides. -/
theorem walkLevel_read {cls : AccessClass} {va base : Word} {level : Nat} {next : Word → State → Res WalkEnd} {s : State}
    {p : Word} (h : s.mem.readWord (pteAddr base va level) = some p) :
    walkLevel cls va base level next s =
      (match pteKind p with
        | .absent => .ok (.bad p) (s.logAll [pteRead cls va (pteAddr base va level) p])
        | .malformed => .ok (.bad p) (s.logAll [pteRead cls va (pteAddr base va level) p])
        | .leaf => .ok (.leaf level (pteAddr base va level) p) (s.logAll [pteRead cls va (pteAddr base va level) p])
        | .pointer => next p (s.logAll [pteRead cls va (pteAddr base va level) p])) := by
  simp only [walkLevel, readPte, memRead, h]
  rfl

theorem walkLevel_unpopulated {cls : AccessClass} {va base : Word} {level : Nat} {next : Word → State → Res WalkEnd}
    {s : State} (h : s.mem.readWord (pteAddr base va level) = none) :
    walkLevel cls va base level next s = .stuck (.unpopulatedRead (pteAddr base va level)) := by
  simp [walkLevel, readPte, memRead, h]

/-- A walk never raises and never aborts: what it finds is judged by its caller. -/
theorem walk_ne_raised {cls : AccessClass} {va : Word} (level : Nat) {base : Word} {s t : State} :
    walk cls va level base s ≠ .raised t := by
  induction level generalizing base s with
  | zero =>
    simp only [walk]
    cases h : s.mem.readWord (pteAddr base va 0) with
    | none => simp [walkLevel_unpopulated h]
    | some p => rw [walkLevel_read h]; split <;> simp
  | succ n ih =>
    simp only [walk]
    cases h : s.mem.readWord (pteAddr base va (n + 1)) with
    | none => simp [walkLevel_unpopulated h]
    | some p => rw [walkLevel_read h]; split <;> simp [ih]

/-- A walk that ends has read at most one entry a level, each read the class's own, and changed nothing else; a leaf it
found was read at the address it names. -/
theorem walk_eq_ok {cls : AccessClass} {va : Word} (level : Nat) {base : Word} {s t : State} {e : WalkEnd}
    (h : walk cls va level base s = .ok e t) :
    ∃ l, t = s.logAll l ∧ 1 ≤ l.length ∧ l.length ≤ level + 1 ∧
      (∀ b ∈ l, ∃ a p, b = pteRead cls va a p ∧ s.mem.readWord a = some p) ∧
      (∀ n a p, e = .leaf n a p → n + l.length = level + 1 ∧ s.mem.readWord a = some p ∧ pteKind p = .leaf ∧
        l.getLast? = some (pteRead cls va a p)) := by
  induction level generalizing base s with
  | zero =>
    simp only [walk] at h
    cases hr : s.mem.readWord (pteAddr base va 0) with
    | none => simp [walkLevel_unpopulated hr] at h
    | some p =>
      rw [walkLevel_read hr] at h
      refine ⟨[pteRead cls va (pteAddr base va 0) p], ?_, by simp, by simp, ?_, ?_⟩
      · split at h <;> simp at h <;> exact h.2.symm
      · intro b hb
        simp only [List.mem_singleton] at hb
        exact ⟨_, _, hb, hr⟩
      · intro n a q hq
        split at h <;> simp at h <;> obtain ⟨rfl, -⟩ := h <;> simp at hq
        obtain ⟨rfl, rfl, rfl⟩ := hq
        exact ⟨by simp, hr, ‹_›, by simp⟩
  | succ n ih =>
    simp only [walk] at h
    cases hr : s.mem.readWord (pteAddr base va (n + 1)) with
    | none => simp [walkLevel_unpopulated hr] at h
    | some p =>
      rw [walkLevel_read hr] at h
      cases hk : pteKind p with
      | pointer =>
        simp only [hk] at h
        obtain ⟨l, rfl, h1, h2, h3, h4⟩ := ih h
        refine ⟨pteRead cls va (pteAddr base va (n + 1)) p :: l, by simp, by simp, by simpa using h2, ?_, ?_⟩
        · intro b hb
          rcases List.mem_cons.1 hb with rfl | hb
          · exact ⟨_, _, rfl, hr⟩
          · exact h3 b hb
        · intro k a q hq
          obtain ⟨e1, e2, e3, e4⟩ := h4 k a q hq
          refine ⟨by simp only [List.length_cons]; omega, e2, e3, ?_⟩
          cases l with
          | nil => simp at h1
          | cons x xs => rw [List.getLast?_cons_cons]; exact e4
      | absent | malformed | leaf =>
        simp only [hk, Res.ok.injEq] at h
        obtain ⟨rfl, rfl⟩ := h
        refine ⟨[pteRead cls va (pteAddr base va (n + 1)) p], rfl, by simp, by simp, ?_, ?_⟩
        · intro b hb
          simp only [List.mem_singleton] at hb
          exact ⟨_, _, hb, hr⟩
        · intro k a q hq
          first
            | (obtain ⟨rfl, rfl, rfl⟩ := WalkEnd.leaf.inj hq; exact ⟨by simp, hr, hk, by simp⟩)
            | cases hq

/-- The write-back of a leaf: nothing, or the marked entry at the leaf's own address (R158). -/
theorem markLeaf_cases (cls : AccessClass) (va addr pte : Word) (s : State) :
    (markLeaf cls va addr pte s = s ∧ ¬ (s.cfg.adPolicy = .hwUpdate ∧ pteNeedsMark pte cls = true)) ∨
      (s.cfg.adPolicy = .hwUpdate ∧ pteNeedsMark pte cls = true ∧
        markLeaf cls va addr pte s = memWrite s addr (pteMarked pte cls) .ptwWriteback .supervisor va) := by
  unfold markLeaf
  split
  · rename_i h; exact .inr ⟨h.1, h.2, rfl⟩
  · rename_i h; exact .inl ⟨rfl, h⟩

/-- What the write-back leaves alone. -/
theorem markLeaf_frame (cls : AccessClass) (va addr pte : Word) (s : State) :
    (markLeaf cls va addr pte s).cfg = s.cfg ∧ (markLeaf cls va addr pte s).regs = s.regs ∧
      (markLeaf cls va addr pte s).fetchMode = s.fetchMode ∧ (markLeaf cls va addr pte s).dataMode = s.dataMode ∧
      (markLeaf cls va addr pte s).fi = s.fi ∧ (markLeaf cls va addr pte s).tval = s.tval ∧
      (markLeaf cls va addr pte s).inputs = s.inputs ∧ (markLeaf cls va addr pte s).out.resp = s.out.resp ∧
      (markLeaf cls va addr pte s).out.exc = s.out.exc ∧ (markLeaf cls va addr pte s).out.warn = s.out.warn := by
  unfold markLeaf
  split <;> simp [memWrite]

/-- From the leaf to an `Ok`: permitted, aligned, marked if need be, passed by the injector (R150). -/
theorem leafResult_eq_ok {cls : AccessClass} {amo : Bool} {va : Word} {level : Nat} {addr pte w : Word} {s t : State}
    (h : leafResult cls amo va level addr pte s = .ok w t) :
    (∃ mode, effMode s.regs cls = .ok mode ∧ mode ≠ .machine ∧ permOk s.cfg s.regs mode true cls pte = true) ∧
      ¬ (level ≠ 0 ∧ superMisaligned (pageBase (ptePpn pte)) level = true) ∧
      w = leafBase (pageBase (ptePpn pte)) va level ||| markerOk ∧
      ∃ u, fiConsult cls va (markLeaf cls va addr pte s) = .ok u t := by
  obtain ⟨u, s', hc, h1⟩ := andThen_eq_ok.1 h
  obtain ⟨mode, he, hm, hp, rfl⟩ := checkPerm_eq_ok.1 hc
  refine ⟨⟨mode, he, hm, hp⟩, ?_⟩
  split at h1
  · exact absurd h1 walkFault_ne_ok
  · rename_i hmis
    obtain ⟨u, s'', hf, h2⟩ := andThen_eq_ok.1 h1
    simp only [Res.ok.injEq] at h2
    obtain ⟨rfl, rfl⟩ := h2
    exact ⟨hmis, rfl, u, hf⟩

/-- From the leaf to a raise: denied, misaligned (nothing written), or injected (R164). -/
theorem leafResult_eq_raised {cls : AccessClass} {amo : Bool} {va : Word} {level : Nat} {addr pte : Word} {s t : State}
    (h : leafResult cls amo va level addr pte s = .raised t) :
    t = s.raise (pfKind cls amo) va ∨ fiConsult cls va (markLeaf cls va addr pte s) = .raised t := by
  rcases andThen_eq_raised.1 h with hc | ⟨u, s', hc, h1⟩
  · obtain ⟨_, _, _, _, rfl⟩ := checkPerm_eq_raised.1 hc
    exact .inl rfl
  · obtain ⟨mode, he, hm, hp, rfl⟩ := checkPerm_eq_ok.1 hc
    split at h1
    · exact .inl (walkFault_eq_raised h1)
    · rcases andThen_eq_raised.1 h1 with hf | ⟨_, _, _, h2⟩
      · exact .inr hf
      · simp at h2

/-- `TRANSLATE` answers `Ok`: a leaf was found, and `leafResult` passed it. -/
theorem translate_eq_ok {cls : AccessClass} {amo : Bool} {va w : Word} {s t : State}
    (h : translate cls amo va s = .ok w t) :
    ∃ level addr pte u, walk cls va 2 (rootBase s.regs) s = .ok (.leaf level addr pte) u ∧
      leafResult cls amo va level addr pte u = .ok w t := by
  obtain ⟨mode, s', he, h1⟩ := andThen_eq_ok.1 h
  obtain ⟨-, rfl⟩ := ofExcept_eq_ok.1 he
  split at h1
  · simp at h1
  · split at h1
    · obtain ⟨e, u, hw, h2⟩ := andThen_eq_ok.1 h1
      cases e with
      | bad p => exact absurd h2 walkFault_ne_ok
      | leaf n a p => exact ⟨n, a, p, u, hw, h2⟩
    · simp at h1

/-- `TRANSLATE` raises: at once on a non-canonical address, after a failed walk, or from the leaf on. -/
theorem translate_eq_raised {cls : AccessClass} {amo : Bool} {va : Word} {s t : State}
    (h : translate cls amo va s = .raised t) :
    (canonical va = false ∧ t = s.raise (pfKind cls amo) va) ∨
      (∃ pte u, walk cls va 2 (rootBase s.regs) s = .ok (.bad pte) u ∧ t = u.raise (pfKind cls amo) va) ∨
      (∃ level addr pte u, walk cls va 2 (rootBase s.regs) s = .ok (.leaf level addr pte) u ∧
        leafResult cls amo va level addr pte u = .raised t) := by
  rcases andThen_eq_raised.1 h with hc | ⟨mode, s', he, h1⟩
  · exact absurd hc ofExcept_ne_raised
  · obtain ⟨-, rfl⟩ := ofExcept_eq_ok.1 he
    split at h1
    · simp at h1
    · split at h1
      · rcases andThen_eq_raised.1 h1 with hw | ⟨e, u, hw, h2⟩
        · exact absurd hw (walk_ne_raised 2)
        · cases e with
          | bad p => exact .inr (.inl ⟨p, u, hw, walkFault_eq_raised h2⟩)
          | leaf n a p => exact .inr (.inr ⟨n, a, p, u, hw, h2⟩)
      · simp only [Res.raised.injEq] at h1
        exact .inl ⟨by simpa using ‹¬ canonical va = true›, h1.symm⟩

/-! ## The region checkers -/

/-- The record of one lookup-table read (R62, R196). -/
def tableRead (a v : Word) : BusAccess :=
  { kind := .read, addr := a, bytes := 8, tag := .pmptRead, mode := .machine, origva := 0#64, value := v }

section Lookup
variable {root rbase o re le : Word} {cls : AccessClass} {s : State}

/-- A lookup that a single-level root entry answers (R196). -/
theorem pmptNibble_root (h : s.mem.readWord (root + pmptOff1 s.cfg.pmpt o * 8#64) = some re)
    (hs : pmptSingle s.cfg.pmpt re = true) :
    pmptNibble root o s =
      .ok (pmptRootNibble s.cfg.pmpt re) (s.logAll [tableRead (root + pmptOff1 s.cfg.pmpt o * 8#64) re]) := by
  simp only [pmptNibble, readPmpt, memRead, h, andThen_ok, hs, if_true]
  rfl

/-- A lookup that goes on to the leaf table (R196). -/
theorem pmptNibble_leaf (h : s.mem.readWord (root + pmptOff1 s.cfg.pmpt o * 8#64) = some re)
    (hs : pmptSingle s.cfg.pmpt re = false)
    (hl : s.mem.readWord (pmptLeafBase s.cfg.pmpt re + pmptOff0 s.cfg.pmpt o * 8#64) = some le) :
    pmptNibble root o s =
      .ok (pmptLeafNibble le (pmptPage s.cfg.pmpt o))
        (s.logAll [tableRead (root + pmptOff1 s.cfg.pmpt o * 8#64) re,
          tableRead (pmptLeafBase s.cfg.pmpt re + pmptOff0 s.cfg.pmpt o * 8#64) le]) := by
  simp only [pmptNibble, readPmpt, memRead, h, andThen_ok, hs, Bool.false_eq_true, if_false, logBus_eq_logAll, logAll_mem,
    hl, logAll_logAll]
  rfl

/-- A lookup with no memory behind its root entry is stuck there (R64). -/
theorem pmptNibble_noRoot (h : s.mem.readWord (root + pmptOff1 s.cfg.pmpt o * 8#64) = none) :
    pmptNibble root o s = .stuck (.unpopulatedRead (root + pmptOff1 s.cfg.pmpt o * 8#64)) := by
  simp only [pmptNibble, readPmpt, memRead, h, andThen_stuck]

/-- A lookup with no memory behind its leaf entry is stuck there (R64). -/
theorem pmptNibble_noLeaf (h : s.mem.readWord (root + pmptOff1 s.cfg.pmpt o * 8#64) = some re)
    (hs : pmptSingle s.cfg.pmpt re = false)
    (hl : s.mem.readWord (pmptLeafBase s.cfg.pmpt re + pmptOff0 s.cfg.pmpt o * 8#64) = none) :
    pmptNibble root o s = .stuck (.unpopulatedRead (pmptLeafBase s.cfg.pmpt re + pmptOff0 s.cfg.pmpt o * 8#64)) := by
  simp only [pmptNibble, readPmpt, memRead, h, andThen_ok, hs, Bool.false_eq_true, if_false, logBus_eq_logAll, logAll_mem,
    hl, andThen_stuck]

/-- The test points a lookup permits are passed one after the other: what follows them runs with their reads recorded (R194). -/
theorem pmptPerm_permitted (before rest : List Word)
    (h : ∀ q ∈ before, ∀ l, ∃ k, pmptPoint root rbase q cls (s.logAll l) = .ok true (s.logAll (l ++ k))) (l : List BusAccess) :
    ∃ k, pmptPerm root rbase cls (before ++ rest) (s.logAll l) = pmptPerm root rbase cls rest (s.logAll (l ++ k)) := by
  induction before generalizing l with
  | nil => exact ⟨[], by simp⟩
  | cons q qs ih =>
    obtain ⟨k, hk⟩ := h q (.head _) l
    obtain ⟨j, hj⟩ := ih (fun q hq => h q (.tail _ hq)) (l ++ k)
    exact ⟨k ++ j, by simp only [List.cons_append, pmptPerm, hk, andThen_ok, if_true, hj, List.append_assoc]⟩

end Lookup

/-- A table lookup changes nothing but the record of the memory port, and does not raise (R194, R196). -/
theorem pmptPoint_cases {root rbase cur : Word} {cls : AccessClass} {s : State} :
    (∃ b l, pmptPoint root rbase cur cls s = .ok b (s.logAll l)) ∨
      ∃ a, pmptPoint root rbase cur cls s = .stuck (.unpopulatedRead a) := by
  simp only [pmptPoint, pmptNibble, readPmpt]
  cases h1 : s.mem.readWord (root + pmptOff1 s.cfg.pmpt (cur - rbase) * 8#64) with
  | none => exact .inr ⟨_, by rw [memRead_unpopulated h1]; rfl⟩
  | some re =>
    rw [memRead_eq_ok.2 ⟨h1, rfl⟩, andThen_ok]
    split
    · exact .inl ⟨_, _, rfl⟩
    · cases h2 : s.mem.readWord (pmptLeafBase s.cfg.pmpt re + pmptOff0 s.cfg.pmpt (cur - rbase) * 8#64) with
      | none => exact .inr ⟨_, by rw [memRead_unpopulated (by exact h2)]; rfl⟩
      | some le =>
        rw [memRead_eq_ok.2 ⟨by exact h2, rfl⟩]
        exact .inl ⟨_, _, by simp only [andThen_ok, logBus_eq_logAll, logAll_logAll]; rfl⟩

theorem pmptPerm_cases {root rbase : Word} {cls : AccessClass} (pts : List Word) {s : State} :
    (∃ b l, pmptPerm root rbase cls pts s = .ok b (s.logAll l)) ∨
      ∃ a, pmptPerm root rbase cls pts s = .stuck (.unpopulatedRead a) := by
  induction pts generalizing s with
  | nil => exact .inl ⟨true, [], by simp [pmptPerm]⟩
  | cons p rest ih =>
    simp only [pmptPerm]
    rcases pmptPoint_cases (root := root) (rbase := rbase) (cur := p) (cls := cls) (s := s) with ⟨b, l, h⟩ | ⟨a, h⟩
    · rw [h]
      cases b with
      | false => exact .inl ⟨false, l, rfl⟩
      | true =>
        rcases ih (s := s.logAll l) with ⟨b, k, h⟩ | ⟨a, h⟩
        · exact .inl ⟨b, l ++ k, by simp [h]⟩
        · exact .inr ⟨a, by simp [h]⟩
    · exact .inr ⟨a, by simp [h]⟩

/-- `PMP_CHECK` answers a Boolean and changes nothing but the record of the memory port, or is stuck at a table read (R180:
"never raises a fault"). -/
theorem pmpCheck_cases (cls : AccessClass) (mode : Mode) (pa len : Word) (s : State) :
    (∃ b l, pmpCheck cls mode pa len s = .ok b (s.logAll l)) ∨
      ∃ a, pmpCheck cls mode pa len s = .stuck (.unpopulatedRead a) := by
  unfold pmpCheck
  split
  · exact .inl ⟨false, [], by simp⟩
  · unfold pmpPerm
    split
    · exact .inl ⟨true, [], by simp⟩
    · split
      · exact pmptPerm_cases _
      · exact .inl ⟨_, [], by rw [logAll_nil]⟩
  · exact .inl ⟨_, [], by rw [logAll_nil]⟩

/-- Without the lookup-table extension `PMP_CHECK` always answers, and changes nothing (R190). -/
theorem pmpCheck_noTable (cls : AccessClass) (mode : Mode) (pa len : Word) (s : State) (h : s.cfg.pmptableExt = false) :
    ∃ b, pmpCheck cls mode pa len s = .ok b s := by
  unfold pmpCheck
  split
  · exact ⟨_, rfl⟩
  · unfold pmpPerm
    split
    · exact ⟨_, rfl⟩
    · simp [h]
  · exact ⟨_, rfl⟩

/-! ## The pipeline -/

/-- The region checks of an access answer `Ok` and change nothing but the record of the memory port (R243). -/
theorem accessChecks_eq_ok {cls : AccessClass} {pa len : Word} {s t : State} {r : Response}
    (h : accessChecks cls pa len s = .ok r t) :
    ∃ mode b l, effMode s.regs cls = .ok mode ∧ pmpCheck cls mode pa len s = .ok b (s.logAll l) ∧ t = s.logAll l ∧
      r = accessResponse pa b (spmpAllows s.cfg s.regs cls mode pa len) := by
  obtain ⟨mode, s', he, h1⟩ := andThen_eq_ok.1 h
  obtain ⟨he, rfl⟩ := ofExcept_eq_ok.1 he
  rcases pmpCheck_cases cls mode pa len s' with ⟨b, l, hp⟩ | ⟨a, hp⟩
  · rw [hp] at h1
    simp only [andThen_ok, Res.ok.injEq] at h1
    obtain ⟨rfl, rfl⟩ := h1
    exact ⟨mode, b, l, he, hp, rfl, rfl⟩
  · simp [hp] at h1

theorem accessChecks_ne_raised {cls : AccessClass} {pa len : Word} {s t : State} :
    accessChecks cls pa len s ≠ .raised t := by
  intro h
  rcases andThen_eq_raised.1 h with h | ⟨mode, s', he, h⟩
  · exact absurd h ofExcept_ne_raised
  · rcases pmpCheck_cases cls mode pa len s' with ⟨b, l, hp⟩ | ⟨a, hp⟩ <;> simp [hp] at h

end Sys2Proof.Machine
end

