-- ==== Sys2Proof/Laws/Exec.lean ====
section
/-! SUPPORT. What an instruction can do when it answers a next state, said once for each shape of instruction: the operations
that walk no table, `TRANSLATE`, `ACCESS`. Proofs about all instructions cite these lemmas and unfold no meaning. -/

namespace Sys2Proof.Machine

/-- The parts of the state that no walking operation writes: parameters, consumed registers, mode flags, pending inputs. -/
structure SameSetting (s t : State) : Prop where
  cfg : t.cfg = s.cfg
  regs : t.regs = s.regs
  fetchMode : t.fetchMode = s.fetchMode
  dataMode : t.dataMode = s.dataMode
  inputs : t.inputs = s.inputs

theorem SameSetting.refl (s : State) : SameSetting s s := ⟨rfl, rfl, rfl, rfl, rfl⟩

/-- Every call in the list is a page-table read of the class, of an entry that memory holds. -/
abbrev PteReads (m : Memory) (cls : AccessClass) (va : Word) (l : List BusAccess) : Prop :=
  l.length ≤ 3 ∧ ∀ b ∈ l, ∃ a p, b = pteRead cls va a p ∧ m.readWord a = some p

/-- The walk of `va` from the root ended at a leaf after the reads `l`. -/
abbrev LeafFound (s : State) (cls : AccessClass) (va : Word) (level : Nat) (addr pte : Word) (l : List BusAccess) : Prop :=
  walk cls va 2 (rootBase s.regs) s = .ok (.leaf level addr pte) (s.logAll l) ∧ PteReads s.mem cls va l

/-! ## The pieces -/

theorem fiConsult_ok_frame {cls : AccessClass} {va : Word} {s t : State} {u : Unit} (h : fiConsult cls va s = .ok u t) :
    SameSetting s t ∧ t.tval = s.tval ∧ t.mem = s.mem ∧ t.out = s.out ∧
      ((guideNames s.cfg s.regs.guide cls = false ∧ t.fi = s.fi) ∨
        (guideNames s.cfg s.regs.guide cls = true ∧ t.fi = s.fi.put cls ((s.fi.get cls).considered va))) := by
  rcases fiConsult_eq_ok.1 h with ⟨h1, rfl⟩ | ⟨h1, -, rfl⟩
  · exact ⟨.refl _, rfl, rfl, rfl, .inl ⟨h1, rfl⟩⟩
  · exact ⟨⟨rfl, rfl, rfl, rfl, rfl⟩, rfl, rfl, rfl, .inr ⟨h1, rfl⟩⟩

/-- Memory after the write-back: as before, or under `HW_UPDATE` with the marked leaf at its own address (R158). -/
theorem markLeaf_mem (cls : AccessClass) (va addr pte : Word) (s : State) :
    (markLeaf cls va addr pte s).mem = s.mem ∨
      (s.cfg.adPolicy = .hwUpdate ∧ (markLeaf cls va addr pte s).mem = s.mem.writeWord addr (pteMarked pte cls)) := by
  rcases markLeaf_cases cls va addr pte s with ⟨h, -⟩ | ⟨h, -, h2⟩
  · rw [h]; exact .inl rfl
  · rw [h2]; exact .inr ⟨h, rfl⟩

/-- A table lookup makes table reads only (R196). -/
theorem pmptPoint_reads {root rbase cur : Word} {cls : AccessClass} {s t : State} {b : Bool}
    (h : pmptPoint root rbase cur cls s = .ok b t) :
    ∃ l, t = s.logAll l ∧ ∀ x ∈ l, x.kind = .read ∧ x.bytes = 8 ∧ x.tag = .pmptRead ∧ x.mode = .machine ∧ x.origva = 0#64 := by
  unfold pmptPoint pmptNibble readPmpt at h
  obtain ⟨n, s2, h3, h4⟩ := andThen_eq_ok.1 h
  simp only [Res.ok.injEq] at h4
  obtain ⟨-, rfl⟩ := h4
  obtain ⟨re, s3, h5, h6⟩ := andThen_eq_ok.1 h3
  obtain ⟨-, rfl⟩ := memRead_eq_ok.1 h5
  split at h6
  · simp only [Res.ok.injEq] at h6
    obtain ⟨-, rfl⟩ := h6
    exact ⟨[_], rfl, by simp⟩
  · obtain ⟨le, s4, h7, h8⟩ := andThen_eq_ok.1 h6
    obtain ⟨-, rfl⟩ := memRead_eq_ok.1 h7
    simp only [Res.ok.injEq] at h8
    obtain ⟨-, rfl⟩ := h8
    exact ⟨_, by rw [logBus_eq_logAll, logBus_eq_logAll, logAll_logAll], by simp⟩

theorem pmptPerm_reads {root rbase : Word} {cls : AccessClass} (pts : List Word) {s t : State} {b : Bool}
    (h : pmptPerm root rbase cls pts s = .ok b t) :
    ∃ l, t = s.logAll l ∧ ∀ x ∈ l, x.kind = .read ∧ x.bytes = 8 ∧ x.tag = .pmptRead ∧ x.mode = .machine ∧ x.origva = 0#64 := by
  induction pts generalizing s with
  | nil => simp only [pmptPerm, Res.ok.injEq] at h; exact ⟨[], by simp [h.2]⟩
  | cons p rest ih =>
    simp only [pmptPerm] at h
    obtain ⟨a, s1, h1, h2⟩ := andThen_eq_ok.1 h
    obtain ⟨l, rfl, hl⟩ := pmptPoint_reads h1
    split at h2
    · obtain ⟨k, rfl, hk⟩ := ih h2
      exact ⟨l ++ k, by simp, fun x hx => (List.mem_append.1 hx).elim (hl x) (hk x)⟩
    · simp only [Res.ok.injEq] at h2
      exact ⟨l, h2.2.symm, hl⟩

/-- `PMP_CHECK` changes nothing but the record of its table reads (R180, R68). -/
theorem pmpCheck_reads {cls : AccessClass} {mode : Mode} {pa len : Word} {s t : State} {b : Bool}
    (h : pmpCheck cls mode pa len s = .ok b t) :
    ∃ l, t = s.logAll l ∧ ∀ x ∈ l, x.kind = .read ∧ x.bytes = 8 ∧ x.tag = .pmptRead ∧ x.mode = .machine ∧ x.origva = 0#64 := by
  unfold pmpCheck at h
  split at h
  · simp only [Res.ok.injEq] at h; exact ⟨[], by simp [h.2]⟩
  · unfold pmpPerm at h
    split at h
    · simp only [Res.ok.injEq] at h; exact ⟨[], by simp [h.2]⟩
    · split at h
      · exact pmptPerm_reads _ h
      · simp only [Res.ok.injEq] at h; exact ⟨[], by simp [h.2]⟩
  · simp only [Res.ok.injEq] at h; exact ⟨[], by simp [h.2]⟩

theorem pmpCheck_ne_raised {cls : AccessClass} {mode : Mode} {pa len : Word} {s t : State} :
    pmpCheck cls mode pa len s ≠ .raised t := by
  rcases pmpCheck_cases cls mode pa len s with ⟨b, l, h⟩ | ⟨a, h⟩ <;> simp [h]

/-! ## The walker's body -/

/-- All that a `TRANSLATE` which answers has done. -/
theorem translate_ok_frame {cls : AccessClass} {amo : Bool} {va w : Word} {s t : State} (h : translate cls amo va s = .ok w t) :
    SameSetting s t ∧ t.tval = s.tval ∧ t.out.resp = s.out.resp ∧ t.out.exc = s.out.exc ∧
      ((guideNames s.cfg s.regs.guide cls = false ∧ t.fi = s.fi) ∨
        (guideNames s.cfg s.regs.guide cls = true ∧ t.fi = s.fi.put cls ((s.fi.get cls).considered va))) ∧
      ∃ level addr pte l, LeafFound s cls va level addr pte l ∧ s.mem.readWord addr = some pte ∧ pteKind pte = .leaf ∧
        t.mem = (markLeaf cls va addr pte (s.logAll l)).mem ∧ t.out = (markLeaf cls va addr pte (s.logAll l)).out ∧
        w = leafBase (pageBase (ptePpn pte)) va level := by
  obtain ⟨level, addr, pte, u, hw, hl⟩ := translate_eq_ok h
  obtain ⟨l, rfl, h1, h2, h3, h4⟩ := walk_eq_ok 2 hw
  obtain ⟨e1, e2, e3, e4⟩ := h4 _ _ _ rfl
  obtain ⟨-, -, hw', u', hf⟩ := leafResult_eq_ok hl
  obtain ⟨fr, f1, f2, f3, f4⟩ := fiConsult_ok_frame hf
  obtain ⟨m1, m2, m3, m4, m5, m6, m7, m8, m9, m10⟩ := markLeaf_frame cls va addr pte (s.logAll l)
  rw [m1, m2, m5] at f4
  exact ⟨⟨fr.cfg.trans m1, fr.regs.trans m2, fr.fetchMode.trans m3, fr.dataMode.trans m4, fr.inputs.trans m7⟩,
    f1.trans m6, by rw [f3, m8]; rfl, by rw [f3, m9]; rfl, f4, level, addr, pte, l, ⟨hw, h2, h3⟩, e2, e3, f2, f3,
    by rw [hw']; simp [markerOk]⟩

/-- All that a `TRANSLATE` which raises has done: the raise is the evaluator's and nothing else changed, or it is the
injector's, with the write-back done. -/
theorem translate_raised_frame {cls : AccessClass} {amo : Bool} {va : Word} {s t : State}
    (h : translate cls amo va s = .raised t) :
    SameSetting s t ∧ t.out.resp = some faultResponse ∧
      ((t.fi = s.fi ∧ t.mem = s.mem ∧ t.tval = va ∧ t.out.exc = some ⟨pfKind cls amo, va⟩ ∧
          ∃ l, t.out.bus = s.out.bus ++ l ∧ PteReads s.mem cls va l) ∨
        (guideNames s.cfg s.regs.guide cls = true ∧ t.fi = s.fi.put cls ((s.fi.get cls).considered va) ∧
          t.tval = s.regs.guide.tval ∧ t.out.exc = some ⟨pfCode cls, s.regs.guide.tval⟩ ∧
          ∃ level addr pte l, LeafFound s cls va level addr pte l ∧ t.mem = (markLeaf cls va addr pte (s.logAll l)).mem ∧
            t.out.bus = (markLeaf cls va addr pte (s.logAll l)).out.bus)) := by
  rcases translate_eq_raised h with ⟨-, rfl⟩ | ⟨pte, u, hw, rfl⟩ | ⟨level, addr, pte, u, hw, hl⟩
  · exact ⟨⟨rfl, rfl, rfl, rfl, rfl⟩, rfl, .inl ⟨rfl, rfl, rfl, rfl, [], by simp, by simp, by simp⟩⟩
  · obtain ⟨l, rfl, h1, h2, h3, h4⟩ := walk_eq_ok 2 hw
    exact ⟨⟨rfl, rfl, rfl, rfl, rfl⟩, rfl, .inl ⟨rfl, rfl, rfl, rfl, l, by simp, by simpa using h2, h3⟩⟩
  · obtain ⟨l, rfl, h1, h2, h3, h4⟩ := walk_eq_ok 2 hw
    rcases leafResult_eq_raised hl with rfl | hf
    · exact ⟨⟨rfl, rfl, rfl, rfl, rfl⟩, rfl, .inl ⟨rfl, rfl, rfl, rfl, l, by simp, by simpa using h2, h3⟩⟩
    · obtain ⟨m1, m2, m3, m4, m5, m6, m7, m8, m9, m10⟩ := markLeaf_frame cls va addr pte (s.logAll l)
      obtain ⟨g, -, rfl⟩ := fiConsult_eq_raised.1 hf
      rw [m1, m2] at g
      exact ⟨⟨by simp [m1], by simp [m2], by simp [m3], by simp [m4], by simp [m7]⟩, rfl,
        .inr ⟨g, by simp [m5], by simp [m2], by simp [m2], level, addr, pte, l, ⟨hw, h2, h3⟩, rfl, rfl⟩⟩

/-! ## The instructions -/

/-- `TRANSLATE` answers a next state: `Ok` with the result word, or the raise of its body. -/
theorem exec_translate_next {cls : AccessClass} {amo : Bool} {va : Word} {s t : State}
    (h : exec (.translate cls amo va) s = .next t) :
    (∃ w u, translate cls amo va s.beginOp = .ok w u ∧ t = u.respond (okResponse w)) ∨
      translate cls amo va s.beginOp = .raised t := by
  simp only [exec, execTranslate] at h
  obtain ⟨-, ⟨r, u, k, rfl⟩ | k⟩ := serve_eq_next.1 h
  · obtain ⟨w, s', h1, h2⟩ := andThen_eq_ok.1 k
    simp only [Res.ok.injEq] at h2
    obtain ⟨rfl, rfl⟩ := h2
    exact .inl ⟨w, _, h1, rfl⟩
  · rcases andThen_eq_raised.1 k with k | ⟨_, _, _, k⟩
    · exact .inr k
    · simp at k

/-- `VALIDATE` answers a next state: `Ok(0)`, or the raise of its body. -/
theorem exec_validate_next {cls : AccessClass} {amo : Bool} {va len : Word} {s t : State}
    (h : exec (.validate cls amo va len) s = .next t) :
    (Instr.validate cls amo va len).wellFormed = true ∧ flagsUsable s.beginOp = true ∧
      ((validate cls amo va len s.beginOp = .ok () s.beginOp ∧ t = s.beginOp.respond (okResponse 0#64)) ∨
        validate cls amo va len s.beginOp = .raised t) := by
  simp only [exec, execValidate] at h
  obtain ⟨hw, k⟩ := serve_eq_next.1 h
  clear h
  refine ⟨hw, ?_⟩
  split at k
  · refine ⟨by assumption, ?_⟩
    rcases k with ⟨r, u, k, rfl⟩ | k
    · obtain ⟨x, s', h1, h2⟩ := andThen_eq_ok.1 k
      obtain ⟨v1, v2, rfl⟩ := validate_eq_ok.1 h1
      simp only [Res.ok.injEq] at h2
      obtain ⟨rfl, rfl⟩ := h2
      exact .inl ⟨h1, rfl⟩
    · rcases andThen_eq_raised.1 k with k | ⟨_, _, _, k⟩
      · exact .inr k
      · simp at k
  · simp at k

/-- The four ways an `ACCESS` answers a next state (R240, R241). -/
inductive AccessNext (cls : AccessClass) (amo : Bool) (va len : Word) (s t : State) : Prop
  | validateRaised (h : validate cls amo va len s.beginOp = .raised t)
  | translateRaised (hv : validate cls amo va len s.beginOp = .ok () s.beginOp) (hm : modeFlag s cls = .translate)
      (h : translate cls amo va s.beginOp = .raised t)
  | direct (mode : Mode) (b : Bool) (l : List BusAccess) (hv : validate cls amo va len s.beginOp = .ok () s.beginOp)
      (hm : modeFlag s cls = .direct) (he : effMode s.regs cls = .ok mode)
      (hp : pmpCheck cls mode va len s.beginOp = .ok b (s.beginOp.logAll l))
      (ht : t = (s.beginOp.logAll l).respond (accessResponse va b (spmpAllows s.cfg s.regs cls mode va len)))
  | translated (w : Word) (u : State) (mode : Mode) (b : Bool) (l : List BusAccess)
      (hv : validate cls amo va len s.beginOp = .ok () s.beginOp) (hm : modeFlag s cls = .translate)
      (h : translate cls amo va s.beginOp = .ok w u) (he : effMode u.regs cls = .ok mode)
      (hp : pmpCheck cls mode (physAddr w va) len u = .ok b (u.logAll l))
      (ht : t = (u.logAll l).respond
        (accessResponse (physAddr w va) b (spmpAllows u.cfg u.regs cls mode (physAddr w va) len)))

theorem exec_access_next {cls : AccessClass} {amo : Bool} {va len : Word} {s t : State}
    (h : exec (.access cls amo va len) s = .next t) : AccessNext cls amo va len s t := by
  simp only [exec, execAccess] at h
  obtain ⟨-, k⟩ := serve_eq_next.1 h
  clear h
  split at k
  · simp at k
  split at k
  · simp at k
  rcases k with ⟨r, u, h, rfl⟩ | h
  · obtain ⟨x, s', h1, h2⟩ := andThen_eq_ok.1 h
    obtain ⟨v1, v2, rfl⟩ := validate_eq_ok.1 h1
    obtain ⟨pa, s'', h3, h4⟩ := andThen_eq_ok.1 h2
    unfold accessAddr at h3
    obtain ⟨mode, b, l, he, hp, rfl, rfl⟩ := accessChecks_eq_ok h4
    split at h3
    · rename_i hm
      obtain ⟨w, u', h5, h6⟩ := andThen_eq_ok.1 h3
      simp only [Res.ok.injEq] at h6
      obtain ⟨rfl, rfl⟩ := h6
      exact .translated w _ mode b l h1 hm h5 he hp rfl
    · rename_i hm
      simp only [Res.ok.injEq] at h3
      obtain ⟨rfl, rfl⟩ := h3
      exact .direct mode b l h1 hm he hp rfl
  · rcases andThen_eq_raised.1 h with h | ⟨x, s', h1, h2⟩
    · exact .validateRaised h
    · obtain ⟨v1, v2, rfl⟩ := validate_eq_ok.1 h1
      rcases andThen_eq_raised.1 h2 with h | ⟨pa, s'', h3, h4⟩
      · unfold accessAddr at h
        split at h
        · rename_i hm
          rcases andThen_eq_raised.1 h with h | ⟨_, _, _, h⟩
          · exact .translateRaised h1 hm h
          · simp at h
        · simp at h
      · exact absurd h4 accessChecks_ne_raised

/-- `PMP_CHECK` answers a Boolean and records its table reads. -/
theorem exec_pmpCheck_next {cls : AccessClass} {mode : Mode} {pa len : Word} {s t : State}
    (h : exec (.pmpCheck cls mode pa len) s = .next t) :
    ∃ b l, pmpCheck cls mode pa len s.beginOp = .ok b (s.beginOp.logAll l) ∧
      t = (s.beginOp.logAll l).respond (okResponse (boolWord b)) := by
  simp only [exec, execPmpCheck] at h
  obtain ⟨-, k⟩ := serve_eq_next.1 h
  clear h
  rcases k with ⟨r, u, k, rfl⟩ | k
  · obtain ⟨x, s', h1, h2⟩ := andThen_eq_ok.1 k
    obtain ⟨l, rfl, hl⟩ := pmpCheck_reads h1
    simp only [Res.ok.injEq] at h2
    obtain ⟨rfl, rfl⟩ := h2
    exact ⟨x, l, h1, rfl⟩
  · rcases andThen_eq_raised.1 k with k | ⟨_, _, _, k⟩
    · exact absurd k pmpCheck_ne_raised
    · simp at k

theorem exec_spmpCheck_next {cls : AccessClass} {mode : Mode} {pa len : Word} {s t : State}
    (h : exec (.spmpCheck cls mode pa len) s = .next t) :
    t = s.beginOp.respond (okResponse (boolWord (spmpCheck s.cfg s.regs cls mode pa len))) := by
  simp only [exec, execSpmpCheck] at h
  obtain ⟨-, k⟩ := serve_eq_next.1 h
  simpa using k

theorem exec_queryMode_next {cls : AccessClass} {s t : State} (h : exec (.queryMode cls) s = .next t) :
    t = s.beginOp.respond (okResponse ((modeFlag s cls).code.setWidth 64)) := by
  simp only [exec, execQueryMode] at h
  obtain ⟨-, k⟩ := serve_eq_next.1 h
  clear h
  split at k
  · simp at k; exact k
  · simp at k

theorem exec_refreshMode_next {s t : State} (h : exec .refreshMode s = .next t) :
    ∃ f d, computeMode s.regs .fetch = .ok f ∧ computeMode s.regs .load = .ok d ∧
      t = (s.beginOp.setModes f d).respond (okResponse (boolWord (d != s.dataMode))) := by
  simp only [exec, execRefreshMode, refresh] at h
  obtain ⟨-, k⟩ := serve_eq_next.1 h
  clear h
  simp only [State.beginOp_regs] at k
  cases hf : computeMode s.regs .fetch with
  | error e => simp [hf] at k
  | ok f =>
    cases hd : computeMode s.regs .load with
    | error e => simp [hf, hd] at k
    | ok d =>
      simp [hf, hd] at k
      exact ⟨f, d, rfl, rfl, k⟩

theorem exec_checkPerm_next {cls : AccessClass} {amo sok : Bool} {va pte : Word} {s t : State}
    (h : exec (.checkPerm cls amo sok va pte) s = .next t) :
    t = s.beginOp.respond (okResponse 1#64) ∨ t = s.beginOp.raise (pfKind cls amo) va := by
  simp only [exec, execCheckPerm] at h
  obtain ⟨-, k⟩ := serve_eq_next.1 h
  clear h
  rcases k with ⟨r, u, k, rfl⟩ | k
  · obtain ⟨x, s', h1, h2⟩ := andThen_eq_ok.1 k
    obtain ⟨mode, -, -, -, rfl⟩ := checkPerm_eq_ok.1 h1
    simp only [Res.ok.injEq] at h2
    obtain ⟨rfl, rfl⟩ := h2
    exact .inl rfl
  · rcases andThen_eq_raised.1 k with k | ⟨_, _, _, k⟩
    · obtain ⟨mode, -, -, -, rfl⟩ := checkPerm_eq_raised.1 k
      exact .inr rfl
    · simp at k

end Sys2Proof.Machine
end

