-- ==== Sys2Proof/Laws/PerInstr.lean ====
section
/-! SUPPORT. One statement for every instruction, proved per constructor: its encoding selects its own row of
spec/opcode_table.json (R110: "a `cmd` selects the row when `cmd & mask = match`"). -/

namespace Sys2Proof.Laws

/-- The command word of the encoding selects the instruction's row. -/
def EncodeSelectsRow.Statement (i : Instr) : Prop :=
  (encode i).cmd &&& i.opcode.rowMask = i.opcode.rowMatch

theorem EncodeSelectsRow.validate (cls : AccessClass) (amo : Bool) (va len : Word) :
    EncodeSelectsRow.Statement (.validate cls amo va len) := by
  show mkCmd Opcode.validate.code cls.code amo 0#2 false &&& Opcode.validate.rowMask = Opcode.validate.rowMatch
  cases cls <;> cases amo <;> decide

theorem EncodeSelectsRow.queryMode (cls : AccessClass) :
    EncodeSelectsRow.Statement (.queryMode cls) := by
  show mkCmd Opcode.queryMode.code cls.code false 0#2 false &&& Opcode.queryMode.rowMask = Opcode.queryMode.rowMatch
  cases cls <;> decide

theorem EncodeSelectsRow.refreshMode :
    EncodeSelectsRow.Statement .refreshMode := by
  show mkCmd Opcode.refreshMode.code 0#2 false 0#2 false &&& Opcode.refreshMode.rowMask = Opcode.refreshMode.rowMatch
  decide

theorem EncodeSelectsRow.translate (cls : AccessClass) (amo : Bool) (va : Word) :
    EncodeSelectsRow.Statement (.translate cls amo va) := by
  show mkCmd Opcode.translate.code cls.code amo 0#2 false &&& Opcode.translate.rowMask = Opcode.translate.rowMatch
  cases cls <;> cases amo <;> decide

theorem EncodeSelectsRow.checkPerm (cls : AccessClass) (amo sok : Bool) (va pte : Word) :
    EncodeSelectsRow.Statement (.checkPerm cls amo sok va pte) := by
  show mkCmd Opcode.checkPerm.code cls.code amo 0#2 sok &&& Opcode.checkPerm.rowMask = Opcode.checkPerm.rowMatch
  cases cls <;> cases amo <;> cases sok <;> decide

theorem EncodeSelectsRow.pmpCheck (cls : AccessClass) (mode : Mode) (pa len : Word) :
    EncodeSelectsRow.Statement (.pmpCheck cls mode pa len) := by
  show mkCmd Opcode.pmpCheck.code cls.code false mode.code false &&& Opcode.pmpCheck.rowMask = Opcode.pmpCheck.rowMatch
  cases cls <;> cases mode <;> decide

theorem EncodeSelectsRow.spmpCheck (cls : AccessClass) (mode : Mode) (pa len : Word) :
    EncodeSelectsRow.Statement (.spmpCheck cls mode pa len) := by
  show mkCmd Opcode.spmpCheck.code cls.code false mode.code false &&& Opcode.spmpCheck.rowMask = Opcode.spmpCheck.rowMatch
  cases cls <;> cases mode <;> decide

theorem EncodeSelectsRow.access (cls : AccessClass) (amo : Bool) (va len : Word) :
    EncodeSelectsRow.Statement (.access cls amo va len) := by
  show mkCmd Opcode.access.code cls.code amo 0#2 false &&& Opcode.access.rowMask = Opcode.access.rowMatch
  cases cls <;> cases amo <;> decide

end Sys2Proof.Laws
end

