-- ==== Sys2Proof/Machine/Surface.lean ====
section
/-! DEFINITION. The written form of a request (30_encoding.md R117) and the pseudo-operations (R118): what a reader writes for
an instruction, and which operations a pseudo-operation stands for. No step uses them. -/

namespace Sys2Proof

/-- The mnemonic of a row of the opcode table (R110). -/
def Opcode.mnemonic : Opcode → String
  | .validate => "VALIDATE"
  | .queryMode => "QUERY_MODE"
  | .refreshMode => "REFRESH_MODE"
  | .translate => "TRANSLATE"
  | .checkPerm => "CHECK_PERM"
  | .pmpCheck => "PMP_CHECK"
  | .spmpCheck => "SPMP_CHECK"
  | .access => "ACCESS"

/-- `f`, `l` or `s` (R117). -/
def AccessClass.suffix : AccessClass → String
  | .fetch => ".f"
  | .load => ".l"
  | .store => ".s"

/-- `.u`, `.s` or `.m` (R117). -/
def Mode.suffix : Mode → String
  | .user => ".u"
  | .supervisor => ".s"
  | .machine => ".m"

/-- `.amo` is present when `amo` = 1 (R117). -/
def amoSuffix (amo : Bool) : String := if amo then ".amo" else ""

/-- An address or an entry in hexadecimal. -/
def hexText (w : Word) : String := "0x" ++ String.ofList (Nat.toDigits 16 w.toNat)

/-- A length in decimal. -/
def decText (w : Word) : String := String.ofList (Nat.toDigits 10 w.toNat)

/-- The written form of an instruction (R117). -/
def Instr.text (i : Instr) : String :=
  i.opcode.mnemonic ++
    match i with
    | .validate cls amo va len => cls.suffix ++ amoSuffix amo ++ " " ++ hexText va ++ ", " ++ decText len
    | .queryMode cls => cls.suffix
    | .refreshMode => ""
    | .translate cls amo va => cls.suffix ++ amoSuffix amo ++ " " ++ hexText va
    | .checkPerm cls amo sok va pte =>
      cls.suffix ++ amoSuffix amo ++ " ok=" ++ (if sok then "1" else "0") ++ ", va=" ++ hexText va ++ ", pte=" ++ hexText pte
    | .pmpCheck cls mode pa len => cls.suffix ++ mode.suffix ++ " " ++ hexText pa ++ ", " ++ decText len
    | .spmpCheck cls mode pa len => cls.suffix ++ mode.suffix ++ " " ++ hexText pa ++ ", " ++ decText len
    | .access cls amo va len => cls.suffix ++ amoSuffix amo ++ " " ++ hexText va ++ ", " ++ decText len

/-! ## Pseudo-operations (R118) -/

/-- `isTranslationActive(cls)` is `QUERY_MODE.cls`; the answer is whether `value` = 1. -/
def isTranslationActive (cls : AccessClass) : Instr := .queryMode cls

/-- `refreshMode()`. -/
def refreshModeOp : Instr := .refreshMode

/-- The pre-flight of a failed walk: "would this have failed" (`sok` = 0). -/
def preflightFailed (cls : AccessClass) (amo : Bool) (va pte : Word) : Instr := .checkPerm cls amo false va pte

/-- The pre-flight that tests an entry before use (`sok` = 1). -/
def preflightEntry (cls : AccessClass) (amo : Bool) (va pte : Word) : Instr := .checkPerm cls amo true va pte

/-- The expansion of `ACCESS`: `VALIDATE`, `QUERY_MODE`, then `TRANSLATE` when the answer is Translate, then both region checks
on the physical address in the effective mode. -/
def expandAccess (cls : AccessClass) (amo : Bool) (va len : Word) (active : Bool) (mode : Mode) (pa : Word) : List Instr :=
  [.validate cls amo va len, .queryMode cls] ++ (if active then [.translate cls amo va] else []) ++
    [.pmpCheck cls mode pa len, .spmpCheck cls mode pa len]

end Sys2Proof
end

