-- ==== Sys2Proof/Tests/Slice0.lean ====
section
/-! SUPPORT. Tests: expected results are the spec's own vectors (spec/95_test_vectors.md, whose numbers each theorem names), and
the witnesses: for every statement of Certificates/Slice0/Obligations.lean that has hypotheses, concrete operands and a
concrete state that meet them all together. -/

namespace Sys2Proof.Tests

open Sys2Proof.Machine Sys2Proof.Claims

/-! ## Building small states -/

/-- Memory that holds these 8-byte entries. -/
def entries (l : List (Word × Word)) : Memory := l.foldl (fun m e => m.writeWord e.1 e.2) []

/-- Consumed registers in a mode, Sv39 on, root page number `0x80000` (95_test_vectors.md 2.3). -/
def regsIn (mode : BitVec 2) : CoreRegs :=
  { coreRegsReset configDefault with curMode := mode, satp := 0x8000000000080000#64 }

/-- Supervisor mode with fresh flags. -/
def sup (m : Memory) : State :=
  { State.reset with regs := regsIn 1#2, fetchMode := .translate, dataMode := .translate, mem := m }

/-- User mode with fresh flags. -/
def usr (m : Memory) : State :=
  { State.reset with regs := regsIn 0#2, fetchMode := .translate, dataMode := .translate, mem := m }

/-- The same state with other parameters. -/
def withCfg (s : State) (f : Config → Config) : State := { s with cfg := f s.cfg }

def excUpdate (c : Config) : Config := { c with adPolicy := .excUpdate }
def alignSoft (c : Config) : Config := { c with alignSoft := true }
def guided (c : Config) : Config := { c with guided := true }
def tableExt (c : Config) : Config := { c with pmptableExt := true }
def refuses (c : Config) : Config := { c with premises := .refuse }

/-- The guide that names a kind (95_test_vectors.md P3). -/
def withGuide (s : State) (excnum : BitVec 6) : State :=
  { withCfg s guided with regs := { s.regs with guide := { active := true, force := true, excnum := excnum, tval := 0x4008#64 } } }

/-- The first entries of the PMP array, the rest off. -/
def withPmp (s : State) (l : List PmpEntry) : State :=
  { s with regs := { s.regs with pmp := l ++ s.regs.pmp.drop l.length } }

/-- The first entries of the SPMP array, the rest off. -/
def withSpmp (s : State) (l : List Region) : State :=
  { s with regs := { s.regs with spmp := l ++ s.regs.spmp.drop l.length } }

def presents (s : State) (l : List CoreEvent) : State := { s with inputs := l }

/-- The answer of an operation: the response and the exception output. -/
def answer (o : Host.Outcome State Fault Refusal) : Option (Option Response × Option ExcOut) :=
  match o with
  | .next s => some (s.out.resp, s.out.exc)
  | .fault _ => none
  | .refused _ => none

def isOk (v : Word) : Option (Option Response × Option ExcOut) := some (some ⟨.ok, v, none⟩, none)
def isFault (k : FaultKind) (v : Word) : Option (Option Response × Option ExcOut) :=
  some (some ⟨.fault, 1#64, none⟩, some ⟨k, v⟩)
def isAccess (pa : Word) (p sp : Bool) : Option (Option Response × Option ExcOut) :=
  some (some ⟨.ok, pa, some ⟨p, sp⟩⟩, none)

/-- The next state of an operation, or the state itself. -/
def after (s : State) (o : Host.Outcome State Fault Refusal) : State :=
  match o with
  | .next t => t
  | .fault _ => s
  | .refused _ => s

/-- The refusal an operation ends in. -/
def refusalOf (o : Host.Outcome State Fault Refusal) : Option Refusal :=
  match o with
  | .next _ => none
  | .fault _ => none
  | .refused r => some r

/-! ## WellFormed refuses (R111) -/

theorem test_wf_amo_on_fetch : (Instr.translate .fetch true 0x1000#64).wellFormed = false := by decide
theorem test_wf_check_amo_on_fetch : (Instr.checkPerm .fetch true true 0#64 0#64).wellFormed = false := by decide
theorem test_wf_validate_len_3 : (Instr.validate .load false 0#64 3#64).wellFormed = false := by decide
theorem test_wf_access_len_16 : (Instr.access .load false 0#64 16#64).wellFormed = false := by decide
theorem test_wf_pmp_len_0 : (Instr.pmpCheck .load .user 0#64 0#64).wellFormed = false := by decide
theorem test_wf_spmp_len_0 : (Instr.spmpCheck .load .user 0#64 0#64).wellFormed = false := by decide
theorem test_wf_refused : refusalOf (exec (.pmpCheck .load .user 0#64 0#64) (sup [])) = some .badRequest := by decide

/-! ## Decoding: words written out from R90 and the vectors of 95_test_vectors.md -/

theorem test_decode_validate :  -- V4: `VALIDATE.l.amo`, op 0000, cls 01, amo 1
    decode ⟨0b0000000001010000#16, 0xffffffbfffffffff#64, 1#64⟩ = .ok (.validate .load true 0xffffffbfffffffff#64 1#64) := by
  decide
theorem test_decode_queryMode :  -- `QUERY_MODE.s`, op 0001, cls 10
    decode ⟨0b0000000000100001#16, 0#64, 0#64⟩ = .ok (.queryMode .store) := by decide
theorem test_decode_refreshMode : decode ⟨0b0000000000000010#16, 0#64, 0#64⟩ = .ok .refreshMode := by decide
theorem test_decode_translate :  -- W15: `TRANSLATE.l.amo`, op 0011
    decode ⟨0b0000000001010011#16, 0x1000#64, 0#64⟩ = .ok (.translate .load true 0x1000#64) := by decide
theorem test_decode_checkPerm :  -- E14's class with `sok` = 1: bit 9
    decode ⟨0b0000001001010100#16, 0x1000#64, 0xcf#64⟩ = .ok (.checkPerm .load true true 0x1000#64 0xcf#64) := by decide
theorem test_decode_pmpCheck :  -- `PMP_CHECK.s.m`, mode 11 in bits 8:7
    decode ⟨0b0000000110100101#16, 0x80000ffc#64, 8#64⟩ = .ok (.pmpCheck .store .machine 0x80000ffc#64 8#64) := by decide
theorem test_decode_spmpCheck :  -- `SPMP_CHECK.l.s`, mode 01
    decode ⟨0b0000000010010110#16, 0x80000000#64, 4#64⟩ = .ok (.spmpCheck .load .supervisor 0x80000000#64 4#64) := by decide
theorem test_decode_access :  -- P1 step 8
    decode ⟨0b0000000000100111#16, 0x40203abc#64, 4#64⟩ = .ok (.access .store false 0x40203abc#64 4#64) := by decide

/-- The ill-formed command words of 95_test_vectors.md 2.9. -/
theorem test_decode_ill_formed :
    decode ⟨0x0008#16, 0#64, 0#64⟩ = .error .reservedOp ∧ decode ⟨0x0033#16, 0#64, 0#64⟩ = .error .reservedCls ∧
    decode ⟨0x0043#16, 0#64, 0#64⟩ = .error .amoOnFetch ∧ decode ⟨0x0105#16, 0#64, 4#64⟩ = .error .reservedMode ∧
    decode ⟨0x0083#16, 0#64, 0#64⟩ = .error .unusedMode ∧ decode ⟨0x0012#16, 0#64, 0#64⟩ = .error .unusedCls ∧
    decode ⟨0x0407#16, 0#64, 4#64⟩ = .error .reservedBits := by decide

/-- The other unused fields and operands (R91, R111). -/
theorem test_decode_unused :
    decode ⟨0x0045#16, 0#64, 4#64⟩ = .error .unusedAmo ∧ decode ⟨0x0203#16, 0#64, 0#64⟩ = .error .unusedSok ∧
    decode ⟨0x0001#16, 1#64, 0#64⟩ = .error .unusedArg0 ∧ decode ⟨0x0013#16, 0#64, 1#64⟩ = .error .unusedArg1 := by decide

/-- A table word and the state it is placed in. -/
theorem test_withFetchWord :
    decodeTableWord 16 0x0002 = some .refreshMode ∧
    refusalOf (step (State.reset.withFetchWord 16 0x0002)) = none ∧
    (after State.reset (step (State.reset.withFetchWord 16 0x0021))).out.resp = some ⟨.ok, 0#64, none⟩ := by decide

/-- The written forms of R117. -/
theorem test_text :
    (Instr.translate .load false 0x1234#64).text = "TRANSLATE.l 0x1234" ∧
    (Instr.validate .store true 0x80001001#64 4#64).text = "VALIDATE.s.amo 0x80001001, 4" ∧
    (Instr.checkPerm .fetch false true 0x1000#64 0xcf#64).text = "CHECK_PERM.f ok=1, va=0x1000, pte=0xcf" ∧
    (Instr.pmpCheck .fetch .supervisor 0x80000000#64 4#64).text = "PMP_CHECK.f.s 0x80000000, 4" ∧
    (Instr.queryMode .fetch).text = "QUERY_MODE.f" ∧ Instr.refreshMode.text = "REFRESH_MODE" := by decide

/-! ## Reset, memory, tables -/

theorem test_reset_mem_wf : Memory.wf State.reset.mem := by decide
theorem test_memory_little_endian :
    (entries [(0x1000#64, 0x1122334455667788#64)]).byte 0x1000#64 = some 0x88#8 ∧
    (entries [(0x1000#64, 0x1122334455667788#64)]).byte 0x1007#64 = some 0x11#8 ∧
    (entries [(0x1000#64, 0x1122334455667788#64)]).readWord 0x1001#64 = none := by decide

/-- NAPOT masks of 95_test_vectors.md 2.5: `k` = 0, 9, 29, 62, 64. -/
theorem test_napot_masks :
    napotMask 0x20000000#64 = 0xfffffffffffffff8#64 ∧ napotMask 0x200001ff#64 = 0xfffffffffffff000#64 ∧
    napotMask 0x1fffffff#64 = 0xffffffff00000000#64 ∧ napotMask 0x3fffffffffffffff#64 = 0#64 ∧
    napotMask 0xffffffffffffffff#64 = 0#64 ∧ napotMask 0x0fffffffffffffff#64 = 0x8000000000000000#64 := by decide

/-- Rows of R215 read across, in the columns' order S0, S1, U. -/
theorem test_spmp_default_rows :
    (∀ cls, permAllows (spmpSet spmpTablesDefault false .supervisor 0b0010#4) cls = (cls == .load || cls == .store)) ∧
    (∀ cls, permAllows (spmpSet spmpTablesDefault true .supervisor 0b0111#4) cls = (cls == .load || cls == .store)) ∧
    (∀ cls, permAllows (spmpSet spmpTablesDefault true .user 0b0101#4) cls = (cls == .load || cls == .fetch)) ∧
    (∀ cls, permAllows (spmpSet spmpTablesDefault true .user 0b1011#4) cls = (cls == .fetch)) ∧
    (∀ cls, permAllows (spmpSet spmpTablesDefault false .supervisor 0b1111#4) cls = (cls == .load)) := by
  refine ⟨?_, ?_, ?_, ?_, ?_⟩ <;> intro cls <;> cases cls <;> decide

/-! ## Steps: at most two vectors an operation -/

/-- Fetch flag Direct, data flag Translate, `ALIGN_SOFT` (95_test_vectors.md 2.1). -/
def vState : State :=
  withCfg { State.reset with regs := { regsIn 3#2 with mprv := true, mpp := 1#2 }, dataMode := .translate } alignSoft

theorem test_validate_V7 : answer (exec (.validate .load true 0x1003#64 4#64) vState) = isFault .sam 0x1003#64 := by decide
theorem test_validate_V11 :
    answer (exec (.validate .store false 0x4000000001#64 2#64) vState) = isFault .spf 0x4000000001#64 := by decide

theorem test_queryMode_M4 :
    answer (exec (.queryMode .fetch) vState) = isOk 0#64 ∧ answer (exec (.queryMode .store) vState) = isOk 1#64 := by decide

/-- M10: only the fetch flag changes, so the answer is 0. -/
theorem test_refreshMode_M10 :
    let s := { vState with fetchMode := .translate }
    answer (exec .refreshMode s) = isOk 0#64 ∧ (after s (exec .refreshMode s)).fetchMode = .direct := by decide
theorem test_refreshMode_M6 :
    let s := { State.reset with regs := { regsIn 1#2 with satp := 0x9000000000080000#64 } }
    refusalOf (exec .refreshMode s) = some .unsupportedPagingMode := by decide

/-- P1's memory: three levels, a user leaf with accessed and dirty clear. -/
def p1Mem : Memory :=
  entries [(0x80000008#64, 0x20000401#64), (0x80001008#64, 0x20000801#64), (0x80002018#64, 0x20048c17#64)]

theorem test_translate_P1_step4 :
    let o := exec (.translate .store false 0x40203abc#64) (usr p1Mem)
    answer o = isOk 0x80123000#64 ∧ (after (usr p1Mem) o).mem.readWord 0x80002018#64 = some 0x20048cd7#64 ∧
    (after (usr p1Mem) o).out.bus.map (fun b => (b.tag.code, b.addr)) =
      [(4, 0x80000008#64), (4, 0x80001008#64), (4, 0x80002018#64), (6, 0x80002018#64)] := by decide

/-- P3 step 1: injected, with the reference's trap value and a warning. -/
def p3State : State := withCfg (withGuide (sup (entries [(0x80000000#64, 0x200000cf#64)])) 13#6) excUpdate

/-- P3's state before the fifth request: the class's cell has counted four at this address. -/
def p3FourTimes : State := p3State.setFi (p3State.fi.put .load ⟨0x4000#64, 4#3⟩)

theorem test_translate_P3_step1 :
    let o := exec (.translate .load false 0x4000#64) p3State
    answer o = isFault .lpf 0x4008#64 ∧ (after p3State o).fi.load = ⟨0x4000#64, 1#3⟩ ∧ (after p3State o).out.warn = true := by
  decide

theorem test_checkPerm_E1 :
    let s := sup []
    answer (exec (.checkPerm .fetch false true 0x1000#64 0xdf#64) { s with regs := { s.regs with sum := true } }) =
      isFault .ipf 0x1000#64 := by decide
theorem test_checkPerm_E17 :
    let s := sup []
    answer (exec (.checkPerm .fetch false true 0x1000#64 0xcb#64)
      { s with regs := { s.regs with mprv := true, mpp := 0#2 } }) = isOk 1#64 := by decide

/-- The TOR entry of T1 to T7: an off entry before it gives its base. -/
def torState : State := withPmp (usr []) [⟨⟨0x00#8, 0x1000#64⟩, 0#64⟩, ⟨⟨0x0f#8, 0x2000#64⟩, 0#64⟩]

theorem test_pmpCheck_T2_T6 :
    answer (exec (.pmpCheck .load .user 0x4000#64 4#64) torState) = isOk 1#64 ∧
    answer (exec (.pmpCheck .load .user 0x3ffc#64 8#64) torState) = isOk 0#64 := by decide

/-- The lookup table of L1 to L8. -/
def tableState : State :=
  withCfg (withPmp (usr (entries [(0x90000000#64, 0x1200020#64), (0x90000008#64, 0xb#64), (0x90001008#64, 0x7231#64)]))
    [⟨⟨0x38#8, 0x207fffff#64⟩, 0x90000000#64⟩]) tableExt

theorem test_pmpCheck_L3 :
    answer (exec (.pmpCheck .fetch .user 0x80012345#64 4#64) tableState) = isOk 1#64 ∧
    answer (exec (.pmpCheck .store .user 0x80012345#64 4#64) tableState) = isOk 0#64 := by decide

/-- R198 with the default bits 1:0, then with the shared pattern in bits 2 and 0, which R195 leaves open. -/
theorem test_shared_pattern :
    (let l := pmptLayoutDefault; pmptNormalise l 0x2#4 = 0x4#4 ∧ pmptNormalise l 0x6#4 = 0x4#4 ∧ pmptNormalise l 0x3#4 = 0x3#4) ∧
    (let l := { pmptLayoutDefault with sharedHi := 2 };
      pmptNormalise l 0x6#4 = 0x4#4 ∧ pmptNormalise l 0x2#4 = 0x2#4 ∧ pmptNormalise l 0x5#4 = 0x5#4) := by decide

/-- A table base is 4096-byte aligned (R36), so that every entry is read at a multiple of 8 (R66). -/
theorem test_pmptbase_aligned :
    let t := after State.reset (step (presents State.reset [.setReg (.pmptbase 0) 0x90000fff#64]))
    t.regs.pmp[0]? = some ⟨⟨0#8, 0#64⟩, 0x90000000#64⟩ ∧ t.regs.pmp[1]? = some ⟨⟨0#8, 0#64⟩, 0#64⟩ := by decide

/-- `spmpcfg[0] = 0x1b`, NAPOT 4 KiB at `0x80000000`. -/
def spmpState : State := withSpmp (usr []) [⟨0x1b#8, 0x200001ff#64⟩]

theorem test_spmpCheck_Q2_Q6 :
    answer (exec (.spmpCheck .load .supervisor 0x80000000#64 8#64) spmpState) = isOk 0#64 ∧
    answer (exec (.spmpCheck .load .supervisor 0x80000000#64 4#64)
      { spmpState with regs := { spmpState.regs with sum := true } }) = isOk 1#64 := by decide
theorem test_spmpCheck_Q5 :
    answer (exec (.spmpCheck .load .user 0x80000ffc#64 8#64) spmpState) = isOk 0#64 ∧
    answer (exec (.spmpCheck .load .machine 0x80000ffc#64 8#64) spmpState) = isOk 0#64 := by decide

/-- P2's state after step 1: machine mode under the override, two TOR entries. -/
def p2State : State :=
  withPmp { State.reset with
      regs := { regsIn 3#2 with mprv := true, mpp := 1#2 }, dataMode := .translate,
      mem := entries [(0x800007f8#64, 0x20000401#64), (0x80001008#64, 0x240800c7#64)] }
    [⟨⟨0x08#8, 0x20000000#64⟩, 0#64⟩, ⟨⟨0x0b#8, 0x28000000#64⟩, 0#64⟩]

theorem test_access_P2_step2 :
    answer (exec (.access .load false 0x3fc0345678#64 8#64) p2State) = isAccess 0x90345678#64 true true := by decide
theorem test_access_P2_step4 :
    answer (exec (.access .fetch false 0x3fc0345678#64 4#64) p2State) = isAccess 0x3fc0345678#64 true true := by decide

/-! ## Witnesses: the hypotheses of the statements can be met, clause by clause -/

/-- The outcome is a next state. -/
def isNext (o : Host.Outcome State Fault Refusal) : Bool :=
  match o with
  | .next _ => true
  | .fault _ => false
  | .refused _ => false

theorem eq_next {o : Host.Outcome State Fault Refusal} (s : State) (h : isNext o = true) : o = .next (after s o) := by
  cases o with
  | next t => rfl
  | fault f => simp [isNext] at h
  | refused r => simp [isNext] at h

/-- The read the machine is stuck at. -/
def stuckAt (o : Host.Outcome State Fault Refusal) : Option Word :=
  match o with
  | .next _ => none
  | .fault (.unpopulatedRead a) => some a
  | .refused _ => none

theorem eq_fault {o : Host.Outcome State Fault Refusal} {a : Word} (h : stuckAt o = some a) : o = .fault (.unpopulatedRead a) := by
  cases o with
  | next t => simp [stuckAt] at h
  | fault f => cases f; simp [stuckAt] at h; rw [h]
  | refused r => simp [stuckAt] at h

theorem signExtended_of_bits {va : Word} (h : ∀ i, i < 64 → 39 ≤ i → va.getLsbD i = va.getLsbD 38) : signExtended va :=
  fun i h1 h2 => h i h2 h1

theorem not_signExtended_of_bit {va : Word} (h : va.getLsbD 39 ≠ va.getLsbD 38) : ¬ signExtended va :=
  fun hs => h (hs 39 (by decide) (by decide))

/-! ### Encoding -/

theorem witness_DecodeOfEncode :
    (Instr.validate .store true 0xffffffffffffffff#64 8#64).wellFormed = true ∧ (Instr.queryMode .store).wellFormed = true ∧
    Instr.refreshMode.wellFormed = true ∧ (Instr.translate .load true 0xffffffffffffffff#64).wellFormed = true ∧
    (Instr.checkPerm .store true false 0xffffffffffffffff#64 0xffffffffffffffff#64).wellFormed = true ∧
    (Instr.pmpCheck .store .machine 0#64 0xffffffffffffffff#64).wellFormed = true ∧
    (Instr.spmpCheck .fetch .user 0#64 1#64).wellFormed = true ∧ (Instr.access .fetch false 0#64 8#64).wellFormed = true := by
  decide

theorem witness_EncodeOfDecode :
    decode ⟨0x0050#16, 0xffffffbfffffffff#64, 8#64⟩ = .ok (.validate .load true 0xffffffbfffffffff#64 8#64) := by decide

theorem witness_DecodeSelectsOneTableRow :
    decode ⟨0x0027#16, 0#64, 8#64⟩ = .ok (.access .store false 0#64 8#64) ∧
    0x0027#16 &&& Opcode.access.rowMask = Opcode.access.rowMatch := by decide

theorem witness_IllFormedRequestsAreRefused :
    (presents (sup []) [.request ⟨0x0407#16, 0#64, 4#64⟩]).inputs = [.request ⟨0x0407#16, 0#64, 4#64⟩] ∧
    illFormed ⟨0x0407#16, 0#64, 4#64⟩ = true ∧ illFormed ⟨0x0008#16, 0#64, 0#64⟩ = true ∧
    illFormed ⟨0x0025#16, 0#64, 0#64⟩ = true ∧ illFormed ⟨0x0010#16, 0#64, 3#64⟩ = true ∧
    illFormed ⟨0x0010#16, 0#64, 8#64⟩ = false ∧ illFormed ⟨0x0025#16, 0#64, 0xffffffffffffffff#64⟩ = false := by decide

/-! ### The step -/

theorem witness_StepServesDecodedRequest :
    (presents (sup []) [.request ⟨0x0002#16, 0#64, 0#64⟩]).inputs = [.request ⟨0x0002#16, 0#64, 0#64⟩] ∧
    decode ⟨0x0002#16, 0#64, 0#64⟩ = .ok .refreshMode := by decide

/-- Every register by name; of an array its first entry, its last one, and one past the end. -/
theorem witness_StepBetweenRequests :
    State.reset.inputs = [] ∧
    (∀ r ∈ [CtrlReg.curMode, .satp, .mprv, .mpp, .sum, .mxr, .pmpcfg 0, .pmpcfg 15, .pmpcfg 16, .pmpaddr 0, .pmpaddr 15,
        .pmpaddr 16, .pmptbase 0, .pmptbase 15, .pmptbase 16, .spmpcfg 0, .spmpcfg 15, .spmpcfg 16, .spmpaddr 0, .spmpaddr 15,
        .spmpaddr 16, .guideActive, .guideForce, .guideExcnum, .guideTval],
      (presents (sup []) [.setReg r 0xffffffffffffffff#64]).inputs = [.setReg r 0xffffffffffffffff#64]) ∧
    (sup []).regs.pmp.length = 16 ∧ (sup []).regs.spmp.length = 16 := by
  refine ⟨rfl, fun r _ => rfl, by decide, by decide⟩

/-- Two bytes that wrap round the top of the address space; address 1 lies beyond them. -/
theorem witness_CoreStoreSetsItsBytes :
    (presents (sup []) [.store 0xffffffffffffffff#64 [1#8, 2#8]]).inputs = [.store 0xffffffffffffffff#64 [1#8, 2#8]] ∧
    [1#8, 2#8].length ≤ 2 ^ 64 ∧ 1 < [1#8, 2#8].length ∧
    (∀ k, k < [1#8, 2#8].length → 1#64 ≠ 0xffffffffffffffff#64 + BitVec.ofNat 64 k) := by decide

/-- The core overwrites the root entry of `0x1000`, then presents the `TRANSLATE`. -/
def storeThenWalk (pte : Word) : State :=
  presents (sup (entries [(0x80000000#64, 0x200000cf#64)]))
    [.store 0x80000000#64 (leBytes pte), .request (encode (.translate .load true 0x1000#64))]

theorem witness_StoreIsSeenByTheNextWalk :
    (storeThenWalk 0#64).inputs = .store (pteAddr (pageBase (satpPpn (storeThenWalk 0#64).regs.satp)) 0x1000#64 2)
      (leBytes 0#64) :: .request (encode (.translate .load true 0x1000#64)) :: [] ∧
    (true = true → AccessClass.load ≠ .fetch) ∧ effMode (storeThenWalk 0#64).regs .load = .ok .supervisor ∧
    Mode.supervisor ≠ .machine ∧ signExtended 0x1000#64 ∧ pteKind 0#64 = .absent ∧
    Host.Core.run Sys2Proof.core 2 (storeThenWalk 0#64) =
      .next (after State.reset (Host.Core.run Sys2Proof.core 2 (storeThenWalk 0#64))) :=
  ⟨by decide, by decide, rfl, by decide, signExtended_of_bits (by decide), by decide, eq_next State.reset (by decide)⟩

/-! ### `VALIDATE` -/

/-- Translate with a canonical, aligned address at the top of the lower range; Direct with a non-canonical one, on an
instance that refuses failed premises. -/
theorem witness_ValidateCompletes :
    ((Instr.validate .store false 0x3ffffffff8#64 8#64).wellFormed = true ∧ flagsPremise vState ∧
      modeFlag vState .store = .translate ∧ signExtended 0x3ffffffff8#64 ∧ vState.cfg.alignSoft = true ∧
      (0x3ffffffff8#64).toNat % (8#64).toNat = 0) ∧
    ((Instr.validate .fetch false 0x4000000001#64 2#64).wellFormed = true ∧ flagsPremise (withCfg vState refuses) ∧
      modeFlag (withCfg vState refuses) .fetch = .direct) :=
  ⟨⟨by decide, .inl rfl, rfl, signExtended_of_bits (by decide), rfl, by decide⟩, by decide, .inr (by decide), rfl⟩

theorem witness_ValidateRaisesOnNonCanonical :
    (Instr.validate .store false 0x4000000000#64 2#64).wellFormed = true ∧ flagsPremise vState ∧
    modeFlag vState .store = .translate ∧ ¬ signExtended 0x4000000000#64 ∧ ¬ signExtended 0xffffffbfffffffff#64 :=
  ⟨by decide, .inl rfl, rfl, not_signExtended_of_bit (by decide), not_signExtended_of_bit (by decide)⟩

theorem witness_ValidateRaisesOnMisaligned :
    (Instr.validate .load true 0x1003#64 4#64).wellFormed = true ∧ flagsPremise vState ∧
    (modeFlag vState .load = .translate → signExtended 0x1003#64) ∧ vState.cfg.alignSoft = true ∧
    AccessClass.load ≠ .fetch ∧ (0x1003#64).toNat % (4#64).toNat ≠ 0 ∧
    modeFlag (withCfg State.reset alignSoft) .store = .direct ∧ (0x1001#64).toNat % (2#64).toNat ≠ 0 :=
  ⟨by decide, .inl rfl, fun _ => signExtended_of_bits (by decide), rfl, by decide, by decide, rfl, by decide⟩

/-! ### The MMU Mode Cache -/

theorem witness_QueryModeAnswersStoredFlag : flagsPremise vState ∧ flagsPremise (withCfg vState refuses) :=
  ⟨.inl rfl, .inr (by decide)⟩

theorem witness_RefreshModeCompletes :
    (computeMode vState.regs .fetch = .ok .direct ∧ computeMode vState.regs .load = .ok .translate) ∧
    computeMode (regsIn 2#2) .fetch = .error .badMode ∧
    (let r := { regsIn 3#2 with mprv := true, mpp := 2#2 };
      computeMode r .fetch = .ok .direct ∧ computeMode r .load = .error .badMode) := ⟨⟨rfl, rfl⟩, rfl, rfl, rfl⟩

/-- Every clause of the table: code 2; code 3; translate; off; an unsupported selector on either side of 8. -/
theorem witness_ComputeModeTable :
    (let r := { regsIn 3#2 with mprv := true, mpp := 2#2 };
      r.mprv = true ∧ AccessClass.load ≠ .fetch ∧ r.mpp = 2#2) ∧
    (regsIn 3#2).curMode = 3#2 ∧ ((regsIn 0#2).curMode = 0#2 ∧ (regsIn 0#2).satp.extractLsb' 60 4 = 8#4) ∧
    ((coreRegsReset configDefault).satp.extractLsb' 60 4 = 0#4) ∧
    (0x7fffffffffffffff#64).extractLsb' 60 4 ≠ 8#4 ∧ (0x7fffffffffffffff#64).extractLsb' 60 4 ≠ 0#4 ∧
    (0x9000000000000000#64).extractLsb' 60 4 ≠ 8#4 ∧ (0x9000000000000000#64).extractLsb' 60 4 ≠ 0#4 := by decide

/-- The selectors on either side of 8 and of 0; machine mode for both classes; code 2 in each place. -/
theorem witness_RefreshModeAborts :
    (effMode { regsIn 1#2 with satp := 0x9000000000080000#64 } .fetch = .ok .supervisor ∧ Mode.supervisor ≠ .machine ∧
      (0x9000000000080000#64).extractLsb' 60 4 ≠ 8#4 ∧ (0x9000000000080000#64).extractLsb' 60 4 ≠ 0#4 ∧
      (0x1fffffffffffffff#64).extractLsb' 60 4 ≠ 8#4 ∧ (0x1fffffffffffffff#64).extractLsb' 60 4 ≠ 0#4) ∧
    (let r := { regsIn 3#2 with mprv := true, mpp := 0#2, satp := 0x7000000000080000#64 };
      effMode r .fetch = .ok .machine ∧ effMode r .load = .ok .user ∧ r.satp.extractLsb' 60 4 ≠ 8#4 ∧
        r.satp.extractLsb' 60 4 ≠ 0#4) ∧
    (effMode (regsIn 3#2) .fetch = .ok .machine ∧ effMode (regsIn 3#2) .load = .ok .machine) ∧
    (regsIn 2#2).curMode = 2#2 ∧
    (let r := { regsIn 3#2 with mprv := true, mpp := 2#2 };
      effMode r .fetch = .ok .machine ∧ r.mprv = true ∧ r.mpp = 2#2) :=
  ⟨⟨rfl, by decide⟩, ⟨rfl, rfl, by decide⟩, ⟨rfl, rfl⟩, rfl, rfl, rfl, rfl⟩

theorem witness_RefreshLeavesFlagsFresh :
    exec .refreshMode vState = .next (after vState (exec .refreshMode vState)) ∧ fresh vState = true ∧
    exec (.queryMode .load) vState = .next (after vState (exec (.queryMode .load) vState)) :=
  ⟨eq_next _ (by decide), by decide, eq_next _ (by decide)⟩

/-- A walk the guide says nothing about and a refresh; a considered request at a new address, and one at the address of the
four before it. -/
theorem witness_NoOperationResetsState :
    (exec (.translate .store false 0x40203abc#64) (usr p1Mem) =
        .next (after (usr p1Mem) (exec (.translate .store false 0x40203abc#64) (usr p1Mem))) ∧
      Instr.translate .store false 0x40203abc#64 ≠ .refreshMode) ∧
    exec .refreshMode vState = .next (after vState (exec .refreshMode vState)) ∧
    (let t := after p3State (exec (.translate .load false 0x4000#64) p3State);
      exec (.translate .load false 0x4000#64) p3State = .next t ∧ (t.fi.get .load).last ≠ (p3State.fi.get .load).last) ∧
    (let t := after p3FourTimes (exec (.translate .load false 0x4000#64) p3FourTimes);
      exec (.translate .load false 0x4000#64) p3FourTimes = .next t ∧ fiBounded p3FourTimes.fi ∧
        (t.fi.get .load).last = (p3FourTimes.fi.get .load).last ∧ t.fi ≠ p3FourTimes.fi) :=
  ⟨⟨eq_next _ (by decide), by decide⟩, eq_next _ (by decide), ⟨eq_next _ (by decide), by decide⟩, eq_next _ (by decide), by decide⟩

/-! ### `TRANSLATE` -/

/-- P1's chain: pointers at levels 2 and 1, the leaf at level 0. -/
def p1Path : List (Word × Word) :=
  [(0x80000008#64, 0x20000401#64), (0x80001008#64, 0x20000801#64), (0x80002018#64, 0x20048c17#64)]

/-- Supervisor mode with one root entry, for the addresses of the first gigapage. -/
def rootOnly (pte : Word) : State := sup (entries [(0x80000000#64, pte)])
def rootOnlyPath (pte : Word) : List (Word × Word) := [(0x80000000#64, pte)]

/-- A chain of two. -/
def twoLevels (pte : Word) : State := sup (entries [(0x80000000#64, 0x20000401#64), (0x80001000#64, pte)])
def twoLevelsPath (pte : Word) : List (Word × Word) := [(0x80000000#64, 0x20000401#64), (0x80001000#64, pte)]

theorem witness_TranslateCompletes :
    ((Instr.translate .store false 0x40203abc#64).wellFormed = true ∧ effMode (usr p1Mem).regs .store = .ok .user ∧
      Mode.user ≠ .machine ∧ signExtended 0x40203abc#64 ∧ rootPath (usr p1Mem) 0x40203abc#64 p1Path = true ∧
      p1Path.getLast? = some (0x80002018#64, 0x20048c17#64) ∧ pteKind 0x20048c17#64 = .leaf ∧
      entryGrants (usr p1Mem) .user .store 0x20048c17#64 = true ∧ misalignedSuper (3 - p1Path.length) 0x20048c17#64 = false ∧
      guideNames (usr p1Mem).cfg (usr p1Mem).regs.guide .store = false) ∧
    (rootPath (rootOnly 0x200000cf#64) 0x3fffffff#64 (rootOnlyPath 0x200000cf#64) = true ∧
      signExtended 0x3fffffff#64 ∧ entryGrants (rootOnly 0x200000cf#64) .supervisor .fetch 0x200000cf#64 = true ∧
      misalignedSuper 2 0x200000cf#64 = false) :=
  ⟨⟨by decide, rfl, by decide, signExtended_of_bits (by decide), by decide, by decide, by decide, by decide, by decide, by decide⟩,
    by decide, signExtended_of_bits (by decide), by decide, by decide⟩

theorem witness_TranslatePreconditions :
    (Instr.translate .fetch false 0x4000000000#64).wellFormed = true ∧ effMode vState.regs .fetch = .ok .machine ∧
    effMode vState.regs .load = .ok .supervisor ∧ Mode.supervisor ≠ .machine ∧ ¬ signExtended 0x4000000000#64 :=
  ⟨by decide, rfl, rfl, by decide, not_signExtended_of_bit (by decide)⟩

/-- Absent at level 2, malformed at level 1, a pointer at level 0. -/
theorem witness_StructuralFaultAfterExactlyItsReads :
    ((Instr.translate .load false 0x1000#64).wellFormed = true ∧ effMode (rootOnly 0#64).regs .load = .ok .supervisor ∧
      Mode.supervisor ≠ .machine ∧ signExtended 0x1000#64 ∧ rootPath (rootOnly 0#64) 0x1000#64 (rootOnlyPath 0#64) = true ∧
      (rootOnlyPath 0#64).getLast? = some (0x80000000#64, 0#64) ∧ (rootOnlyPath 0#64).length = 3 - 2 ∧ pteKind 0#64 = .absent) ∧
    (rootPath (twoLevels 5#64) 0x1000#64 (twoLevelsPath 5#64) = true ∧ (twoLevelsPath 5#64).length = 3 - 1 ∧
      (twoLevelsPath 5#64).getLast? = some (0x80001000#64, 5#64) ∧ pteKind 5#64 = .malformed) ∧
    (let s := sup (entries [(0x80000000#64, 0x20000401#64), (0x80001000#64, 0x20000801#64), (0x80002008#64, 1#64)]);
      let path := [(0x80000000#64, 0x20000401#64), (0x80001000#64, 0x20000801#64), (0x80002008#64, 1#64)];
      rootPath s 0x1000#64 path = true ∧ path.length = 3 - 0 ∧ path.getLast? = some (0x80002008#64, 1#64) ∧
        pteKind 1#64 = .pointer) :=
  ⟨⟨by decide, rfl, by decide, signExtended_of_bits (by decide), by decide, by decide, by decide, by decide⟩, by decide, by decide⟩

/-- A user page from supervisor mode; a gigapage with the lowest bit of its page number set. -/
theorem witness_LeafFaultsWriteNothing :
    (Instr.translate .load false 0x1000#64).wellFormed = true ∧ effMode (rootOnly 0x200000df#64).regs .load = .ok .supervisor ∧
    Mode.supervisor ≠ .machine ∧ signExtended 0x1000#64 ∧
    (rootPath (rootOnly 0x200000df#64) 0x1000#64 (rootOnlyPath 0x200000df#64) = true ∧
      (rootOnlyPath 0x200000df#64).getLast? = some (0x80000000#64, 0x200000df#64) ∧ pteKind 0x200000df#64 = .leaf ∧
      entryGrants (rootOnly 0x200000df#64) .supervisor .load 0x200000df#64 = false) ∧
    (rootPath (rootOnly 0x200004cf#64) 0x1000#64 (rootOnlyPath 0x200004cf#64) = true ∧
      (rootOnlyPath 0x200004cf#64).getLast? = some (0x80000000#64, 0x200004cf#64) ∧ pteKind 0x200004cf#64 = .leaf ∧
      misalignedSuper (3 - (rootOnlyPath 0x200004cf#64).length) 0x200004cf#64 = true) :=
  ⟨by decide, rfl, by decide, signExtended_of_bits (by decide), by decide, by decide⟩

/-- The state of L1 to L8 with another memory. -/
def tableStateOn (m : Memory) : State := { tableState with mem := m }

/-- Its one entry. -/
def tableEntry : PmpEntry := ⟨⟨0x38#8, 0x207fffff#64⟩, 0x90000000#64⟩

/-- The walk with no root entry, none at level 1, none at level 0. -/
theorem witness_WalkOffMemoryIsStuck_walk :
    (Instr.translate .load false 0x1000#64).wellFormed = true ∧ effMode (sup []).regs .load = .ok .supervisor ∧
    Mode.supervisor ≠ .machine ∧ signExtended 0x1000#64 ∧
    (sup []).mem.readWord (pteAddr (pageBase (satpPpn (sup []).regs.satp)) 0x1000#64 2) = none ∧
    (rootPath (rootOnly 0x20000401#64) 0x1000#64 (rootOnlyPath 0x20000401#64) = true ∧
      (rootOnlyPath 0x20000401#64).getLast? = some (0x80000000#64, 0x20000401#64) ∧
      (rootOnlyPath 0x20000401#64).length ≤ 2 ∧ pteKind 0x20000401#64 = .pointer ∧
      (rootOnly 0x20000401#64).mem.readWord (pteAddr (pageBase (ptePpn 0x20000401#64)) 0x1000#64 1) = none) ∧
    (rootPath (twoLevels 0x20000801#64) 0x1000#64 (twoLevelsPath 0x20000801#64) = true ∧
      (twoLevelsPath 0x20000801#64).length ≤ 2 ∧ pteKind 0x20000801#64 = .pointer ∧
      (twoLevels 0x20000801#64).mem.readWord (pteAddr (pageBase (ptePpn 0x20000801#64)) 0x1000#64 0) = none) :=
  ⟨by decide, rfl, by decide, signExtended_of_bits (by decide), by decide, by decide, by decide⟩

theorem tableStuckAt_of {s : State} {cls : AccessClass} {mode : Mode} {pa len a p b : Word} {e : PmpEntry} {before : List Word}
    (hm : regionMatch PmpEntry.region s.regs.pmp pa len = .full e b) (ht : tableConsulted s e mode = true)
    (hp : testPoints pa len = before ++ [p]) (hb : ∀ q ∈ before, pointAllowed s e b cls q = some true)
    (hs : pointStuckAt s e b p a) : tableStuckAt s cls mode pa len a := ⟨e, b, before, p, [], hm, ht, hp, hb, hs⟩

/-- The lookup of a check with no root entry, with no leaf entry, and at a second test point whose root entry is missing after a
first one was permitted; and the same lookup in a Direct `ACCESS`. -/
theorem witness_WalkOffMemoryIsStuck_lookup :
    (4#64 ≠ 0#64 ∧ tableStuckAt (tableStateOn []) .load .user 0x80012345#64 4#64 0x90000000#64) ∧
    tableStuckAt (tableStateOn (entries [(0x90000000#64, 0x1200020#64)])) .load .user 0x80012345#64 4#64 0x90001008#64 ∧
    tableStuckAt (tableStateOn (entries [(0x90000000#64, 0xb#64)])) .load .user 0x81fffffc#64 8#64 0x90000008#64 ∧
    (let s := { tableStateOn [] with dataMode := .direct };
      (Instr.access .load false 0x80012345#64 4#64).wellFormed = true ∧ flagsPremise s ∧ pagePremise s 0x80012345#64 4#64 ∧
        s.cfg.alignSoft = false ∧ effMode s.regs .load = .ok .user ∧ modeFlag s .load = .direct ∧
        tableStuckAt s .load .user 0x80012345#64 4#64 0x90000000#64) :=
  ⟨⟨by decide, tableStuckAt_of (e := tableEntry) (b := 0x80000000#64) (before := []) (p := 0x80012345#64) (by decide) (by decide)
      (by decide) (by simp) ⟨by decide, .inl (by decide)⟩⟩,
    tableStuckAt_of (e := tableEntry) (b := 0x80000000#64) (before := []) (p := 0x80012345#64) (by decide) (by decide)
      (by decide) (by simp) ⟨by decide, .inr ⟨0x1200020#64, by decide, by decide, by decide⟩⟩,
    tableStuckAt_of (e := tableEntry) (b := 0x80000000#64) (before := [0x81fffffc#64]) (p := 0x82000000#64) (by decide) (by decide)
      (by decide) (by simp only [List.forall_mem_singleton]; decide) ⟨by decide, .inl (by decide)⟩,
    by decide, .inl rfl, .inl rfl, rfl, rfl, rfl,
    tableStuckAt_of (e := tableEntry) (b := 0x80000000#64) (before := []) (p := 0x80012345#64) (by decide) (by decide)
      (by decide) (by simp) ⟨by decide, .inl (by decide)⟩⟩

/-- P2's memory with an unmarked leaf, and a PMP entry over the page whose lookup table is at `0xa0000000`. -/
def p2TableOn (table : List (Word × Word)) : State :=
  withCfg (withPmp { p2State with
      mem := entries ([(0x800007f8#64, 0x20000401#64), (0x80001008#64, 0x24080007#64)] ++ table) }
    [⟨⟨0x38#8, 0x247fffff#64⟩, 0xa0000000#64⟩]) tableExt

def p2TableEntry : PmpEntry := ⟨⟨0x38#8, 0x247fffff#64⟩, 0xa0000000#64⟩
def p2TablePath : List (Word × Word) := [(0x800007f8#64, 0x20000401#64), (0x80001008#64, 0x24080007#64)]

/-- That state once the walk has marked its leaf. -/
def p2TableMarked (s : State) : State :=
  markLeaf .load 0x3fc0345678#64 0x80001008#64 0x24080007#64 (afterReads s .load 0x3fc0345678#64 p2TablePath)

/-- A translated `ACCESS`: stuck in its walk; and, the leaf marked, in its lookup. -/
theorem witness_WalkOffMemoryIsStuck_access :
    (let s := rootOnly 0x20000401#64;
      (Instr.access .load false 0x1000#64 8#64).wellFormed = true ∧ flagsPremise s ∧ pagePremise s 0x1000#64 8#64 ∧
        s.cfg.alignSoft = false ∧ effMode s.regs .load = .ok .supervisor ∧ modeFlag s .load = .translate ∧ signExtended 0x1000#64 ∧
        exec (.translate .load false 0x1000#64) s = .fault (.unpopulatedRead 0x80001000#64)) ∧
    (let s := p2TableOn [];
      (Instr.access .load false 0x3fc0345678#64 8#64).wellFormed = true ∧ flagsPremise s ∧ pagePremise s 0x3fc0345678#64 8#64 ∧
        s.cfg.alignSoft = false ∧ effMode s.regs .load = .ok .supervisor ∧ modeFlag s .load = .translate ∧
        Mode.supervisor ≠ .machine ∧ signExtended 0x3fc0345678#64 ∧ rootPath s 0x3fc0345678#64 p2TablePath = true ∧
        p2TablePath.getLast? = some (0x80001008#64, 0x24080007#64) ∧ pteKind 0x24080007#64 = .leaf ∧
        entryGrants s .supervisor .load 0x24080007#64 = true ∧ misalignedSuper (3 - p2TablePath.length) 0x24080007#64 = false ∧
        guideNames s.cfg s.regs.guide .load = false ∧
        (leafBase (pageBase (ptePpn 0x24080007#64)) 0x3fc0345678#64 (3 - p2TablePath.length)).extractLsb' 12 52 ++
          (0x3fc0345678#64).extractLsb' 0 12 = 0x90345678#64 ∧
        tableStuckAt (p2TableMarked s) .load .supervisor 0x90345678#64 8#64 0xa0000000#64) :=
  ⟨⟨by decide, .inl rfl, .inl rfl, rfl, rfl, rfl, signExtended_of_bits (by decide), eq_fault (by decide)⟩,
    by decide, .inl rfl, .inl rfl, rfl, rfl, rfl, by decide, signExtended_of_bits (by decide), by decide, by decide, by decide, by decide,
    by decide, by decide, by decide,
    ⟨p2TableEntry, 0x90000000#64, [], 0x90345678#64, [0x9034567c#64], by decide, by decide, by decide, by simp,
      by decide, .inl (by decide)⟩⟩

/-- Level 0 with the page number's lowest bits set, level 1, level 2. -/
theorem witness_LeafBaseBits :
    misalignedSuper 0 0xffffffffffffffff#64 = false ∧ misalignedSuper 1 0x240800c7#64 = false ∧
    2 ≤ 2 ∧ misalignedSuper 2 0x200000cf#64 = false ∧ 63 < 64 := by decide

/-- The store of P1, whose leaf changes; a store to a leaf already marked. -/
theorem witness_HardwareUpdateMarksTheLeaf :
    ((usr p1Mem).cfg.adPolicy = .hwUpdate ∧ rootPath (usr p1Mem) 0x40203abc#64 p1Path = true ∧
      p1Path.getLast? = some (0x80002018#64, 0x20048c17#64) ∧ pteKind 0x20048c17#64 = .leaf ∧
      exec (.translate .store false 0x40203abc#64) (usr p1Mem) =
        .next (after (usr p1Mem) (exec (.translate .store false 0x40203abc#64) (usr p1Mem))) ∧
      (after (usr p1Mem) (exec (.translate .store false 0x40203abc#64) (usr p1Mem))).out.exc = none) ∧
    (let s := rootOnly 0x200000cf#64;
      rootPath s 0x1000#64 (rootOnlyPath 0x200000cf#64) = true ∧ pteKind 0x200000cf#64 = .leaf ∧
        exec (.translate .store false 0x1000#64) s = .next (after s (exec (.translate .store false 0x1000#64) s)) ∧
        (after s (exec (.translate .store false 0x1000#64) s)).out.exc = none) :=
  ⟨⟨by decide, by decide, by decide, by decide, eq_next _ (by decide), by decide⟩, by decide, by decide, eq_next _ (by decide),
    by decide⟩

/-- A leaf without its accessed bit (`0x2000000f`), and a store to one without its dirty bit (`0x2000004f`). -/
theorem witness_ExceptionUpdateWritesNoMemory :
    let s := withCfg (rootOnly 0x2000000f#64) excUpdate
    let s' := withCfg (rootOnly 0x2000004f#64) excUpdate
    s.cfg.adPolicy = .excUpdate ∧ exec (.translate .load false 0x1000#64) s' =
      .next (after s' (exec (.translate .load false 0x1000#64) s')) ∧
    (Instr.translate .load false 0x1000#64).wellFormed = true ∧ effMode s.regs .load = .ok .supervisor ∧
    Mode.supervisor ≠ .machine ∧ signExtended 0x1000#64 ∧
    (rootPath s 0x1000#64 (rootOnlyPath 0x2000000f#64) = true ∧
      (rootOnlyPath 0x2000000f#64).getLast? = some (0x80000000#64, 0x2000000f#64) ∧ pteKind 0x2000000f#64 = .leaf ∧
      (0x2000000f#64).getLsbD 6 = false) ∧
    (rootPath s' 0x1000#64 (rootOnlyPath 0x2000004f#64) = true ∧ (0x2000004f#64).getLsbD 7 = false) :=
  ⟨rfl, eq_next _ (by decide), by decide, rfl, by decide, signExtended_of_bits (by decide), by decide, by decide⟩

/-- A leaf and a byte outside it; a root entry that is no leaf, after which no chain ends in one; a Direct access; a raise. -/
theorem witness_WalkingOperationsMemoryFrame :
    (walks (.translate .store false 0x40203abc#64) = true ∧
      faultOperands (.translate .store false 0x40203abc#64) = some (.store, false, 0x40203abc#64) ∧
      exec (.translate .store false 0x40203abc#64) (usr p1Mem) =
        .next (after (usr p1Mem) (exec (.translate .store false 0x40203abc#64) (usr p1Mem))) ∧
      rootPath (usr p1Mem) 0x40203abc#64 p1Path = true ∧ pteKind 0x20048c17#64 = .leaf ∧
      ∀ k, k < 8 → 0x80002020#64 ≠ 0x80002018#64 + BitVec.ofNat 64 k) ∧
    (let s := rootOnly 0#64;
      exec (.translate .load false 0x1000#64) s = .next (after s (exec (.translate .load false 0x1000#64) s)) ∧
        (after s (exec (.translate .load false 0x1000#64) s)).out.exc.isSome = true ∧
        guideNames s.cfg s.regs.guide .load = false ∧
        ∀ (path : List (Word × Word)) (a pte : Word), rootPath s 0x1000#64 path = true → path.getLast? = some (a, pte) →
          pteKind pte ≠ .leaf) ∧
    (walks (.access .fetch false 0x3fc0345678#64 4#64) = true ∧ modeFlag p2State .fetch = .direct ∧
      accessLen (.access .fetch false 0x3fc0345678#64 4#64) = 4#64 ∧
      exec (.access .fetch false 0x3fc0345678#64 4#64) p2State =
        .next (after p2State (exec (.access .fetch false 0x3fc0345678#64 4#64) p2State))) := by
  refine ⟨⟨by decide, rfl, eq_next _ (by decide), by decide, by decide, by decide⟩,
    ⟨eq_next _ (by decide), by decide, by decide, ?_⟩, by decide, by decide, rfl, eq_next _ (by decide)⟩
  intro path a pte h hl
  have hr : (rootOnly 0#64).mem.readWord 0x80000000#64 = some 0#64 := by decide
  have ha : pteAddr (pageBase (satpPpn (rootOnly 0#64).regs.satp)) 0x1000#64 2 = 0x80000000#64 := by decide
  match path, h, hl with
  | [(x, p)], h, hl =>
    simp only [rootPath, walkPath, ha, Bool.and_eq_true, beq_iff_eq] at h
    obtain ⟨rfl, h2⟩ := h
    rw [hr] at h2
    cases h2
    cases hl
    decide
  | (x, p) :: q :: rest, h, hl =>
    simp only [rootPath, walkPath, ha, Bool.and_eq_true, beq_iff_eq] at h
    obtain ⟨⟨⟨rfl, h2⟩, h3⟩, -⟩ := h
    rw [hr] at h2
    cases h2
    exact absurd h3 (by decide)

theorem witness_WalkingOperationsFrame :
    walks (.translate .load false 0x4000#64) = true ∧
    faultOperands (.translate .load false 0x4000#64) = some (.load, false, 0x4000#64) ∧
    exec (.translate .load false 0x4000#64) p3State = .next (after p3State (exec (.translate .load false 0x4000#64) p3State)) ∧
    AccessClass.store ≠ .load ∧
    (guideNames p2State.cfg p2State.regs.guide .load = false ∧
      exec (.access .load false 0x3fc0345678#64 8#64) p2State =
        .next (after p2State (exec (.access .load false 0x3fc0345678#64 8#64) p2State)) ∧
      (after p2State (exec (.access .load false 0x3fc0345678#64 8#64) p2State)).out.exc = none) :=
  ⟨by decide, rfl, eq_next _ (by decide), by decide, by decide, eq_next _ (by decide), by decide⟩

theorem witness_NonWalkingOperationsFrame :
    (walks (.pmpCheck .fetch .user 0x80012345#64 4#64) = false ∧
      exec (.pmpCheck .fetch .user 0x80012345#64 4#64) tableState =
        .next (after tableState (exec (.pmpCheck .fetch .user 0x80012345#64 4#64) tableState)) ∧
      Instr.pmpCheck .fetch .user 0x80012345#64 4#64 ≠ .refreshMode ∧
      (after tableState (exec (.pmpCheck .fetch .user 0x80012345#64 4#64) tableState)).out.exc = none) ∧
    (walks .refreshMode = false ∧ exec .refreshMode vState = .next (after vState (exec .refreshMode vState))) :=
  ⟨⟨rfl, eq_next _ (by decide), by decide, by decide⟩, rfl, eq_next _ (by decide)⟩

theorem witness_TranslateBusTraffic :
    exec (.translate .store false 0x40203abc#64) (usr p1Mem) =
      .next (after (usr p1Mem) (exec (.translate .store false 0x40203abc#64) (usr p1Mem))) ∧
    (after (usr p1Mem) (exec (.translate .store false 0x40203abc#64) (usr p1Mem))).out.bus.length = 4 :=
  ⟨eq_next _ (by decide), by decide⟩

/-- A lookup that reads two table entries, and one that is stuck. -/
theorem witness_PteAddressIsAligned :
    (0 ≤ 2 ∧ 1 ≤ 2 ∧ 2 ≤ 2) ∧
    (tablesAligned tableState ∧
      exec (.pmpCheck .fetch .user 0x80012345#64 4#64) tableState =
        .next (after tableState (exec (.pmpCheck .fetch .user 0x80012345#64 4#64) tableState)) ∧
      (after tableState (exec (.pmpCheck .fetch .user 0x80012345#64 4#64) tableState)).out.bus.length = 2) ∧
    (tablesAligned (tableStateOn []) ∧
      exec (.pmpCheck .fetch .user 0x80012345#64 4#64) (tableStateOn []) = .fault (.unpopulatedRead 0x90000000#64)) :=
  ⟨by decide, ⟨by decide, eq_next _ (by decide), by decide⟩, by decide, eq_fault (by decide)⟩

theorem witness_TranslateIgnoresFlagsAndSelector :
    exec (.translate .store false 0x40203abc#64) (usr p1Mem) =
      .next (after (usr p1Mem) (exec (.translate .store false 0x40203abc#64) (usr p1Mem))) ∧
    (0xfffff00000080000#64).extractLsb' 0 44 = (usr p1Mem).regs.satp.extractLsb' 0 44 :=
  ⟨eq_next _ (by decide), by decide⟩

/-! ### `CHECK_PERM` -/

theorem witness_CheckPermCompletes :
    let i := Instr.checkPerm .fetch false true 0x1000#64 0xcf#64
    i.wellFormed = true ∧ effMode (sup []).regs .fetch = .ok .supervisor ∧ Mode.supervisor ≠ .machine ∧
    entryGrants (sup []) .supervisor .fetch 0xcf#64 = true ∧
    exec i (sup []) = .next (after (sup []) (exec i (sup []))) ∧ (after (sup []) (exec i (sup []))).out.exc = none :=
  ⟨by decide, rfl, by decide, by decide, eq_next _ (by decide), by decide⟩

theorem witness_CheckPermRaisesOnDenial :
    (Instr.checkPerm .fetch false true 0x1000#64 0xdf#64).wellFormed = true ∧ effMode (sup []).regs .fetch = .ok .supervisor ∧
    Mode.supervisor ≠ .machine ∧ entryGrants (sup []) .supervisor .fetch 0xdf#64 = false ∧
    (Instr.checkPerm .load true false 0x1000#64 0xcf#64).wellFormed = true :=
  ⟨by decide, rfl, by decide, by decide, by decide⟩

/-- The last two lines are the `ACCESS`: mode code 2 with the flags Direct, and machine mode with a stale Translate flag. -/
theorem witness_BadEffectiveModesAreRefused :
    ((true = true → AccessClass.store ≠ .fetch) ∧ effMode State.reset.regs .store = .ok .machine ∧
      effModeCode (regsIn 2#2) .store = 2#2) ∧
    (let s := { State.reset with regs := regsIn 2#2 };
      (Instr.access .load false 0x1001#64 8#64).wellFormed = true ∧ s.cfg.premises = .mirror ∧ modeFlag s .load = .direct ∧
        s.cfg.alignSoft = false ∧ effModeCode s.regs .load = 2#2) ∧
    (let s := { State.reset with dataMode := .translate };
      s.cfg.premises = .mirror ∧ modeFlag s .load = .translate ∧ signExtended 0x1000#64 ∧ effMode s.regs .load = .ok .machine) :=
  ⟨⟨by decide, rfl, by decide⟩, by decide, rfl, rfl, signExtended_of_bits (by decide), rfl⟩

theorem witness_EffectiveModeRule :
    AccessClass.load ≠ .fetch ∧ vState.regs.mprv = true ∧ effMode vState.regs .load = .ok .supervisor ∧
    effMode vState.regs .fetch = .ok .machine ∧ State.reset.regs.mprv = false ∧ effMode State.reset.regs .store = .ok .machine ∧
    effMode (regsIn 2#2) .fetch = .error .badMode ∧
    effMode { regsIn 3#2 with mprv := true, mpp := 2#2 } .store = .error .badMode := ⟨by decide, rfl, rfl, rfl, rfl, rfl, rfl, rfl⟩

/-! ### Region matching, `PMP_CHECK`, `SPMP_CHECK` -/

/-- The first two entries of T1 to T7: off, then TOR over `[0x4000, 0x8000)`. -/
def torList : List PmpEntry := [⟨⟨0x00#8, 0x1000#64⟩, 0#64⟩, ⟨⟨0x0f#8, 0x2000#64⟩, 0#64⟩]

/-- The TOR entry at the edges of its range: wholly inside, across its upper edge, just past it. -/
theorem witness_FirstMatchingEntryDecides :
    torList[1]? = some ⟨⟨0x0f#8, 0x2000#64⟩, 0#64⟩ ∧
    (∀ (j : Nat) (d : PmpEntry), j < 1 → torList[j]? = some d → ∀ p ∈ testPoints 0x7ffc#64 8#64,
      covers PmpEntry.region torList j d p = false) ∧
    (∀ p ∈ testPoints 0x7ff8#64 8#64, covers PmpEntry.region torList 1 ⟨⟨0x0f#8, 0x2000#64⟩, 0#64⟩ p = true) ∧
    (∃ p ∈ testPoints 0x7ffc#64 8#64, covers PmpEntry.region torList 1 ⟨⟨0x0f#8, 0x2000#64⟩, 0#64⟩ p = true) ∧
    (∃ p ∈ testPoints 0x7ffc#64 8#64, covers PmpEntry.region torList 1 ⟨⟨0x0f#8, 0x2000#64⟩, 0#64⟩ p = false) ∧
    (∀ p ∈ testPoints 0x8000#64 8#64, covers PmpEntry.region torList 1 ⟨⟨0x0f#8, 0x2000#64⟩, 0#64⟩ p = false) := by
  rw [show testPoints 0x7ff8#64 8#64 = [0x7ff8#64, 0x7ffc#64] by decide,
    show testPoints 0x7ffc#64 8#64 = [0x7ffc#64, 0x8000#64] by decide,
    show testPoints 0x8000#64 8#64 = [0x8000#64, 0x8004#64] by decide]
  simp only [List.forall_mem_cons, List.exists_mem_cons_iff, List.not_mem_nil, false_implies, implies_true, and_true]
  refine ⟨rfl, ?_, by decide, .inl (by decide), .inr (.inl (by decide)), by decide⟩
  intro j d hj hd
  obtain rfl : j = 0 := by omega
  cases hd
  decide

/-- The same of an SPMP array: Q5's two test points, across the upper edge of its one configured entry. -/
theorem witness_FirstMatchingEntryDecides_spmp :
    spmpState.regs.spmp[0]? = some ⟨0x1b#8, 0x200001ff#64⟩ ∧
    (∃ p ∈ testPoints 0x80000ffc#64 8#64, covers id spmpState.regs.spmp 0 ⟨0x1b#8, 0x200001ff#64⟩ p = true) ∧
    (∃ p ∈ testPoints 0x80000ffc#64 8#64, covers id spmpState.regs.spmp 0 ⟨0x1b#8, 0x200001ff#64⟩ p = false) ∧
    (∀ p ∈ testPoints 0x80000ff8#64 8#64, covers id spmpState.regs.spmp 0 ⟨0x1b#8, 0x200001ff#64⟩ p = true) := by
  rw [show testPoints 0x80000ffc#64 8#64 = [0x80000ffc#64, 0x80001000#64] by decide,
    show testPoints 0x80000ff8#64 8#64 = [0x80000ff8#64, 0x80000ffc#64] by decide]
  simp only [List.forall_mem_cons, List.exists_mem_cons_iff, List.not_mem_nil, false_implies, implies_true, and_true]
  exact ⟨by decide, .inl (by decide), .inr (.inl (by decide)), by decide⟩

/-- Two test points that wrap; the last byte of the request is in the second. -/
theorem witness_TestPointsEveryFourBytes :
    (testPoints 0xfffffffffffffffe#64 5#64)[0]? = some 0xfffffffffffffffe#64 ∧
    (testPoints 0xfffffffffffffffe#64 5#64)[1]? = some 2#64 := by decide

/-- `k` = 0, 9 and 64. -/
theorem witness_NapotMatchesItsBlock :
    ((0x20000000#64).getLsbD 0 = false) ∧
    ((∀ i, i < 9 → (0x200001ff#64).getLsbD i = true) ∧ (0x200001ff#64).getLsbD 9 = false) ∧
    (64 ≤ 64 ∧ ∀ i, i < 64 → (0xffffffffffffffff#64).getLsbD i = true) := by decide

theorem witness_OffTorAndNa4Match :
    (0x87#8).extractLsb' 3 2 = 0#2 ∧ (0x0f#8).extractLsb' 3 2 = 1#2 ∧ (0x17#8).extractLsb' 3 2 = 2#2 ∧
    (0x1f#8).extractLsb' 3 2 = 3#2 := by decide

theorem pmpAnswers_of_none {s : State} {cls : AccessClass} {mode : Mode} {pa len : Word}
    (h : regionMatch PmpEntry.region s.regs.pmp pa len = .none) :
    pmpAnswers s cls mode pa len (mode == .machine || s.regs.pmp.all fun e => e.region.cfg.extractLsb' 3 2 == 0#2) := by
  unfold pmpAnswers
  rw [h]

theorem pmpAnswers_of_partial {s : State} {cls : AccessClass} {mode : Mode} {pa len : Word} {e : PmpEntry}
    (h : regionMatch PmpEntry.region s.regs.pmp pa len = .partialMatch e) : pmpAnswers s cls mode pa len false := by
  unfold pmpAnswers
  rw [h]

theorem pmpAnswers_of_full {s : State} {cls : AccessClass} {mode : Mode} {pa len : Word} {e : PmpEntry} {b : Word}
    (h : regionMatch PmpEntry.region s.regs.pmp pa len = .full e b) (ht : tableConsulted s e mode = false) :
    pmpAnswers s cls mode pa len ((mode == .machine && !e.region.cfg.getLsbD 7) || cfgBit e.region.cfg cls) := by
  unfold pmpAnswers
  rw [h]
  exact ⟨ht, rfl⟩

/-- A full match, a partial one, none; and no entry configured at all. -/
theorem witness_PmpCheckCompletes :
    8#64 ≠ 0#64 ∧ pmpAnswers torState .load .user 0x7ff8#64 8#64 true ∧ pmpAnswers torState .load .machine 0x7ffc#64 8#64 false ∧
    pmpAnswers torState .load .user 0x8000#64 8#64 false ∧ pmpAnswers (usr []) .fetch .user 0#64 8#64 true :=
  ⟨by decide,
    pmpAnswers_of_full (e := ⟨⟨0x0f#8, 0x2000#64⟩, 0#64⟩) (b := 0x4000#64) (by decide) (by decide),
    pmpAnswers_of_partial (e := ⟨⟨0x0f#8, 0x2000#64⟩, 0#64⟩) (by decide), pmpAnswers_of_none (by decide),
    pmpAnswers_of_none (by decide)⟩

/-- L3's point through both levels, and a single-level root entry (`0xb`). -/
theorem witness_PmpTableCheckCompletes :
    (regionMatch PmpEntry.region tableState.regs.pmp 0x82000000#64 4#64 =
        .full ⟨⟨0x38#8, 0x207fffff#64⟩, 0x90000000#64⟩ 0x80000000#64 ∧
      tableConsulted tableState ⟨⟨0x38#8, 0x207fffff#64⟩, 0x90000000#64⟩ .user = true ∧ 4#64 ≠ 0#64) ∧
    (∀ p ∈ testPoints 0x80012345#64 4#64,
      tableNibble tableState 0x90000000#64 (p - 0x80000000#64) = some ((fun _ => 2#4) p)) ∧
    (∀ p ∈ testPoints 0x82000000#64 4#64,
      tableNibble tableState 0x90000000#64 (p - 0x80000000#64) = some ((fun _ => 5#4) p)) := by
  rw [show testPoints 0x80012345#64 4#64 = [0x80012345#64] by decide, show testPoints 0x82000000#64 4#64 = [0x82000000#64] by decide]
  simp only [List.forall_mem_singleton]
  decide

theorem tableAnswers_true {s : State} {cls : AccessClass} {mode : Mode} {pa len b p : Word} {e : PmpEntry}
    (hm : regionMatch PmpEntry.region s.regs.pmp pa len = .full e b) (ht : tableConsulted s e mode = true)
    (hp : testPoints pa len = [p]) (ha : pointAllowed s e b cls p = some true) : tableAnswers s cls mode pa len true :=
  ⟨e, b, hm, ht, fun _ => by rw [hp]; simpa using ha, fun h => by simp at h⟩

theorem tableAnswers_false {s : State} {cls : AccessClass} {mode : Mode} {pa len b p : Word} {e : PmpEntry} {before after : List Word}
    (hm : regionMatch PmpEntry.region s.regs.pmp pa len = .full e b) (ht : tableConsulted s e mode = true)
    (hp : testPoints pa len = before ++ p :: after) (hb : ∀ q ∈ before, pointAllowed s e b cls q = some true)
    (ha : pointAllowed s e b cls p = some false) : tableAnswers s cls mode pa len false :=
  ⟨e, b, hm, ht, fun h => by simp at h, fun _ => ⟨before, p, after, hp, hb, ha⟩⟩

/-- L3's fetch and its store; and a denied first test point whose successor has no memory behind it. -/
theorem witness_PmpTableCheckCompletes_answers :
    tableAnswers tableState .fetch .user 0x80012345#64 4#64 true ∧ tableAnswers tableState .store .user 0x80012345#64 4#64 false ∧
    tableAnswers (tableStateOn (entries [(0x90000000#64, 0xb#64)])) .store .user 0x81fffffc#64 8#64 false :=
  ⟨tableAnswers_true (e := tableEntry) (b := 0x80000000#64) (p := 0x80012345#64) (by decide) (by decide) (by decide) (by decide),
    tableAnswers_false (e := tableEntry) (b := 0x80000000#64) (p := 0x80012345#64) (before := []) (after := []) (by decide) (by decide)
      (by decide) (by simp) (by decide),
    tableAnswers_false (e := tableEntry) (b := 0x80000000#64) (p := 0x81fffffc#64) (before := []) (after := [0x82000000#64])
      (by decide) (by decide) (by decide) (by simp) (by decide)⟩

theorem witness_RegionChecksNeverRaise :
    exec (.pmpCheck .store .user 0x80012345#64 4#64) tableState =
      .next (after tableState (exec (.pmpCheck .store .user 0x80012345#64 4#64) tableState)) ∧
    exec (.spmpCheck .load .machine 0x80000ffc#64 8#64) spmpState =
      .next (after spmpState (exec (.spmpCheck .load .machine 0x80000ffc#64 8#64) spmpState)) :=
  ⟨eq_next _ (by decide), eq_next _ (by decide)⟩

theorem witness_SpmpCheckCompletes : 1#64 ≠ 0#64 ∧ 0xffffffffffffffff#64 ≠ 0#64 := by decide

/-! ### The Fault Injector -/

theorem witness_InjectorDecides :
    (Instr.translate .load false 0x4000#64).wellFormed = true ∧ effMode p3State.regs .load = .ok .supervisor ∧
    Mode.supervisor ≠ .machine ∧ signExtended 0x4000#64 ∧ rootPath p3State 0x4000#64 (rootOnlyPath 0x200000cf#64) = true ∧
    (rootOnlyPath 0x200000cf#64).getLast? = some (0x80000000#64, 0x200000cf#64) ∧ pteKind 0x200000cf#64 = .leaf ∧
    entryGrants p3State .supervisor .load 0x200000cf#64 = true ∧
    misalignedSuper (3 - (rootOnlyPath 0x200000cf#64).length) 0x200000cf#64 = false ∧ p3State.cfg.guided = true ∧
    p3State.regs.guide.active = true ∧ p3State.regs.guide.force = true ∧
    p3State.regs.guide.excnum = (pfKind .load false).code ∧
    (let old := p3State.fi.get .load;
      (if old.last = 0x4000#64 then min (old.count.toNat + 1) 6 else 1) ≠ 5) ∧
    (rootPath p3FourTimes 0x4000#64 (rootOnlyPath 0x200000cf#64) = true ∧ p3FourTimes.cfg.guided = true ∧
      p3FourTimes.regs.guide = p3State.regs.guide ∧ entryGrants p3FourTimes .supervisor .load 0x200000cf#64 = true ∧
      (let old := p3FourTimes.fi.get .load;
        (if old.last = 0x4000#64 then min (old.count.toNat + 1) 6 else 1) = 5)) :=
  ⟨by decide, rfl, by decide, signExtended_of_bits (by decide), by decide, by decide, by decide, by decide, by decide, rfl, rfl, rfl,
    by decide, by decide, by decide⟩

theorem witness_InjectorCountsRepeats :
    (1 ≤ 1 ∧ (⟨0#64, 6#3⟩ : FiCell).last ≠ 0x4000#64) ∧ (1 ≤ 7 ∧ (⟨0x4000#64, 0#3⟩ : FiCell).count = 0#3) := by decide

/-! ### `ACCESS` -/

/-- P2 step 4, a Direct fetch in machine mode; and a Direct access of an instance that refuses failed premises, on the last
bytes of a page. -/
theorem witness_AccessDirectCompletes :
    ((Instr.access .fetch false 0x3fc0345678#64 4#64).wellFormed = true ∧ flagsPremise p2State ∧
      pagePremise p2State 0x3fc0345678#64 4#64 ∧ modeFlag p2State .fetch = .direct ∧
      (p2State.cfg.alignSoft = true → AccessClass.fetch ≠ .fetch → (0x3fc0345678#64).toNat % (4#64).toNat = 0) ∧
      effMode p2State.regs .fetch = .ok .machine ∧ pmpAnswers p2State .fetch .machine 0x3fc0345678#64 4#64 true) ∧
    (flagsPremise (withCfg p2State refuses) ∧ pagePremise (withCfg p2State refuses) 0x1ffc#64 4#64) :=
  ⟨⟨by decide, .inl rfl, .inl rfl, rfl, fun h => absurd h (by decide), rfl, pmpAnswers_of_none (by decide)⟩, .inr (by decide),
    .inr (by decide)⟩

/-- A Direct load through the lookup table of L1 to L8, at its single-level root entry, permitted; a store there, denied. -/
theorem witness_AccessDirectCompletes_table :
    let s := { tableState with dataMode := .direct }
    ((Instr.access .load false 0x82000000#64 4#64).wellFormed = true ∧ flagsPremise s ∧ pagePremise s 0x82000000#64 4#64 ∧
      modeFlag s .load = .direct ∧ s.cfg.alignSoft = false ∧ effMode s.regs .load = .ok .user ∧
      tableAnswers s .load .user 0x82000000#64 4#64 true) ∧
    tableAnswers s .store .user 0x82000000#64 4#64 false :=
  ⟨⟨by decide, .inl rfl, .inl rfl, rfl, rfl, rfl,
      tableAnswers_true (e := tableEntry) (b := 0x80000000#64) (p := 0x82000000#64) (by decide) (by decide) (by decide) (by decide)⟩,
    tableAnswers_false (e := tableEntry) (b := 0x80000000#64) (p := 0x82000000#64) (before := []) (after := []) (by decide) (by decide)
      (by decide) (by simp) (by decide)⟩

/-- P2 step 2: a megapage, then the TOR entry that grants reads. -/
theorem witness_AccessTranslatedCompletes :
    let path := [(0x800007f8#64, 0x20000401#64), (0x80001008#64, 0x240800c7#64)]
    let pa := (leafBase (pageBase (ptePpn 0x240800c7#64)) 0x3fc0345678#64 (3 - path.length)).extractLsb' 12 52 ++
      (0x3fc0345678#64).extractLsb' 0 12
    (Instr.access .load false 0x3fc0345678#64 8#64).wellFormed = true ∧ flagsPremise p2State ∧
    pagePremise p2State 0x3fc0345678#64 8#64 ∧ modeFlag p2State .load = .translate ∧ p2State.cfg.alignSoft = false ∧
    effMode p2State.regs .load = .ok .supervisor ∧ Mode.supervisor ≠ .machine ∧ signExtended 0x3fc0345678#64 ∧
    rootPath p2State 0x3fc0345678#64 path = true ∧ path.getLast? = some (0x80001008#64, 0x240800c7#64) ∧
    pteKind 0x240800c7#64 = .leaf ∧ entryGrants p2State .supervisor .load 0x240800c7#64 = true ∧
    misalignedSuper (3 - path.length) 0x240800c7#64 = false ∧ guideNames p2State.cfg p2State.regs.guide .load = false ∧
    pmpAnswers p2State .load .supervisor pa 8#64 true :=
  ⟨by decide, .inl rfl, .inl rfl, rfl, rfl, rfl, by decide, signExtended_of_bits (by decide), by decide, by decide, by decide,
    by decide, by decide, by decide,
    pmpAnswers_of_full (e := ⟨⟨0x0b#8, 0x28000000#64⟩, 0#64⟩) (b := 0x80000000#64) (by decide) (by decide)⟩

/-- P2 step 2 with a lookup table over the page: the leaf is marked, then the table permits the load. -/
theorem witness_AccessTranslatedCompletes_table :
    let s := p2TableOn [(0xa0000000#64, 0xb#64)]
    (Instr.access .load false 0x3fc0345678#64 4#64).wellFormed = true ∧ flagsPremise s ∧
    pagePremise s 0x3fc0345678#64 4#64 ∧ modeFlag s .load = .translate ∧ s.cfg.alignSoft = false ∧
    effMode s.regs .load = .ok .supervisor ∧ Mode.supervisor ≠ .machine ∧ signExtended 0x3fc0345678#64 ∧
    rootPath s 0x3fc0345678#64 p2TablePath = true ∧ p2TablePath.getLast? = some (0x80001008#64, 0x24080007#64) ∧
    pteKind 0x24080007#64 = .leaf ∧ entryGrants s .supervisor .load 0x24080007#64 = true ∧
    misalignedSuper (3 - p2TablePath.length) 0x24080007#64 = false ∧ guideNames s.cfg s.regs.guide .load = false ∧
    (leafBase (pageBase (ptePpn 0x24080007#64)) 0x3fc0345678#64 (3 - p2TablePath.length)).extractLsb' 12 52 ++
      (0x3fc0345678#64).extractLsb' 0 12 = 0x90345678#64 ∧
    tableAnswers (p2TableMarked s) .load .supervisor 0x90345678#64 4#64 true ∧
    (p2TableMarked s).mem.readWord 0x80001008#64 = some 0x24080047#64 :=
  ⟨by decide, .inl rfl, .inl rfl, rfl, rfl, rfl, by decide, signExtended_of_bits (by decide), by decide, by decide, by decide,
    by decide, by decide, by decide, by decide,
    tableAnswers_true (e := p2TableEntry) (b := 0x90000000#64) (p := 0x90345678#64) (by decide) (by decide) (by decide) (by decide),
    by decide⟩

/-- The states of the expansion, one operation after the other. -/
def seqValidate (s : State) (cls : AccessClass) (va len : Word) : State := after s (exec (.validate cls false va len) s)
def seqQuery (s : State) (cls : AccessClass) (va len : Word) : State :=
  after s (exec (.queryMode cls) (seqValidate s cls va len))
def seqTranslate (s : State) (cls : AccessClass) (va len : Word) : State :=
  after s (exec (.translate cls false va) (seqQuery s cls va len))

/-- P2 step 2, translated. -/
theorem witness_AccessEqualsItsExpansion_translate :
    let va := 0x3fc0345678#64
    let s1 := seqValidate p2State .load va 8#64
    let s2 := seqQuery p2State .load va 8#64
    let s3 := seqTranslate p2State .load va 8#64
    let s4 := after s3 (exec (.pmpCheck .load .supervisor 0x90345678#64 8#64) s3)
    let s5 := after s4 (exec (.spmpCheck .load .supervisor 0x90345678#64 8#64) s4)
    pagePremise p2State va 8#64 ∧ exec (.validate .load false va 8#64) p2State = .next s1 ∧ s1.out.exc = none ∧
    exec (.queryMode .load) s1 = .next s2 ∧ answered s2 = some 1#64 ∧ exec (.translate .load false va) s2 = .next s3 ∧
    s3.out.exc = none ∧ answered s3 = some 0x90345000#64 ∧
    0x90345678#64 = (0x90345000#64).extractLsb' 12 52 ++ va.extractLsb' 0 12 ∧
    effMode p2State.regs .load = .ok .supervisor ∧ exec (.pmpCheck .load .supervisor 0x90345678#64 8#64) s3 = .next s4 ∧
    exec (.spmpCheck .load .supervisor 0x90345678#64 8#64) s4 = .next s5 :=
  ⟨.inl rfl, eq_next _ (by decide), by decide, eq_next _ (by decide), by decide, eq_next _ (by decide), by decide, by decide,
    by decide, rfl, eq_next _ (by decide), eq_next _ (by decide)⟩

/-- P2 step 4, Direct. -/
theorem witness_AccessEqualsItsExpansion_direct :
    let va := 0x3fc0345678#64
    let s1 := seqValidate p2State .fetch va 4#64
    let s2 := seqQuery p2State .fetch va 4#64
    let s4 := after s2 (exec (.pmpCheck .fetch .machine va 4#64) s2)
    let s5 := after s4 (exec (.spmpCheck .fetch .machine va 4#64) s4)
    pagePremise p2State va 4#64 ∧ exec (.validate .fetch false va 4#64) p2State = .next s1 ∧ s1.out.exc = none ∧
    exec (.queryMode .fetch) s1 = .next s2 ∧ answered s2 = some 0#64 ∧ effMode p2State.regs .fetch = .ok .machine ∧
    exec (.pmpCheck .fetch .machine va 4#64) s2 = .next s4 ∧ exec (.spmpCheck .fetch .machine va 4#64) s4 = .next s5 :=
  ⟨.inl rfl, eq_next _ (by decide), by decide, eq_next _ (by decide), by decide, rfl, eq_next _ (by decide),
    eq_next _ (by decide)⟩

/-- A misaligned atomic; a walk that meets an absent root entry. -/
theorem witness_AccessEndsAtTheFirstFault :
    (pagePremise vState 0x1003#64 4#64 ∧
      exec (.validate .load true 0x1003#64 4#64) vState = .next (after vState (exec (.validate .load true 0x1003#64 4#64) vState)) ∧
      (after vState (exec (.validate .load true 0x1003#64 4#64) vState)).out.exc.isSome = true) ∧
    (let s := rootOnly 0#64;
      let u := after s (exec (.validate .load false 0x1000#64 4#64) s);
      let t := after s (exec (.translate .load false 0x1000#64) s);
      pagePremise s 0x1000#64 4#64 ∧ exec (.validate .load false 0x1000#64 4#64) s = .next u ∧ u.out.exc = none ∧
        modeFlag s .load = .translate ∧ exec (.translate .load false 0x1000#64) s = .next t ∧ t.out.exc.isSome = true) :=
  ⟨⟨.inl rfl, eq_next _ (by decide), by decide⟩, .inl rfl, eq_next _ (by decide), by decide, rfl, eq_next _ (by decide),
    by decide⟩

/-- Stale flags; and the shortest access that crosses a page, with fresh ones. -/
theorem witness_FailedPremisesAreRefused :
    (withCfg State.reset refuses).cfg.premises = .refuse ∧
    fresh { withCfg State.reset refuses with dataMode := .translate } = false ∧
    fresh (withCfg State.reset refuses) = true ∧ (Instr.access .load false 0x1fff#64 2#64).wellFormed = true ∧
    4096 < (0x1fff#64).toNat % 4096 + (2#64).toNat := by decide

/-! ### The whole machine -/

/-- A state with memory and a request. -/
theorem witness_StepKeepsTheInvariant :
    let s := presents (usr p1Mem) [.request (encode (.translate .store false 0x40203abc#64))]
    Inv s ∧ step s = .next (after s (step s)) := by
  refine ⟨⟨by decide, by decide, by decide, by decide, by decide, ?_⟩, eq_next _ (by decide)⟩
  constructor <;> intro x h <;> cases h

theorem witness_ConsumedStateIsNeverWritten :
    exec (.translate .load false 0x4000#64) p3State =
      .next (after p3State (exec (.translate .load false 0x4000#64) p3State)) := eq_next _ (by decide)

/-- A page fault of an atomic load and a misalignment, with no guide; and a raise the guide asked for. -/
theorem witness_FaultRecordIsTheRequestAddress :
    (exec (.translate .load true 0x1000#64) (rootOnly 0#64) =
        .next (after (rootOnly 0#64) (exec (.translate .load true 0x1000#64) (rootOnly 0#64))) ∧
      (after (rootOnly 0#64) (exec (.translate .load true 0x1000#64) (rootOnly 0#64))).out.exc = some ⟨.spf, 0x1000#64⟩ ∧
      guideNames (rootOnly 0#64).cfg (rootOnly 0#64).regs.guide .load = false) ∧
    (exec (.validate .load true 0x1003#64 4#64) vState = .next (after vState (exec (.validate .load true 0x1003#64 4#64) vState)) ∧
      (after vState (exec (.validate .load true 0x1003#64 4#64) vState)).out.exc = some ⟨.sam, 0x1003#64⟩) ∧
    (exec (.translate .load false 0x4000#64) p3State =
        .next (after p3State (exec (.translate .load false 0x4000#64) p3State)) ∧
      (after p3State (exec (.translate .load false 0x4000#64) p3State)).out.exc = some ⟨.lpf, 0x4008#64⟩) :=
  ⟨⟨eq_next _ (by decide), by decide, by decide⟩, ⟨eq_next _ (by decide), by decide⟩, eq_next _ (by decide), by decide⟩

/-- An injected raise after a write-back: the leaf of a gigapage without its accessed bit, under `HW_UPDATE`. -/
theorem witness_FaultsArePrecise :
    let s := withGuide (rootOnly 0x2000000f#64) 13#6
    let t := after s (exec (.translate .load false 0x4000#64) s)
    exec (.translate .load false 0x4000#64) s = .next t ∧ t.out.exc = some ⟨.lpf, 0x4008#64⟩ ∧ t.fi ≠ s.fi ∧ t.mem ≠ s.mem :=
  ⟨eq_next _ (by decide), by decide, by decide, by decide⟩

theorem witness_ResetSetsOwnedStateOnly : (presents (usr p1Mem) [.reset]).inputs = [.reset] := by decide

end Sys2Proof.Tests
end

/-! Proofs of the statements about the state (10_state.md). One inversion lemma says what any operation can do when it answers
a next state (`exec_operated`); the frame of the consumed state and the step's invariant are read off it. -/

namespace Sys2Proof

open Sys2Proof.Machine Sys2Proof.Claims

/-! ## What an operation can do -/

/-- What an operation may change in the state it starts from, apart from its outputs, the trap value and the mode flags: memory by at most one
8-byte write (R68), the injector by at most one considered cell (R227). It writes nothing it consumes (R30 to R38). -/
structure Operated (s t : State) : Prop where
  regs : t.regs = s.regs
  cfg : t.cfg = s.cfg
  inputs : t.inputs = s.inputs
  mem : t.mem = s.mem ∨ ∃ a v, t.mem = s.mem.writeWord a v
  fi : t.fi = s.fi ∨ ∃ cls va, t.fi = s.fi.put cls ((s.fi.get cls).considered va)

/-- The outputs of an operation that ended: an `Ok` without an exception, or a fault with the exception and the trap value of
one raise (R94, R256). -/
inductive Answered (t : State) : Prop
  | ok (r : Response) (hr : t.out.resp = some r) (hok : r.status = .ok) (hexc : t.out.exc = none)
  | fault (k : FaultKind) (hr : t.out.resp = some faultResponse) (hexc : t.out.exc = some ⟨k, t.tval⟩)

theorem Operated.beginOp (s : State) : Operated s s.beginOp := ⟨rfl, rfl, rfl, .inl rfl, .inl rfl⟩

theorem Operated.logAll {s t : State} (h : Operated s t) (l : List BusAccess) : Operated s (t.logAll l) :=
  ⟨h.regs, h.cfg, h.inputs, h.mem, h.fi⟩

theorem Operated.setModes {s t : State} (h : Operated s t) (f d : MmuMode) : Operated s (t.setModes f d) :=
  ⟨h.regs, h.cfg, h.inputs, h.mem, h.fi⟩

theorem Operated.respond {s t : State} (h : Operated s t) (r : Response) : Operated s (t.respond r) :=
  ⟨h.regs, h.cfg, h.inputs, h.mem, h.fi⟩

theorem Operated.raise {s t : State} (h : Operated s t) (k : FaultKind) (v : Word) : Operated s (t.raise k v) :=
  ⟨h.regs, h.cfg, h.inputs, h.mem, h.fi⟩

/-- The end of an operation that has not raised. -/
theorem operated_answered_respond {s t : State} (h : Operated s t) (hexc : t.out.exc = none) {r : Response}
    (hok : r.status = .ok) : Operated s (t.respond r) ∧ Answered (t.respond r) :=
  ⟨h.respond r, .ok r rfl hok hexc⟩

/-- The end of an operation by a raise. -/
theorem operated_answered_raise {s t : State} (h : Operated s t) (k : FaultKind) (v : Word) :
    Operated s (t.raise k v) ∧ Answered (t.raise k v) :=
  ⟨h.raise k v, .fault k rfl rfl⟩

theorem validate_raised_operated {cls : AccessClass} {amo : Bool} {va len : Word} {s t : State}
    (h : validate cls amo va len s.beginOp = .raised t) : Operated s t ∧ Answered t := by
  rcases validate_eq_raised.1 h with ⟨-, rfl⟩ | ⟨-, -, rfl⟩ <;> exact operated_answered_raise (.beginOp s) _ _

/-- The write-back of a leaf writes at most one word, whatever was read before it (R158). -/
theorem markLeaf_logAll_mem (cls : AccessClass) (va addr pte : Word) (s : State) (l : List BusAccess) :
    (markLeaf cls va addr pte (s.logAll l)).mem = s.mem ∨
      ∃ a v, (markLeaf cls va addr pte (s.logAll l)).mem = s.mem.writeWord a v := by
  rcases markLeaf_mem cls va addr pte (s.logAll l) with h | ⟨-, h⟩
  · exact .inl h
  · exact .inr ⟨_, _, h⟩

theorem translate_ok_operated {cls : AccessClass} {amo : Bool} {va w : Word} {s t : State}
    (h : translate cls amo va s.beginOp = .ok w t) : Operated s t ∧ t.out.exc = none := by
  obtain ⟨hset, -, -, hexc, hfi, level, addr, pte, l, -, -, -, hmem, -, -⟩ := translate_ok_frame h
  refine ⟨⟨hset.regs, hset.cfg, hset.inputs, ?_, ?_⟩, hexc⟩
  · rw [hmem]
    exact markLeaf_logAll_mem cls va addr pte s.beginOp l
  · exact hfi.imp (fun h => h.2) (fun h => ⟨cls, va, h.2⟩)

theorem translate_raised_operated {cls : AccessClass} {amo : Bool} {va : Word} {s t : State}
    (h : translate cls amo va s.beginOp = .raised t) : Operated s t ∧ Answered t := by
  obtain ⟨hset, hresp, ⟨hfi, hmem, htval, hexc, -⟩ | ⟨-, hfi, htval, hexc, level, addr, pte, l, -, hmem, -⟩⟩ :=
    translate_raised_frame h
  · exact ⟨⟨hset.regs, hset.cfg, hset.inputs, .inl hmem, .inl hfi⟩, .fault _ hresp (by rw [hexc, htval])⟩
  · refine ⟨⟨hset.regs, hset.cfg, hset.inputs, ?_, .inr ⟨cls, va, hfi⟩⟩, .fault _ hresp (by rw [hexc, htval])⟩
    rw [hmem]
    exact markLeaf_logAll_mem cls va addr pte s.beginOp l

/-- All that any operation has done when it answers a next state. -/
theorem exec_operated {i : Instr} {s t : State} (h : exec i s = .next t) : Operated s t ∧ Answered t := by
  cases i with
  | validate cls amo va len =>
    obtain ⟨-, -, ⟨-, rfl⟩ | hraised⟩ := exec_validate_next h
    · exact operated_answered_respond (.beginOp s) rfl rfl
    · exact validate_raised_operated hraised
  | queryMode cls =>
    rw [exec_queryMode_next h]
    exact operated_answered_respond (.beginOp s) rfl rfl
  | refreshMode =>
    obtain ⟨f, d, -, -, rfl⟩ := exec_refreshMode_next h
    exact operated_answered_respond ((Operated.beginOp s).setModes f d) rfl rfl
  | translate cls amo va =>
    rcases exec_translate_next h with ⟨w, u, hok, rfl⟩ | hraised
    · obtain ⟨hop, hexc⟩ := translate_ok_operated hok
      exact operated_answered_respond hop hexc rfl
    · exact translate_raised_operated hraised
  | checkPerm cls amo sok va pte =>
    rcases exec_checkPerm_next h with rfl | rfl
    · exact operated_answered_respond (.beginOp s) rfl rfl
    · exact operated_answered_raise (.beginOp s) _ _
  | pmpCheck cls mode pa len =>
    obtain ⟨b, l, -, rfl⟩ := exec_pmpCheck_next h
    exact operated_answered_respond ((Operated.beginOp s).logAll l) rfl rfl
  | spmpCheck cls mode pa len =>
    rw [exec_spmpCheck_next h]
    exact operated_answered_respond (.beginOp s) rfl rfl
  | access cls amo va len =>
    cases exec_access_next h with
    | validateRaised hraised => exact validate_raised_operated hraised
    | translateRaised _ _ hraised => exact translate_raised_operated hraised
    | direct mode b l _ _ _ _ ht =>
      rw [ht]
      exact operated_answered_respond ((Operated.beginOp s).logAll l) rfl rfl
    | translated w u mode b l _ _ hok _ _ ht =>
      obtain ⟨hop, hexc⟩ := translate_ok_operated hok
      rw [ht]
      exact operated_answered_respond (hop.logAll l) hexc rfl

/-! ## What keeps the invariant -/

theorem fiBounded_put {f : FiCells} (hf : fiBounded f) {c : FiCell} (hc : c.count ≤ 6#3) (cls : AccessClass) :
    fiBounded (f.put cls c) := by
  obtain ⟨hfetch, hload, hstore⟩ := hf
  cases cls with
  | fetch => exact ⟨hc, hload, hstore⟩
  | load => exact ⟨hfetch, hc, hstore⟩
  | store => exact ⟨hfetch, hload, hc⟩

theorem outputsAgree_of_none {s : State} (h : s.out = Outputs.none) : outputsAgree s := by
  simp [outputsAgree, h]

theorem Answered.outputsAgree {t : State} (h : Answered t) : outputsAgree t := by
  cases h with
  | ok r hr hok hexc => simp [Sys2Proof.outputsAgree, hr, hexc, hok]
  | fault k hr hexc => simp [Sys2Proof.outputsAgree, hr, hexc, faultResponse]

/-- Whatever the core writes to a register, the table bases stay aligned (R36). -/
theorem writeReg_tbases_aligned {c : CoreRegs} (h : ∀ e ∈ c.pmp, e.tbase.toNat % 4096 = 0) (r : CtrlReg) (v : Word) :
    ∀ e ∈ (writeReg c r v).pmp, e.tbase.toNat % 4096 = 0 := by
  intro e he
  rcases writeReg_tbase he with ⟨d, hd, hbase⟩ | hbase <;> rw [hbase]
  · exact h d hd
  · exact tableBase_aligned v

/-- The invariant does not look at what the core has yet to present. -/
theorem Inv.dropInput {s : State} (h : Inv s) : Inv s.dropInput :=
  ⟨h.mem, h.pmpLength, h.spmpLength, h.tables, h.counts, h.outputs⟩

theorem Inv.beginOp {s : State} (h : Inv s) : Inv s.beginOp :=
  ⟨h.mem, h.pmpLength, h.spmpLength, h.tables, h.counts, outputsAgree_of_none rfl⟩

theorem Inv.setMem {s : State} (h : Inv s) {m : Memory} (hm : m.wf) : Inv (s.setMem m) :=
  ⟨hm, h.pmpLength, h.spmpLength, h.tables, h.counts, h.outputs⟩

theorem Inv.setRegs_writeReg {s : State} (h : Inv s) (r : CtrlReg) (v : Word) : Inv (s.setRegs (writeReg s.regs r v)) where
  mem := h.mem
  pmpLength := by simpa using h.pmpLength
  spmpLength := by simpa using h.spmpLength
  tables := ⟨writeReg_tbases_aligned h.tables.1 r v, h.tables.2⟩
  counts := h.counts
  outputs := h.outputs

theorem Inv.applyReset {s : State} (h : Inv s) : Inv s.applyReset :=
  ⟨h.mem, h.pmpLength, h.spmpLength, h.tables, by simp [fiCellReset], outputsAgree_of_none rfl⟩

/-- An operation that answers keeps the invariant. -/
theorem exec_keeps_inv {i : Instr} {s t : State} (hinv : Inv s) (h : exec i s = .next t) : Inv t := by
  obtain ⟨hop, hans⟩ := exec_operated h
  exact {
    mem := by
      rcases hop.mem with hm | ⟨a, v, hm⟩ <;> rw [hm]
      · exact hinv.mem
      · exact memory_writeWord_wf _ a v hinv.mem
    pmpLength := by rw [hop.regs, hop.cfg, hinv.pmpLength]
    spmpLength := by rw [hop.regs, hop.cfg, hinv.spmpLength]
    tables := by
      rw [tablesAligned, hop.regs, hop.cfg]
      exact hinv.tables
    counts := by
      rcases hop.fi with hf | ⟨cls, va, hf⟩ <;> rw [hf]
      · exact hinv.counts
      · exact fiBounded_put hinv.counts (considered_count_le _ va) cls
    outputs := hans.outputsAgree }

/-! ## The step -/

theorem step_idle {s : State} (h : s.inputs = []) : step s = .next s.beginOp := by
  simp [step, h]

theorem step_of_inputs {s : State} {e : CoreEvent} {rest : List CoreEvent} (h : s.inputs = e :: rest) :
    step s = takeEvent e s.dropInput := by
  simp [step, h]

theorem dropInput_eq {s : State} {e : CoreEvent} {rest : List CoreEvent} (h : s.inputs = e :: rest) :
    s.dropInput = { s with inputs := rest } := by
  simp [State.dropInput, h]

theorem takeEvent_request {r : Request} {i : Instr} (h : decode r = .ok i) (s : State) :
    takeEvent (.request r) s = exec i s := by
  simp [takeEvent, h]

/-- A request that leads to a next state was decoded, and its operation answered. -/
theorem takeEvent_request_eq_next {r : Request} {s t : State} (h : takeEvent (.request r) s = .next t) :
    ∃ i, decode r = .ok i ∧ exec i s = .next t := by
  cases hd : decode r with
  | ok i => exact ⟨i, rfl, takeEvent_request hd s ▸ h⟩
  | error e => simp [takeEvent, hd] at h

/-- Whatever event a step takes, the invariant is kept. -/
theorem takeEvent_keeps_inv {e : CoreEvent} {s t : State} (hinv : Inv s) (h : takeEvent e s = .next t) : Inv t := by
  cases e with
  | request r =>
    obtain ⟨i, -, hexec⟩ := takeEvent_request_eq_next h
    exact exec_keeps_inv hinv hexec
  | setReg r v =>
    cases h
    exact hinv.beginOp.setRegs_writeReg r v
  | store addr bytes =>
    cases h
    exact hinv.beginOp.setMem (memory_storeBytes_wf bytes s.mem addr hinv.mem)
  | reset =>
    cases h
    exact hinv.applyReset

/-! ## The core's register writes -/

/-- Changing one field of an array entry changes that entry alone. -/
theorem entryChanged_modifyAt {α : Type} (l : List α) (i : Nat) (f : α → α) : entryChanged l (modifyAt l i f) i f := by
  intro j
  rw [modifyAt, List.getElem?_modify]
  by_cases h : j = i
  · simp [h]
  · simp [h, Ne.symm h]

/-- A register write of the core changes the named register or entry alone (R38). -/
theorem registerChanged_writeReg (c : CoreRegs) (r : CtrlReg) (v : Word) : registerChanged c (writeReg c r v) r v := by
  cases r with
  | pmpcfg i => exact ⟨rfl, entryChanged_modifyAt _ _ _⟩
  | pmpaddr i => exact ⟨rfl, entryChanged_modifyAt _ _ _⟩
  | pmptbase i => exact ⟨rfl, entryChanged_modifyAt _ _ _⟩
  | spmpcfg i => exact ⟨rfl, entryChanged_modifyAt _ _ _⟩
  | spmpaddr i => exact ⟨rfl, entryChanged_modifyAt _ _ _⟩
  | _ => rfl

/-! ## The obligations -/

/-- Settles O56: an idle step clears the outputs, and every event the core can present keeps the invariant. -/
theorem stepKeepsTheInvariant : Obligations.StepKeepsTheInvariant := by
  unfold Obligations.StepKeepsTheInvariant
  intro s t hinv hstep
  cases hin : s.inputs with
  | nil =>
    rw [step_idle hin] at hstep
    cases hstep
    exact hinv.beginOp
  | cons e rest =>
    rw [step_of_inputs hin] at hstep
    exact takeEvent_keeps_inv hinv.dropInput hstep

/-- Settles O57: read off what any operation can do. -/
theorem consumedStateIsNeverWritten : Obligations.ConsumedStateIsNeverWritten := by
  unfold Obligations.ConsumedStateIsNeverWritten
  intro i s t h
  obtain ⟨hop, -⟩ := exec_operated h
  exact ⟨hop.regs, hop.cfg, hop.inputs⟩

/-- Settles O6: the head event is a request, and it decodes. -/
theorem stepServesDecodedRequest : Obligations.StepServesDecodedRequest := by
  unfold Obligations.StepServesDecodedRequest
  intro s r rest i hin hdec
  rw [step_of_inputs hin, takeEvent_request hdec, dropInput_eq hin]

/-- Settles O7: the idle step is `beginOp`; a register change is `writeReg` on the consumed registers. -/
theorem stepBetweenRequests : Obligations.StepBetweenRequests := by
  unfold Obligations.StepBetweenRequests
  refine ⟨fun s hin => step_idle hin, fun s r v rest hin => ?_⟩
  refine ⟨s.dropInput.beginOp.setRegs (writeReg s.regs r v), ?_, ?_, registerChanged_writeReg s.regs r v⟩
  · rw [step_of_inputs hin]
    rfl
  · rw [dropInput_eq hin]
    rfl

end Sys2Proof

/-! Proofs of the statements about memory (20_memory.md): what the core's store does to the bytes, the walk along a chain of entries and
off the end of it, the two table lookups with no memory behind them, and the frames of the operations. -/

namespace Sys2Proof

open Sys2Proof.Machine Sys2Proof.Claims

/-! ## The core's store -/

/-- The address of a byte counted from the second byte on. -/
theorem add_ofNat_succ (a : Word) (k : Nat) : a + BitVec.ofNat 64 (k + 1) = a + 1#64 + BitVec.ofNat 64 k := by
  rw [Nat.add_comm k 1, BitVec.ofNat_add, BitVec.add_assoc]

theorem memory_byte_storeBytes_other (bs : List Byte) (m : Memory) (a x : Word)
    (h : ∀ k, k < bs.length → x ≠ a + BitVec.ofNat 64 k) : (m.storeBytes a bs).byte x = m.byte x := by
  induction bs generalizing m a with
  | nil => rfl
  | cons b bs ih =>
    have hrest : ∀ k, k < bs.length → x ≠ a + 1#64 + BitVec.ofNat 64 k := fun k hk =>
      add_ofNat_succ a k ▸ h (k + 1) (Nat.succ_lt_succ hk)
    rw [Memory.storeBytes, ih _ _ hrest]
    exact memory_byte_set_other m a x b (by simpa using h 0 (Nat.succ_pos _))

/-- No later byte of a store that covers memory at most once falls on its first address. -/
theorem ne_add_one_add_ofNat (a : Word) {k : Nat} (hk : k + 1 < 2 ^ 64) : a ≠ a + 1#64 + BitVec.ofNat 64 k := by
  rw [← add_ofNat_succ]
  intro h
  have hnat := congrArg BitVec.toNat h
  have := a.isLt
  simp only [BitVec.toNat_add, BitVec.toNat_ofNat] at hnat
  omega

theorem memory_byte_storeBytes (bs : List Byte) (m : Memory) (a : Word) (hlen : bs.length ≤ 2 ^ 64) {k : Nat}
    (hk : k < bs.length) : (m.storeBytes a bs).byte (a + BitVec.ofNat 64 k) = bs[k]? := by
  induction bs generalizing m a k with
  | nil => simp at hk
  | cons b bs ih =>
    rw [List.length_cons] at hlen hk
    rw [Memory.storeBytes]
    cases k with
    | zero =>
      rw [BitVec.add_zero,
        memory_byte_storeBytes_other _ _ _ _ fun j hj => ne_add_one_add_ofNat a (by omega), memory_byte_set_same]
      rfl
    | succ k => rw [add_ofNat_succ a k, ih _ _ (by omega) (by omega), List.getElem?_cons_succ]

/-- A store of the core is a step of its own: the bytes are in memory, the outputs are cleared, nothing else has changed (R72). -/
theorem step_store {s : State} {a : Word} {bytes : List Byte} {rest : List CoreEvent} (h : s.inputs = .store a bytes :: rest) :
    step s = .next { s with mem := s.mem.storeBytes a bytes, inputs := rest, out := Outputs.none } := by
  rw [step_of_inputs h, dropInput_eq h]
  rfl

/-- Storing the bytes of a value, lowest first, is the little-endian write (R61, R65). -/
theorem memory_storeBytes_eq_writeLE (n : Nat) (m : Memory) (a v : Word) :
    m.storeBytes a ((List.range n).map fun k => v.extractLsb' (8 * k) 8) = m.writeLE a v n := by
  induction n generalizing m a v with
  | zero => rfl
  | succ n ih =>
    have hrest : ∀ k, v.extractLsb' (8 * (k + 1)) 8 = (v >>> 8).extractLsb' (8 * k) 8 := fun k => by
      apply BitVec.eq_of_getLsbD_eq
      intro i hi
      simp [show 8 * (k + 1) + i = 8 + (8 * k + i) by omega]
    have hfirst : v.extractLsb' 0 8 = v.setWidth 8 := (BitVec.setWidth_eq_extractLsb' (by decide)).symm
    rw [List.range_succ_eq_map, List.map_cons, List.map_map, Memory.storeBytes, Memory.writeLE, ← ih, Nat.mul_zero, hfirst]
    congr 1
    exact List.map_congr_left fun k _ => hrest k

theorem memory_storeBytes_leBytes (m : Memory) (a v : Word) : m.storeBytes a (leBytes v) = m.writeWord a v :=
  memory_storeBytes_eq_writeLE 8 m a v

/-- Settles O8: the step is `storeBytes`, and the two facts about its bytes are inductions on the bytes stored. -/
theorem coreStoreSetsItsBytes : Obligations.CoreStoreSetsItsBytes := by
  unfold Obligations.CoreStoreSetsItsBytes
  intro s a bytes rest hin hlen
  exact ⟨_, step_store hin, rfl, fun k hk => memory_byte_storeBytes bytes s.mem a hlen hk,
    fun x hx => memory_byte_storeBytes_other bytes s.mem a x hx⟩

/-! ## The walk along a chain of entries -/

theorem readRecord_eq_pteRead (cls : AccessClass) (va a p : Word) : readRecord cls va a p = pteRead cls va a p := by
  cases cls <;> rfl

/-- What the walk does once it has read entry `p` at address `a` on a level (R154, R155). -/
def afterEntry (cls : AccessClass) (va : Word) (level : Nat) (a p : Word) (s : State) : Res WalkEnd :=
  match pteKind p, level with
  | .leaf, _ => .ok (.leaf level a p) s
  | .pointer, n + 1 => walk cls va n (pageBase (ptePpn p)) s
  | .pointer, 0 | .absent, _ | .malformed, _ => .ok (.bad p) s

section Walk
variable {cls : AccessClass} {va base a p : Word} {level : Nat} {s : State}

theorem afterEntry_leaf (h : pteKind p = .leaf) : afterEntry cls va level a p s = .ok (.leaf level a p) s := by
  simp [afterEntry, h]

theorem afterEntry_pointer (h : pteKind p = .pointer) :
    afterEntry cls va (level + 1) a p s = walk cls va level (pageBase (ptePpn p)) s := by
  simp [afterEntry, h]

theorem afterEntry_absent (h : pteKind p = .absent) : afterEntry cls va level a p s = .ok (.bad p) s := by
  simp [afterEntry, h]

/-- One level of the walk: the entry is read, and `afterEntry` goes on. -/
theorem walk_read (h : s.mem.readWord (pteAddr base va level) = some p) :
    walk cls va level base s =
      afterEntry cls va level (pteAddr base va level) p (s.logAll [readRecord cls va (pteAddr base va level) p]) := by
  rw [readRecord_eq_pteRead]
  cases level <;> simp only [walk, walkLevel_read h, afterEntry] <;> cases pteKind p <;> rfl

theorem walk_unpopulated (h : s.mem.readWord (pteAddr base va level) = none) :
    walk cls va level base s = .stuck (.unpopulatedRead (pteAddr base va level)) := by
  cases level <;> exact walkLevel_unpopulated h

/-- The walk reads the entries of a chain one after the other and goes on from the last (R151 to R154). -/
theorem walk_along {path : List (Word × Word)} (hpath : walkPath s.mem va base level path = true)
    (hlast : path.getLast? = some (a, p)) :
    1 ≤ path.length ∧ path.length ≤ level + 1 ∧
      walk cls va level base s = afterEntry cls va (level + 1 - path.length) a p (s.logAll (pathReads cls va path)) := by
  induction path generalizing level base s with
  | nil => simp at hlast
  | cons e path ih =>
    obtain ⟨b, q⟩ := e
    cases path with
    | nil =>
      cases hlast
      simp only [walkPath, Bool.and_eq_true, beq_iff_eq] at hpath
      obtain ⟨rfl, hread⟩ := hpath
      exact ⟨le_rfl, by simp, walk_read hread⟩
    | cons e path =>
      cases level with
      | zero => simp [walkPath] at hpath
      | succ level =>
        simp only [walkPath, Bool.and_eq_true, beq_iff_eq] at hpath
        obtain ⟨⟨⟨rfl, hread⟩, hpointer⟩, hrest⟩ := hpath
        obtain ⟨-, hle, hwalk⟩ :=
          ih (s := s.logAll [readRecord cls va (pteAddr base va (level + 1)) q]) hrest (by simpa using hlast)
        refine ⟨by simp, by simpa using hle, ?_⟩
        rw [walk_read hread, afterEntry_pointer hpointer, hwalk, logAll_logAll]
        simp [pathReads]

/-- A walk that ended at a leaf visited a chain that ends in it. -/
theorem walkPath_of_walk_leaf {n : Nat} {t : State} (h : walk cls va level base s = .ok (.leaf n a p) t) :
    ∃ path, walkPath s.mem va base level path = true ∧ path.getLast? = some (a, p) := by
  induction level generalizing base s with
  | zero =>
    cases hread : s.mem.readWord (pteAddr base va 0) with
    | none => simp [walk_unpopulated hread] at h
    | some q =>
      rw [walk_read hread] at h
      refine ⟨[(pteAddr base va 0, q)], by simp [walkPath, hread], ?_⟩
      cases hkind : pteKind q <;> simp [afterEntry, hkind] at h
      obtain ⟨⟨-, rfl, rfl⟩, -⟩ := h
      rfl
  | succ level ih =>
    cases hread : s.mem.readWord (pteAddr base va (level + 1)) with
    | none => simp [walk_unpopulated hread] at h
    | some q =>
      rw [walk_read hread] at h
      cases hkind : pteKind q with
      | absent | malformed => simp [afterEntry, hkind] at h
      | leaf =>
        simp only [afterEntry_leaf hkind, Res.ok.injEq, WalkEnd.leaf.injEq] at h
        obtain ⟨⟨-, rfl, rfl⟩, -⟩ := h
        exact ⟨[(pteAddr base va (level + 1), q)], by simp [walkPath, hread], rfl⟩
      | pointer =>
        rw [afterEntry_pointer hkind] at h
        obtain ⟨path, hpath, hlast⟩ := ih h
        cases path with
        | nil => simp at hlast
        | cons e path =>
          refine ⟨(pteAddr base va (level + 1), q) :: e :: path, ?_, by simpa using hlast⟩
          simpa [walkPath, hread, hkind] using hpath

end Walk

/-! ## `TRANSLATE` along a chain -/

/-- An address whose high bits are copies of bit 38 is canonical (R131). -/
theorem canonical_of_signExtended {va : Word} (h : signExtended va) : canonical va = true := by
  rw [canonical, beq_iff_eq]
  apply BitVec.eq_of_getLsbD_eq
  intro i hi
  rw [BitVec.getLsbD_extractLsb', h (39 + i) (by omega) (by omega)]
  cases va.getLsbD 38
  · rw [if_neg Bool.false_ne_true, BitVec.getLsbD_zero, Bool.and_false]
  · rw [if_pos rfl, BitVec.getLsbD_allOnes, Bool.and_true]

theorem afterReads_eq (s : State) (cls : AccessClass) (va : Word) (path : List (Word × Word)) :
    afterReads s cls va path = s.beginOp.logAll (pathReads cls va path) := rfl

/-- The evaluator's conjunction is the R177 table with what R174 asks of the accessed and dirty bits. -/
theorem permOk_eq_entryGrants (s : State) {mode : Mode} (hm : mode ≠ .machine) (cls : AccessClass) (pte : Word) :
    permOk s.cfg s.regs mode true cls pte = entryGrants s mode cls pte := by
  have hclass : classBitOk s.regs cls pte =
      classCell s.regs.mxr (pte.getLsbD 1) (pte.getLsbD 2) (pte.getLsbD 3) cls := by
    cases cls <;> rfl
  have howner : (pageOwnerOk s.regs mode cls pte && classBitOk s.regs cls pte) =
      tableAllows mode s.regs.sum s.regs.mxr (pte.getLsbD 4) (pte.getLsbD 1) (pte.getLsbD 2) (pte.getLsbD 3) cls := by
    rw [hclass, pageOwnerOk, pteU]
    generalize pte.getLsbD 4 = u
    cases mode with
    | machine => exact absurd rfl hm
    | user => cases u <;> simp [tableAllows]
    | supervisor => cases u <;> simp [tableAllows, bne]
  have hmark : markOk s.cfg cls pte = adAllows s.cfg.adPolicy (pte.getLsbD 6) (pte.getLsbD 7) cls := by
    cases hpolicy : s.cfg.adPolicy <;> simp [markOk, adAllows, hpolicy, pteA, pteD, Bool.or_comm]
  rw [entryGrants, ← howner, ← hmark]
  simp [permOk, pteV, Bool.and_assoc]

/-- The bits of a leaf's page base: the page number in bits 55:12 (R99). -/
theorem getLsbD_pageBase_ptePpn (pte : Word) (i : Nat) :
    (pageBase (ptePpn pte)).getLsbD i = (decide (12 ≤ i) && decide (i < 56) && pte.getLsbD (i - 2)) := by
  rcases Nat.lt_or_ge i 12 with h | h
  · simp [pageBase, h, Nat.not_le.2 h]
  · rcases Nat.lt_or_ge i 56 with h56 | h56
    · simp [pageBase, ptePpn, h, h56, Nat.not_lt.2 h, show i < 64 by omega, show i - 12 < 44 by omega,
        show 10 + (i - 12) = i - 2 by omega]
    · simp [pageBase, Nat.not_lt.2 h56, BitVec.getLsbD_of_ge _ _ (show 44 ≤ i - 12 by omega)]

theorem getLsbD_pageMask {level : Nat} (h : level ≤ 2) (i : Nat) : (pageMask level).getLsbD i = decide (i < 12 + 9 * level) := by
  have hmask : pageMask level = BitVec.ofNat 64 (2 ^ (12 + 9 * level) - 1) := by
    interval_cases level <;> rfl
  rw [hmask, BitVec.getLsbD_ofNat, Nat.testBit_two_pow_sub_one, Bool.eq_iff_iff]
  simp only [Bool.and_eq_true, decide_eq_true_eq, and_iff_right_iff_imp]
  omega

/-- A superpage is misaligned when a bit of its page number below its size is set (R157). -/
theorem superMisaligned_eq {level : Nat} (hlevel : level ≤ 2) (pte : Word) :
    superMisaligned (pageBase (ptePpn pte)) level = misalignedSuper level pte := by
  have hbit : ∀ i, (pageBase (ptePpn pte) &&& pageMask level).getLsbD i =
      (decide (12 ≤ i) && decide (i < 12 + 9 * level) && pte.getLsbD (i - 2)) := fun i => by
    rw [BitVec.getLsbD_and, getLsbD_pageBase_ptePpn, getLsbD_pageMask hlevel, Bool.eq_iff_iff]
    have hsize : i < 12 + 9 * level → i < 56 := by omega
    simp only [Bool.and_eq_true, decide_eq_true_eq]
    tauto
  rw [superMisaligned, misalignedSuper, Bool.eq_iff_iff, bne_iff_ne]
  simp only [List.any_eq_true, List.mem_range]
  constructor
  · intro h
    by_contra hnone
    refine h (BitVec.eq_of_getLsbD_eq fun i _ => ?_)
    rw [hbit, BitVec.getLsbD_zero, Bool.and_eq_false_imp]
    simp only [Bool.and_eq_true, decide_eq_true_eq]
    rintro ⟨hlow, hhigh⟩
    by_contra hset
    refine hnone ⟨i - 12, by omega, ?_⟩
    rw [show 10 + (i - 12) = i - 2 by omega]
    simpa using hset
  · rintro ⟨k, hk, hset⟩ h
    have hclear := congrArg (·.getLsbD (12 + k)) h
    simp [hbit, hk, show 12 + k - 2 = 10 + k by omega, hset] at hclear

section Translate
variable {cls : AccessClass} {amo : Bool} {va a p : Word} {mode : Mode} {s u : State} {level : Nat} {f : Fault}
  (hmode : effMode s.regs cls = .ok mode) (hm : mode ≠ .machine) (hva : signExtended va)
include hmode hm hva

theorem translate_of_walk_stuck (hwalk : walk cls va 2 (rootBase s.regs) s = .stuck f) : translate cls amo va s = .stuck f := by
  simp [Machine.translate, hmode, hm, canonical_of_signExtended hva, hwalk]

theorem translate_of_walk_leaf (hwalk : walk cls va 2 (rootBase s.regs) s = .ok (.leaf level a p) u) :
    translate cls amo va s = leafResult cls amo va level a p u := by
  simp [Machine.translate, hmode, hm, canonical_of_signExtended hva, hwalk]

theorem translate_of_walk_bad (hwalk : walk cls va 2 (rootBase s.regs) s = .ok (.bad p) u) (hu : u.regs = s.regs) :
    translate cls amo va s = .raised (u.raise (pfKind cls amo) va) := by
  rw [← walkFault_eq (pte := p) (hu ▸ hmode) hm]
  simp [Machine.translate, hmode, hm, canonical_of_signExtended hva, hwalk]

end Translate

/-- A well-formed `TRANSLATE` is served. -/
theorem exec_translate_eq {cls : AccessClass} {amo : Bool} {va : Word} (hwf : (Instr.translate cls amo va).wellFormed = true)
    (s : State) : exec (.translate cls amo va) s =
      finish ((translate cls amo va s.beginOp).andThen fun w u => .ok (okResponse w) u) := by
  simp only [exec, execTranslate, serve_of_wellFormed hwf]

theorem exec_translate_of_walk_stuck {cls : AccessClass} {amo : Bool} {va : Word} {mode : Mode} {s : State} {f : Fault}
    (hwf : (Instr.translate cls amo va).wellFormed = true) (hmode : effMode s.regs cls = .ok mode) (hm : mode ≠ .machine)
    (hva : signExtended va) (hwalk : walk cls va 2 (rootBase s.regs) s.beginOp = .stuck f) :
    exec (.translate cls amo va) s = .fault f := by
  rw [exec_translate_eq hwf, translate_of_walk_stuck (s := s.beginOp) hmode hm hva hwalk, andThen_stuck, finish_stuck]

/-- The leaf at the end of a chain passes: the answer of the walk, with the leaf marked (R150, R158). -/
theorem translate_completes {s : State} {cls : AccessClass} {amo : Bool} {va : Word} {path : List (Word × Word)} {a pte : Word}
    {mode : Mode} (hmode : effMode s.regs cls = .ok mode) (hm : mode ≠ .machine) (hva : signExtended va)
    (hpath : rootPath s va path = true) (hlast : path.getLast? = some (a, pte)) (hleaf : pteKind pte = .leaf)
    (hgrants : entryGrants s mode cls pte = true) (hsuper : misalignedSuper (3 - path.length) pte = false)
    (hguide : guideNames s.cfg s.regs.guide cls = false) :
    translate cls amo va s.beginOp =
      .ok (leafBase (pageBase (ptePpn pte)) va (3 - path.length)) (markLeaf cls va a pte (afterReads s cls va path)) := by
  obtain ⟨hpos, -, hwalk⟩ := walk_along (cls := cls) (s := s.beginOp) hpath hlast
  have hcheck : checkPerm cls amo true va pte (afterReads s cls va path) = .ok () (afterReads s cls va path) :=
    checkPerm_eq_ok.2 ⟨mode, hmode, hm, (permOk_eq_entryGrants s hm cls pte).trans hgrants, rfl⟩
  have haligned : superMisaligned (pageBase (ptePpn pte)) (3 - path.length) = false :=
    (superMisaligned_eq (by omega) pte).trans hsuper
  obtain ⟨hcfg, hregs, -⟩ := markLeaf_frame cls va a pte (afterReads s cls va path)
  have hpass : fiConsult cls va (markLeaf cls va a pte (afterReads s cls va path)) =
      .ok () (markLeaf cls va a pte (afterReads s cls va path)) :=
    fiConsult_eq_ok.2 (.inl ⟨by rw [hcfg, hregs]; exact hguide, rfl⟩)
  rw [afterEntry_leaf hleaf] at hwalk
  rw [translate_of_walk_leaf (s := s.beginOp) hmode hm hva hwalk, ← afterReads_eq]
  simp [leafResult, hcheck, haligned, hpass, markerOk]

/-! ## What a walk puts on the memory port -/

/-- What stands on the memory port for the marking of a leaf: at most one write-back, under `HW_UPDATE` only (R158, R62, R63). -/
abbrev WriteBack (c : Config) (va : Word) (ws : List BusAccess) : Prop :=
  ws.length ≤ 1 ∧ ∀ b ∈ ws, b = writeRecord va b.addr b.value ∧ c.adPolicy = .hwUpdate

theorem WriteBack.nil (c : Config) (va : Word) : WriteBack c va [] := ⟨Nat.zero_le _, by simp⟩

section Traffic
variable {cls : AccessClass} {amo : Bool} {va base a p w : Word} {level : Nat} {s t : State} {e : WalkEnd}

theorem markLeaf_bus (cls : AccessClass) (va a p : Word) (s : State) :
    ∃ ws, (markLeaf cls va a p s).out.bus = s.out.bus ++ ws ∧ WriteBack s.cfg va ws := by
  rcases markLeaf_cases cls va a p s with ⟨h, -⟩ | ⟨hpolicy, -, h⟩ <;> rw [h]
  · exact ⟨[], (List.append_nil _).symm, .nil _ _⟩
  · exact ⟨[writeRecord va a (pteMarked p cls)], rfl, le_rfl, by simp [writeRecord, hpolicy]⟩

/-- From the leaf on, the only call on the memory port is the write-back. -/
theorem leafResult_bus (h : leafResult cls amo va level a p s = .ok w t ∨ leafResult cls amo va level a p s = .raised t) :
    ∃ ws, t.out.bus = s.out.bus ++ ws ∧ WriteBack s.cfg va ws := by
  rcases h with h | h
  · obtain ⟨-, -, -, u, hpass⟩ := leafResult_eq_ok h
    obtain ⟨-, -, -, hout, -⟩ := fiConsult_ok_frame hpass
    rw [hout]
    exact markLeaf_bus cls va a p s
  · rcases leafResult_eq_raised h with rfl | hraised
    · exact ⟨[], (List.append_nil _).symm, .nil _ _⟩
    · obtain ⟨-, -, rfl⟩ := fiConsult_eq_raised.1 hraised
      exact markLeaf_bus cls va a p s

/-- The first read of a walk is that of its first table's entry. -/
theorem walk_first_read (hread : s.mem.readWord (pteAddr base va level) = some p) (h : walk cls va level base s = .ok e t) :
    ∃ l, t = s.logAll (readRecord cls va (pteAddr base va level) p :: l) := by
  rw [walk_read hread] at h
  cases hkind : pteKind p with
  | absent | malformed | leaf =>
    simp only [afterEntry, hkind, Res.ok.injEq] at h
    exact ⟨[], h.2.symm⟩
  | pointer =>
    cases level with
    | zero =>
      simp only [afterEntry, hkind, Res.ok.injEq] at h
      exact ⟨[], h.2.symm⟩
    | succ level =>
      rw [afterEntry_pointer hkind] at h
      obtain ⟨l, rfl, -⟩ := walk_eq_ok level h
      exact ⟨l, by rw [logAll_logAll]; rfl⟩

/-- A `TRANSLATE` that answers has made no call, its address being non-canonical, or the calls of a walk that ended and then of the
write-back (R292). -/
theorem exec_translate_bus (h : exec (.translate cls amo va) s = .next t) :
    (canonical va = false ∧ t.out.bus = []) ∨
      ∃ e u ws, walk cls va 2 (rootBase s.regs) s.beginOp = .ok e u ∧ t.out.bus = u.out.bus ++ ws ∧ WriteBack s.cfg va ws := by
  have hleaf : ∀ {level a p u}, walk cls va 2 (rootBase s.regs) s.beginOp = .ok (.leaf level a p) u → u.cfg = s.cfg := fun hwalk => by
    obtain ⟨l, rfl, -⟩ := walk_eq_ok 2 hwalk
    rfl
  rcases exec_translate_next h with ⟨w, u, hok, rfl⟩ | hraised
  · obtain ⟨level, a, p, v, hwalk, hresult⟩ := translate_eq_ok hok
    obtain ⟨ws, hbus, hws⟩ := leafResult_bus (.inl hresult)
    exact .inr ⟨_, v, ws, hwalk, hbus, hleaf hwalk ▸ hws⟩
  · rcases translate_eq_raised hraised with ⟨hva, rfl⟩ | ⟨p, u, hwalk, rfl⟩ | ⟨level, a, p, u, hwalk, hresult⟩
    · exact .inl ⟨hva, rfl⟩
    · exact .inr ⟨_, u, [], hwalk, (List.append_nil _).symm, .nil _ _⟩
    · obtain ⟨ws, hbus, hws⟩ := leafResult_bus (w := 0#64) (.inr hresult)
      exact .inr ⟨_, u, ws, hwalk, hbus, hleaf hwalk ▸ hws⟩

end Traffic

/-- Settles O31: the reads are the walk's, the write is the leaf's write-back. -/
theorem translateBusTraffic : Obligations.TranslateBusTraffic := by
  unfold Obligations.TranslateBusTraffic
  intro s t cls amo va h
  rcases exec_translate_bus h with ⟨-, hbus⟩ | ⟨e, u, ws, hwalk, hbus, hlen, hws⟩
  · exact ⟨[], [], hbus, by simp, by simp, by simp, by simp⟩
  · obtain ⟨l, rfl, -, hle, hreads, -⟩ := walk_eq_ok 2 hwalk
    refine ⟨l, ws, hbus, hle, hlen, fun b hb => ?_, hws⟩
    obtain ⟨a, p, rfl, -⟩ := hreads b hb
    exact (readRecord_eq_pteRead cls va a p).symm

/-! ## A store is seen by the next walk -/

/-- The fields of the command word that the encoder writes for a `TRANSLATE` (R90, R91). -/
theorem cmdFields_translate (cls : AccessClass) (amo : Bool) :
    let cmd := mkCmd Opcode.translate.code cls.code amo 0#2 false
    cmdOp cmd = Opcode.translate.code ∧ cmdCls cmd = cls.code ∧ cmdAmo cmd = amo ∧ cmdMode cmd = 0#2 ∧ cmdSok cmd = false ∧
      cmdTop cmd = 0#6 := by
  cases cls <;> cases amo <;> decide

theorem decode_encode_translate {cls : AccessClass} {amo : Bool} {va : Word}
    (h : (Instr.translate cls amo va).wellFormed = true) :
    decode (encode (.translate cls amo va)) = .ok (.translate cls amo va) := by
  obtain ⟨hop, hcls, hamo, hmode, hsok, htop⟩ := cmdFields_translate cls amo
  have hclass : AccessClass.ofCode cls.code = some cls := by cases cls <;> rfl
  have hopcode : Opcode.ofCode Opcode.translate.code = some .translate := rfl
  have hmodeCode : Mode.ofCode 0#2 = some .user := rfl
  rw [Instr.wellFormed] at h
  simp [decode, encode, unusedFieldError, hop, hcls, hamo, hmode, hsok, htop, hopcode, hclass, hmodeCode, h,
    Opcode.usesCls, Opcode.usesAmo, Opcode.usesMode, Opcode.usesSok, Opcode.usesArg0, Opcode.usesArg1, Opcode.build]

theorem wellFormed_translate {cls : AccessClass} {amo : Bool} (h : amo = true → cls ≠ .fetch) (va : Word) :
    (Instr.translate cls amo va).wellFormed = true := by
  cases amo with
  | false => rfl
  | true => simp [Instr.wellFormed, amoOk, h rfl]

/-- Two steps, the first of which is known, are the second. -/
theorem run_two {s t : State} (h : step s = .next t) : Host.Core.run Sys2Proof.core 2 s = step t := by
  have hfirst : Sys2Proof.core.step s = .next t := h
  show Host.Core.run Sys2Proof.core 2 s = Sys2Proof.core.step t
  simp only [Host.Core.run, hfirst]
  cases Sys2Proof.core.step t <;> rfl

/-- A `TRANSLATE` whose root entry is absent reads it and raises (R155, R160). -/
theorem exec_translate_rootAbsent {s : State} {cls : AccessClass} {amo : Bool} {va p : Word} {mode : Mode}
    (hwf : (Instr.translate cls amo va).wellFormed = true) (hmode : effMode s.regs cls = .ok mode) (hm : mode ≠ .machine)
    (hva : signExtended va) (hread : s.mem.readWord (pteAddr (rootBase s.regs) va 2) = some p) (habsent : pteKind p = .absent) :
    exec (.translate cls amo va) s =
      .next ((s.beginOp.logAll [readRecord cls va (pteAddr (rootBase s.regs) va 2) p]).raise (pfKind cls amo) va) := by
  have hwalk := walk_read (cls := cls) (s := s.beginOp) hread
  rw [afterEntry_absent habsent] at hwalk
  rw [exec_translate_eq hwf, translate_of_walk_bad (s := s.beginOp) hmode hm hva hwalk rfl, andThen_raised, finish_raised]

/-- Settles O9: the store leaves the entry at the address of the walk's first read. -/
theorem storeIsSeenByTheNextWalk : Obligations.StoreIsSeenByTheNextWalk := by
  unfold Obligations.StoreIsSeenByTheNextWalk
  intro s cls amo va pte mode rest hin hamo hmode hm hva
  have hwf := wellFormed_translate hamo va
  have hread := memory_readWord_writeWord_same s.mem (pteAddr (rootBase s.regs) va 2) pte
  rw [run_two (step_store hin), memory_storeBytes_leBytes, step_of_inputs rfl, takeEvent_request (decode_encode_translate hwf)]
  refine ⟨fun t h => ?_, fun habsent => ⟨_, exec_translate_rootAbsent hwf hmode hm hva hread habsent, rfl, rfl⟩⟩
  rcases exec_translate_bus h with ⟨hnot, -⟩ | ⟨e, u, ws, hwalk, hbus, -⟩
  · simp [canonical_of_signExtended hva] at hnot
  · obtain ⟨l, rfl⟩ := walk_first_read hread hwalk
    rw [hbus]
    rfl

/-! ## A table lookup and what it needs -/

section Lookup
variable {s : State} {cls : AccessClass} {mode : Mode} {pa len a p rbase root o : Word} {e : PmpEntry} {n : BitVec 4}

/-- Where memory holds the nibble of an offset, the lookup answers it (R196). -/
theorem pmptNibble_of_tableNibble (h : tableNibble s root o = some n) :
    ∃ l, pmptNibble root o s = .ok n (s.logAll l) := by
  unfold tableNibble at h
  cases hroot : s.mem.readWord (root + pmptOff1 s.cfg.pmpt o * 8#64) with
  | none => simp [hroot] at h
  | some re =>
    simp only [hroot] at h
    split at h
    next hsingle =>
      cases h
      exact ⟨_, pmptNibble_root hroot hsingle⟩
    next hsingle =>
      obtain ⟨le, hleaf, rfl⟩ := Option.map_eq_some_iff.1 h
      exact ⟨_, pmptNibble_leaf hroot (Bool.eq_false_iff.2 hsingle) hleaf⟩

/-- A test point that the table permits is passed, whatever stands on the memory port (R194). -/
theorem pmptPoint_permitted (h : pointAllowed s e rbase cls p = some true) (l : List BusAccess) :
    ∃ k, pmptPoint e.tbase rbase p cls (s.logAll l) = .ok true (s.logAll (l ++ k)) := by
  obtain ⟨n, hnibble, hbit⟩ := Option.map_eq_some_iff.1 h
  obtain ⟨k, hlookup⟩ := pmptNibble_of_tableNibble (s := s.logAll l) hnibble
  exact ⟨k, by rw [pmptPoint, hlookup, andThen_ok, logAll_logAll, logAll_cfg, hbit]⟩

/-- A test point whose table entry has no memory behind it is stuck there (R64). -/
theorem pmptPoint_stuck (h : pointStuckAt s e rbase p a) :
    pmptPoint e.tbase rbase p cls s = .stuck (.unpopulatedRead a) := by
  obtain ⟨hnone, rfl | ⟨re, hroot, hsingle, rfl⟩⟩ := h
  · rw [pmptPoint, pmptNibble_noRoot hnone, andThen_stuck]
  · rw [pmptPoint, pmptNibble_noLeaf hroot hsingle hnone, andThen_stuck]

/-- A fully matching entry that consults its table is decided by it (R190). -/
theorem pmpCheck_of_tableConsulted (hfull : regionMatch PmpEntry.region s.regs.pmp pa len = .full e rbase)
    (htable : tableConsulted s e mode = true) :
    pmpCheck cls mode pa len s = pmptPerm e.tbase rbase cls (testPoints pa len) s := by
  simp only [tableConsulted, Bool.and_eq_true, Bool.not_eq_true', Bool.and_eq_false_imp, beq_iff_eq] at htable
  obtain ⟨⟨hbypass, hext⟩, hbit⟩ := htable
  have hlocked : ¬ (mode = .machine ∧ cfgL e.region.cfg = false) := fun ⟨hmachine, hunlocked⟩ => by
    have hlock : (!cfgL e.region.cfg) = false := hbypass hmachine
    simp [hunlocked] at hlock
  simp only [pmpCheck, hfull, pmpPerm, if_neg hlocked]
  exact if_pos ⟨hext, hbit⟩

/-- A lookup that runs off memory stops the check there (R64, R194). -/
theorem pmpCheck_stuck (h : tableStuckAt s cls mode pa len a) :
    pmpCheck cls mode pa len s = .stuck (.unpopulatedRead a) := by
  obtain ⟨e, rbase, before, p, after, hfull, htable, hpoints, hbefore, hstuck⟩ := h
  obtain ⟨k, hpassed⟩ := pmptPerm_permitted before (p :: after) (fun q hq => pmptPoint_permitted (hbefore q hq)) []
  have hpoint : pmptPoint e.tbase rbase p cls (s.logAll ([] ++ k)) = .stuck (.unpopulatedRead a) := pmptPoint_stuck hstuck
  rw [pmpCheck_of_tableConsulted hfull htable, hpoints, ← logAll_nil s, hpassed, pmptPerm, hpoint, andThen_stuck]

theorem exec_pmpCheck_stuck (hlen : len ≠ 0#64) (h : tableStuckAt s cls mode pa len a) :
    exec (.pmpCheck cls mode pa len) s = .fault (.unpopulatedRead a) := by
  have hwf : (Instr.pmpCheck cls mode pa len).wellFormed = true := by simpa [Instr.wellFormed, regionLenOk] using hlen
  have hcheck : pmpCheck cls mode pa len s.beginOp = .stuck (.unpopulatedRead a) := pmpCheck_stuck h
  simp only [exec, execPmpCheck, serve_of_wellFormed hwf, hcheck, andThen_stuck, finish_stuck]

end Lookup

/-! ## An access that passes the validator -/

section Access
variable {s : State} {cls : AccessClass} {amo : Bool} {va len : Word}

/-- The domains of an `ACCESS` are those of its `TRANSLATE` and of the length (R111). -/
theorem wellFormed_access_iff : (Instr.access cls amo va len).wellFormed = true ↔
    (Instr.translate cls amo va).wellFormed = true ∧ accessLenOk len = true := by
  simp [Instr.wellFormed]

theorem flagsUsable_of_premise (h : flagsPremise s) : flagsUsable s = true := by
  rcases h with h | h <;> simp [flagsUsable, h]

theorem pageUsable_of_premise (h : pagePremise s va len) : pageUsable s va len = true := by
  rcases h with h | h
  · simp [pageUsable, h]
  · have hfits : crossesPage va len = false := decide_eq_false (Nat.not_lt.2 h)
    simp [pageUsable, hfits]

/-- For a width of the domain, the alignment test is divisibility (R78, R133). -/
theorem misaligned_eq_false (hlen : accessLenOk len = true) (h : va.toNat % len.toNat = 0) : misaligned va len = false := by
  have hmask : ∀ k ≤ 64, va.toNat % 2 ^ k = 0 → va &&& BitVec.ofNat 64 (2 ^ k - 1) = 0#64 := fun k hk hmod => by
    have hpow : 2 ^ k ≤ 2 ^ 64 := Nat.pow_le_pow_right (by decide) hk
    apply BitVec.eq_of_toNat_eq
    rw [BitVec.toNat_and, BitVec.toNat_ofNat, Nat.mod_eq_of_lt (by omega), Nat.and_two_pow_sub_one_eq_mod, hmod]
    rfl
  simp only [accessLenOk, Bool.or_eq_true, beq_iff_eq] at hlen
  rw [misaligned, bne_eq_false_iff_eq]
  obtain ((rfl | rfl) | rfl) | rfl := hlen
  · exact hmask 0 (by decide) h
  · exact hmask 1 (by decide) h
  · exact hmask 2 (by decide) h
  · exact hmask 3 (by decide) h

theorem validate_passes (hlen : accessLenOk len = true) (hrange : modeFlag s cls = .translate → signExtended va)
    (halign : s.cfg.alignSoft = true → cls ≠ .fetch → va.toNat % len.toNat = 0) :
    validate cls amo va len s = .ok () s := by
  refine validate_eq_ok.2 ⟨?_, ?_, rfl⟩
  · rw [rangeFault, Bool.and_eq_false_imp, beq_iff_eq]
    intro hflag
    rw [canonical_of_signExtended (hrange hflag)]
    rfl
  · rw [alignFault, Bool.and_eq_false_imp, Bool.and_eq_true, bne_iff_ne]
    exact fun ⟨hsoft, hdata⟩ => misaligned_eq_false hlen (halign hsoft hdata)

/-- An `ACCESS` whose premises hold and whose address the validator passes is the translation and then the region checks (R240). -/
theorem exec_access_eq (hwf : (Instr.access cls amo va len).wellFormed = true) (hflags : flagsPremise s)
    (hpage : pagePremise s va len) (hrange : modeFlag s cls = .translate → signExtended va)
    (halign : s.cfg.alignSoft = true → cls ≠ .fetch → va.toNat % len.toNat = 0) :
    exec (.access cls amo va len) s =
      finish ((accessAddr cls amo va s.beginOp).andThen fun pa u => accessChecks cls pa len u) := by
  have hvalid := validate_passes (s := s.beginOp) (amo := amo) (wellFormed_access_iff.1 hwf).2 hrange halign
  have hf : flagsUsable s.beginOp = true := flagsUsable_of_premise hflags
  have hp : pageUsable s.beginOp va len = true := pageUsable_of_premise hpage
  simp [exec, execAccess, serve_of_wellFormed hwf, hf, hp, access, hvalid]

theorem accessAddr_direct (h : modeFlag s cls = .direct) : accessAddr cls amo va s = .ok va s := by
  simp [accessAddr, h]

theorem accessAddr_translate (h : modeFlag s cls = .translate) :
    accessAddr cls amo va s = (translate cls amo va s).andThen fun w u => .ok (physAddr w va) u := by
  simp [accessAddr, h]

theorem accessChecks_stuck {mode : Mode} {pa a : Word} (hmode : effMode s.regs cls = .ok mode)
    (h : tableStuckAt s cls mode pa len a) : accessChecks cls pa len s = .stuck (.unpopulatedRead a) := by
  simp [accessChecks, hmode, pmpCheck_stuck h]

/-- A `TRANSLATE` that is stuck was stuck in its walk. -/
theorem translate_stuck_of_exec {f : Fault} (hwf : (Instr.translate cls amo va).wellFormed = true)
    (h : exec (.translate cls amo va) s = .fault f) : translate cls amo va s.beginOp = .stuck f := by
  rw [exec_translate_eq hwf] at h
  cases hresult : translate cls amo va s.beginOp with
  | stuck e => simpa [hresult] using h
  | ok | raised | abort => simp [hresult] at h

end Access

/-- Settles O24: the walk stops at the first entry off memory, and so does the lookup; `ACCESS` stops where the operation it has come to
stops. -/
theorem walkOffMemoryIsStuck : Obligations.WalkOffMemoryIsStuck := by
  unfold Obligations.WalkOffMemoryIsStuck
  refine ⟨?walk, ?lookup, ?access⟩
  case walk =>
    intro s cls amo va mode hwf hmode hm hva
    have hstuck {f : Fault} := exec_translate_of_walk_stuck (f := f) hwf hmode hm hva
    refine ⟨fun hnone => hstuck (walk_unpopulated hnone), fun path a pte hpath hlast hle hpointer hnone => hstuck ?_⟩
    obtain ⟨hpos, -, hwalk⟩ := walk_along (cls := cls) (s := s.beginOp) hpath hlast
    rw [show 2 + 1 - path.length = 2 - path.length + 1 by omega, afterEntry_pointer hpointer] at hwalk
    exact hwalk.trans (walk_unpopulated hnone)
  case lookup =>
    exact fun s cls mode pa len a hlen hstuck => exec_pmpCheck_stuck hlen hstuck
  case access =>
    intro s cls amo va len mode hwf hflags hpage halign hmode
    refine ⟨fun x hdirect hstuck => ?_, fun htranslate hm hva => ⟨fun f hwalk => ?_, ?_⟩⟩
    · rw [exec_access_eq hwf hflags hpage (by simp [hdirect]) halign, accessAddr_direct (s := s.beginOp) hdirect, andThen_ok,
        accessChecks_stuck (s := s.beginOp) hmode hstuck, finish_stuck]
    · rw [exec_access_eq hwf hflags hpage (fun _ => hva) halign, accessAddr_translate (s := s.beginOp) htranslate,
        translate_stuck_of_exec (wellFormed_access_iff.1 hwf).1 hwalk, andThen_stuck, andThen_stuck, finish_stuck]
    · intro path a pte x hpath hlast hleaf hgrants hsuper hguide pa hstuck
      obtain ⟨-, hregs, -⟩ := markLeaf_frame cls va a pte (afterReads s cls va path)
      rw [exec_access_eq hwf hflags hpage (fun _ => hva) halign, accessAddr_translate (s := s.beginOp) htranslate,
        translate_completes hmode hm hva hpath hlast hleaf hgrants hsuper hguide, andThen_ok, andThen_ok,
        accessChecks_stuck (pa := physAddr _ va) (hregs ▸ hmode) hstuck, finish_stuck]

/-! ## Frames -/

/-- What an operation that walks has done to memory where it has changed it at all: the write-back of the leaf its walk found; a
raise that came after it is the injector's (R158, R232). -/
structure LeafMarked (s : State) (cls : AccessClass) (va : Word) (t : State) : Prop where
  leaf : ∃ level a p u, walk cls va 2 (rootBase s.regs) s.beginOp = .ok (.leaf level a p) u ∧
    t.mem = s.mem.writeWord a (pteMarked p cls)
  injected : t.out.exc.isSome = true → guideNames s.cfg s.regs.guide cls = true

section Frames
variable {s t : State} {cls : AccessClass} {amo : Bool} {va len w : Word}

theorem translate_ok_mem (h : translate cls amo va s.beginOp = .ok w t) : t.mem = s.mem ∨ LeafMarked s cls va t := by
  obtain ⟨-, -, -, hexc, -, level, a, p, l, ⟨hwalk, -⟩, -, -, hmem, -, -⟩ := translate_ok_frame h
  rcases markLeaf_mem cls va a p (s.beginOp.logAll l) with hsame | ⟨-, hmarked⟩
  · exact .inl (hmem.trans hsame)
  · exact .inr ⟨⟨level, a, p, _, hwalk, hmem.trans hmarked⟩, by simp [hexc]⟩

theorem translate_raised_mem (h : translate cls amo va s.beginOp = .raised t) :
    t.mem = s.mem ∨ LeafMarked s cls va t := by
  obtain ⟨-, -, ⟨-, hmem, -⟩ | ⟨hguide, -, -, -, level, a, p, l, ⟨hwalk, -⟩, hmem, -⟩⟩ := translate_raised_frame h
  · exact .inl hmem
  · rcases markLeaf_mem cls va a p (s.beginOp.logAll l) with hsame | ⟨-, hmarked⟩
    · exact .inl (hmem.trans hsame)
    · exact .inr ⟨⟨level, a, p, _, hwalk, hmem.trans hmarked⟩, fun _ => hguide⟩

theorem exec_translate_mem (h : exec (.translate cls amo va) s = .next t) : t.mem = s.mem ∨ LeafMarked s cls va t := by
  rcases exec_translate_next h with ⟨w, u, hok, rfl⟩ | hraised
  · exact (translate_ok_mem hok).imp id fun hmarked => ⟨hmarked.leaf, hmarked.injected⟩
  · exact translate_raised_mem hraised

/-- An `ACCESS` changes memory by its walk alone, and not under Direct (R240). -/
theorem exec_access_mem (h : exec (.access cls amo va len) s = .next t) :
    t.mem = s.mem ∨ (modeFlag s cls = .translate ∧ LeafMarked s cls va t) := by
  cases exec_access_next h with
  | validateRaised hraised => rcases validate_eq_raised.1 hraised with ⟨-, rfl⟩ | ⟨-, -, rfl⟩ <;> exact .inl rfl
  | translateRaised _ hflag hraised => exact (translate_raised_mem hraised).imp id fun hmarked => ⟨hflag, hmarked⟩
  | direct _ _ _ _ _ _ _ ht => exact .inl (ht ▸ rfl)
  | translated w u _ _ _ _ hflag hok _ _ ht =>
    rw [ht]
    exact (translate_ok_mem hok).imp id fun hmarked => ⟨hflag, hmarked.leaf, hmarked.injected⟩

/-- The leaf that a walk found is the one at the end of every chain that ends in a leaf: there is one chain. -/
theorem LeafMarked.byte_other (h : LeafMarked s cls va t) {path : List (Word × Word)} {a p x : Word}
    (hpath : rootPath s va path = true) (hlast : path.getLast? = some (a, p)) (hleaf : pteKind p = .leaf)
    (hx : ∀ k, k < 8 → x ≠ a + BitVec.ofNat 64 k) : t.mem.byte x = s.mem.byte x := by
  obtain ⟨level, b, q, u, hfound, hmem⟩ := h.leaf
  obtain ⟨-, -, hwalk⟩ := walk_along (cls := cls) (s := s.beginOp) hpath hlast
  rw [afterEntry_leaf hleaf] at hwalk
  cases hwalk.symm.trans hfound
  rw [hmem, memory_byte_writeWord_other _ _ _ _ hx]

/-- Where a leaf was marked, a chain ends in it. -/
theorem LeafMarked.path (h : LeafMarked s cls va t) :
    ∃ path a p, rootPath s va path = true ∧ path.getLast? = some (a, p) ∧ pteKind p = .leaf := by
  obtain ⟨level, a, p, u, hfound, -⟩ := h.leaf
  obtain ⟨path, hpath, hlast⟩ := walkPath_of_walk_leaf hfound
  obtain ⟨l, -, -, -, -, hend⟩ := walk_eq_ok 2 hfound
  obtain ⟨-, -, hleaf, -⟩ := hend _ _ _ rfl
  exact ⟨path, a, p, hpath, hlast, hleaf⟩

end Frames

/-- What a walking operation has done to memory, for both of them. -/
theorem exec_walks_mem {i : Instr} {cls : AccessClass} {amo : Bool} {va : Word} {s t : State} (hwalks : walks i = true)
    (hoperands : faultOperands i = some (cls, amo, va)) (h : exec i s = .next t) :
    t.mem = s.mem ∨ ((i = .access cls amo va (accessLen i) → modeFlag s cls = .translate) ∧ LeafMarked s cls va t) := by
  cases i with
  | translate cls' amo' va' =>
    cases hoperands
    exact (exec_translate_mem h).imp id fun hmarked => ⟨by simp, hmarked⟩
  | access cls' amo' va' len =>
    cases hoperands
    exact (exec_access_mem h).imp id fun ⟨hflag, hmarked⟩ => ⟨fun _ => hflag, hmarked⟩
  | validate | queryMode | refreshMode | checkPerm | pmpCheck | spmpCheck => cases hwalks

/-- Settles O28: memory is as it was, or the leaf at the end of the chain has been marked. -/
theorem walkingOperationsMemoryFrame : Obligations.WalkingOperationsMemoryFrame := by
  unfold Obligations.WalkingOperationsMemoryFrame
  intro i cls amo va s t hwalks hoperands h
  rcases exec_walks_mem hwalks hoperands h with hmem | ⟨hflag, hmarked⟩
  · exact ⟨fun _ _ _ _ _ _ _ _ => by rw [hmem], fun _ => hmem, fun _ _ => hmem, fun _ _ => hmem⟩
  · refine ⟨fun path a pte hpath hlast hleaf x hx => hmarked.byte_other hpath hlast hleaf hx, fun hnone => ?_,
      fun haccess hdirect => ?_, fun hexc hguide => ?_⟩
    · obtain ⟨path, a, p, hpath, hlast, hleaf⟩ := hmarked.path
      exact absurd hleaf (hnone path a p hpath hlast)
    · simp [hflag haccess] at hdirect
    · simp [hmarked.injected hexc] at hguide

/-- Settles O30: each operation that walks no table ends in the state it began with, but for its outputs, `REFRESH_MODE`'s flags and
the trap value of a raise. -/
theorem nonWalkingOperationsFrame : Obligations.NonWalkingOperationsFrame := by
  unfold Obligations.NonWalkingOperationsFrame
  intro i s t hwalks h
  cases i with
  | validate cls amo va len =>
    obtain ⟨-, -, ⟨-, rfl⟩ | hraised⟩ := exec_validate_next h
    · simp
    · rcases validate_eq_raised.1 hraised with ⟨-, rfl⟩ | ⟨-, -, rfl⟩ <;> simp
  | queryMode cls => simp [exec_queryMode_next h]
  | refreshMode =>
    obtain ⟨f, d, -, -, rfl⟩ := exec_refreshMode_next h
    simp
  | checkPerm cls amo sok va pte => rcases exec_checkPerm_next h with rfl | rfl <;> simp
  | pmpCheck cls mode pa len =>
    obtain ⟨b, l, -, rfl⟩ := exec_pmpCheck_next h
    simp
  | spmpCheck cls mode pa len => simp [exec_spmpCheck_next h]
  | translate | access => cases hwalks

end Sys2Proof

/-! Proofs of the statements about the encoding (30_encoding.md): the fields of the command word and their codes, the requests that the
decoder accepts, the rows of the opcode table, the ill-formed requests, the classes of an entry, the NAPOT mask, and the expansion
of an access. -/

namespace Sys2Proof

open Sys2Proof.Machine Sys2Proof.Claims

/-! ## The fields of a command word -/

theorem bool_eq_of_toNat_eq : ∀ {a b : Bool}, a.toNat = b.toNat → a = b := by decide

theorem toNat_append_eq_add {m n : Nat} (x : BitVec m) (y : BitVec n) : (x ++ y).toNat = 2 ^ n * x.toNat + y.toNat := by
  rw [BitVec.toNat_append, Nat.shiftLeft_eq, Nat.mul_comm, ← Nat.two_pow_add_eq_or_of_lt y.isLt]

section Fields
variable (cmd : BitVec 16)

theorem toNat_cmdOp : (cmdOp cmd).toNat = cmd.toNat % 16 := by simp [cmdOp]

theorem toNat_cmdCls : (cmdCls cmd).toNat = cmd.toNat / 16 % 4 := by simp [cmdCls, Nat.shiftRight_eq_div_pow]

theorem toNat_cmdAmo : (cmdAmo cmd).toNat = cmd.toNat / 64 % 2 := Nat.toNat_testBit _ _

theorem toNat_cmdMode : (cmdMode cmd).toNat = cmd.toNat / 128 % 4 := by simp [cmdMode, Nat.shiftRight_eq_div_pow]

theorem toNat_cmdSok : (cmdSok cmd).toNat = cmd.toNat / 512 % 2 := Nat.toNat_testBit _ _

theorem toNat_cmdTop : (cmdTop cmd).toNat = cmd.toNat / 1024 := by
  rw [cmdTop, BitVec.extractLsb'_toNat, Nat.shiftRight_eq_div_pow]
  omega

end Fields

section MkCmd
variable (op : BitVec 4) (cls : BitVec 2) (amo : Bool) (mode : BitVec 2) (sok : Bool)

/-- The command word as a number: each field at its place (R90). -/
theorem toNat_mkCmd : (mkCmd op cls amo mode sok).toNat =
    op.toNat + 16 * cls.toNat + 64 * amo.toNat + 128 * mode.toNat + 512 * sok.toNat := by
  simp only [mkCmd, toNat_append_eq_add, BitVec.toNat_ofBool, BitVec.toNat_ofNat]
  omega

@[simp] theorem cmdOp_mkCmd : cmdOp (mkCmd op cls amo mode sok) = op := by
  apply BitVec.eq_of_toNat_eq
  rw [toNat_cmdOp, toNat_mkCmd]
  omega

@[simp] theorem cmdCls_mkCmd : cmdCls (mkCmd op cls amo mode sok) = cls := by
  apply BitVec.eq_of_toNat_eq
  rw [toNat_cmdCls, toNat_mkCmd]
  omega

@[simp] theorem cmdAmo_mkCmd : cmdAmo (mkCmd op cls amo mode sok) = amo := by
  apply bool_eq_of_toNat_eq
  rw [toNat_cmdAmo, toNat_mkCmd]
  have := amo.toNat_le
  omega

@[simp] theorem cmdMode_mkCmd : cmdMode (mkCmd op cls amo mode sok) = mode := by
  apply BitVec.eq_of_toNat_eq
  rw [toNat_cmdMode, toNat_mkCmd]
  have := amo.toNat_le
  omega

@[simp] theorem cmdSok_mkCmd : cmdSok (mkCmd op cls amo mode sok) = sok := by
  apply bool_eq_of_toNat_eq
  rw [toNat_cmdSok, toNat_mkCmd]
  have := amo.toNat_le
  have := sok.toNat_le
  omega

@[simp] theorem cmdTop_mkCmd : cmdTop (mkCmd op cls amo mode sok) = 0#6 := by
  apply BitVec.eq_of_toNat_eq
  rw [toNat_cmdTop, toNat_mkCmd]
  have := amo.toNat_le
  have := sok.toNat_le
  rw [BitVec.toNat_ofNat]
  omega
end MkCmd

/-- A command word whose bits 15:10 are zero is made of its fields (R90). -/
theorem mkCmd_fields {cmd : BitVec 16} (h : cmdTop cmd = 0#6) :
    mkCmd (cmdOp cmd) (cmdCls cmd) (cmdAmo cmd) (cmdMode cmd) (cmdSok cmd) = cmd := by
  have htop : cmd.toNat / 1024 = 0 := by rw [← toNat_cmdTop, h]; rfl
  apply BitVec.eq_of_toNat_eq
  rw [toNat_mkCmd, toNat_cmdOp, toNat_cmdCls, toNat_cmdAmo, toNat_cmdMode, toNat_cmdSok]
  omega

/-! ## The codes -/

theorem opcode_ofCode_eq_some {c : BitVec 4} {op : Opcode} : Opcode.ofCode c = some op ↔ c = op.code := by
  cases op <;> revert c <;> decide

theorem accessClass_ofCode_eq_some {c : BitVec 2} {cls : AccessClass} :
    AccessClass.ofCode c = some cls ↔ c = cls.code := by
  cases cls <;> revert c <;> decide

theorem mode_ofCode_eq_some {c : BitVec 2} {mode : Mode} : Mode.ofCode c = some mode ↔ c = mode.code := by
  cases mode <;> revert c <;> decide

theorem opcode_code_injective {op op' : Opcode} (h : op.code = op'.code) : op = op' :=
  Option.some.inj ((opcode_ofCode_eq_some.2 rfl).symm.trans (opcode_ofCode_eq_some.2 h))

/-- Every `op` value below 8 is an operation's (R110). -/
theorem exists_opcode_code {c : BitVec 4} (h : c.toNat < 8) : ∃ op : Opcode, c = op.code := by
  have hsome : ∀ c : BitVec 4, c.toNat < 8 → (Opcode.ofCode c).isSome = true := by decide
  obtain ⟨op, hop⟩ := Option.isSome_iff_exists.1 (hsome c h)
  exact ⟨op, opcode_ofCode_eq_some.1 hop⟩

/-- Every class code but 3 is a class's (R92). -/
theorem exists_accessClass_code {c : BitVec 2} (h : c.toNat ≠ 3) : ∃ cls : AccessClass, c = cls.code := by
  have hsome : ∀ c : BitVec 2, c.toNat ≠ 3 → (AccessClass.ofCode c).isSome = true := by decide
  obtain ⟨cls, hcls⟩ := Option.isSome_iff_exists.1 (hsome c h)
  exact ⟨cls, accessClass_ofCode_eq_some.1 hcls⟩

/-- Every mode code but 2 is a mode's (R93). -/
theorem exists_mode_code {c : BitVec 2} (h : c.toNat ≠ 2) : ∃ mode : Mode, c = mode.code := by
  have hsome : ∀ c : BitVec 2, c.toNat ≠ 2 → (Mode.ofCode c).isSome = true := by decide
  obtain ⟨mode, hmode⟩ := Option.isSome_iff_exists.1 (hsome c h)
  exact ⟨mode, mode_ofCode_eq_some.1 hmode⟩

/-! ## The fields an operation uses -/

/-- Every field that the operation does not use is 0 (R91, R111). -/
structure UnusedZero (op : Opcode) (cls : BitVec 2) (amo : Bool) (mode : BitVec 2) (sok : Bool) (arg0 arg1 : Word) : Prop where
  cls : op.usesCls = true ∨ cls = 0#2
  amo : op.usesAmo = true ∨ amo = false
  mode : op.usesMode = true ∨ mode = 0#2
  sok : op.usesSok = true ∨ sok = false
  arg0 : op.usesArg0 = true ∨ arg0 = 0#64
  arg1 : op.usesArg1 = true ∨ arg1 = 0#64

theorem ite_some_eq_none {α : Type} {c : Prop} [Decidable c] {e : α} {x : Option α} :
    (if c then some e else x) = none ↔ ¬ c ∧ x = none := by
  split <;> simp [*]

/-- The decoder's tests for fields that are not used find none (R111). -/
theorem unusedFieldError_eq_none {op : Opcode} {r : Request} : unusedFieldError op r = none ↔
    cmdTop r.cmd = 0#6 ∧ UnusedZero op (cmdCls r.cmd) (cmdAmo r.cmd) (cmdMode r.cmd) (cmdSok r.cmd) r.arg0 r.arg1 := by
  have hused : ∀ {u z : Bool}, ¬ ((!u && !z) = true) ↔ u = true ∨ z = true := by decide
  have hflag : ∀ {u b : Bool}, ¬ ((!u && b) = true) ↔ u = true ∨ b = false := by decide
  simp only [unusedFieldError, ite_some_eq_none, bne, hused, hflag, beq_iff_eq, Decidable.not_not, and_true]
  constructor
  · rintro ⟨htop, hcls, hamo, hmode, hsok, harg0, harg1⟩
    exact ⟨htop, hcls, hamo, hmode, hsok, harg0, harg1⟩
  · rintro ⟨htop, hcls, hamo, hmode, hsok, harg0, harg1⟩
    exact ⟨htop, hcls, hamo, hmode, hsok, harg0, harg1⟩

/-! The rows of R91, each by the fields it leaves 0. -/

section Rows
variable {cls : BitVec 2} {amo : Bool} {mode : BitVec 2} {sok : Bool} {arg0 arg1 : Word}

@[simp] theorem unusedZero_validate : UnusedZero .validate cls amo mode sok arg0 arg1 ↔ mode = 0#2 ∧ sok = false :=
  ⟨fun h => ⟨h.mode.resolve_left nofun, h.sok.resolve_left nofun⟩,
    fun ⟨hmode, hsok⟩ => ⟨.inl rfl, .inl rfl, .inr hmode, .inr hsok, .inl rfl, .inl rfl⟩⟩

@[simp] theorem unusedZero_queryMode : UnusedZero .queryMode cls amo mode sok arg0 arg1 ↔
    amo = false ∧ mode = 0#2 ∧ sok = false ∧ arg0 = 0#64 ∧ arg1 = 0#64 :=
  ⟨fun h => ⟨h.amo.resolve_left nofun, h.mode.resolve_left nofun, h.sok.resolve_left nofun, h.arg0.resolve_left nofun,
      h.arg1.resolve_left nofun⟩,
    fun ⟨hamo, hmode, hsok, harg0, harg1⟩ => ⟨.inl rfl, .inr hamo, .inr hmode, .inr hsok, .inr harg0, .inr harg1⟩⟩

@[simp] theorem unusedZero_refreshMode : UnusedZero .refreshMode cls amo mode sok arg0 arg1 ↔
    cls = 0#2 ∧ amo = false ∧ mode = 0#2 ∧ sok = false ∧ arg0 = 0#64 ∧ arg1 = 0#64 :=
  ⟨fun h => ⟨h.cls.resolve_left nofun, h.amo.resolve_left nofun, h.mode.resolve_left nofun, h.sok.resolve_left nofun,
      h.arg0.resolve_left nofun, h.arg1.resolve_left nofun⟩,
    fun ⟨hcls, hamo, hmode, hsok, harg0, harg1⟩ => ⟨.inr hcls, .inr hamo, .inr hmode, .inr hsok, .inr harg0, .inr harg1⟩⟩

@[simp] theorem unusedZero_translate : UnusedZero .translate cls amo mode sok arg0 arg1 ↔
    mode = 0#2 ∧ sok = false ∧ arg1 = 0#64 :=
  ⟨fun h => ⟨h.mode.resolve_left nofun, h.sok.resolve_left nofun, h.arg1.resolve_left nofun⟩,
    fun ⟨hmode, hsok, harg1⟩ => ⟨.inl rfl, .inl rfl, .inr hmode, .inr hsok, .inl rfl, .inr harg1⟩⟩

@[simp] theorem unusedZero_checkPerm : UnusedZero .checkPerm cls amo mode sok arg0 arg1 ↔ mode = 0#2 :=
  ⟨fun h => h.mode.resolve_left nofun, fun hmode => ⟨.inl rfl, .inl rfl, .inr hmode, .inl rfl, .inl rfl, .inl rfl⟩⟩

@[simp] theorem unusedZero_pmpCheck : UnusedZero .pmpCheck cls amo mode sok arg0 arg1 ↔ amo = false ∧ sok = false :=
  ⟨fun h => ⟨h.amo.resolve_left nofun, h.sok.resolve_left nofun⟩,
    fun ⟨hamo, hsok⟩ => ⟨.inl rfl, .inr hamo, .inl rfl, .inr hsok, .inl rfl, .inl rfl⟩⟩

@[simp] theorem unusedZero_spmpCheck : UnusedZero .spmpCheck cls amo mode sok arg0 arg1 ↔ amo = false ∧ sok = false :=
  ⟨fun h => ⟨h.amo.resolve_left nofun, h.sok.resolve_left nofun⟩,
    fun ⟨hamo, hsok⟩ => ⟨.inl rfl, .inr hamo, .inl rfl, .inr hsok, .inl rfl, .inl rfl⟩⟩

@[simp] theorem unusedZero_access : UnusedZero .access cls amo mode sok arg0 arg1 ↔ mode = 0#2 ∧ sok = false :=
  ⟨fun h => ⟨h.mode.resolve_left nofun, h.sok.resolve_left nofun⟩,
    fun ⟨hmode, hsok⟩ => ⟨.inl rfl, .inl rfl, .inr hmode, .inr hsok, .inl rfl, .inl rfl⟩⟩

end Rows

/-! ## What the decoder accepts -/

/-- The requests the decoder accepts, each with its instruction: the fields that the operation uses, the others 0, and no atomic
fetch (R90, R91, R111). -/
inductive Decoded : Request → Instr → Prop
  | intro (op : Opcode) (cls : AccessClass) (amo : Bool) (mode : Mode) (sok : Bool) (arg0 arg1 : Word)
      (hunused : UnusedZero op cls.code amo mode.code sok arg0 arg1) (hamo : amoOk cls amo = true) :
      Decoded ⟨mkCmd op.code cls.code amo mode.code sok, arg0, arg1⟩ (op.build cls amo mode sok arg0 arg1)

theorem decoded_of_decode {r : Request} {i : Instr} (h : decode r = .ok i) : Decoded r i := by
  obtain ⟨cmd, arg0, arg1⟩ := r
  unfold decode at h
  split at h
  next => cases h
  next op hop =>
  split at h
  next => cases h
  next hfields =>
  split at h
  next => cases h
  next cls hcls =>
  split at h
  next => cases h
  next mode hmode =>
  split at h
  next hamo =>
    cases h
    obtain ⟨htop, hunused⟩ := unusedFieldError_eq_none.1 hfields
    rw [accessClass_ofCode_eq_some] at hcls
    rw [mode_ofCode_eq_some] at hmode
    rw [hcls, hmode] at hunused
    have hdecoded := Decoded.intro op cls (cmdAmo cmd) mode (cmdSok cmd) arg0 arg1 hunused hamo
    rwa [← opcode_ofCode_eq_some.1 hop, ← hcls, ← hmode, mkCmd_fields htop] at hdecoded
  next => cases h

theorem decode_of_decoded {r : Request} {i : Instr} (h : Decoded r i) : decode r = .ok i := by
  obtain ⟨op, cls, amo, mode, sok, arg0, arg1, hunused, hamo⟩ := h
  have hfields : unusedFieldError op ⟨mkCmd op.code cls.code amo mode.code sok, arg0, arg1⟩ = none :=
    unusedFieldError_eq_none.2 (by simpa using hunused)
  simp [decode, opcode_ofCode_eq_some.2 rfl, accessClass_ofCode_eq_some.2 rfl, mode_ofCode_eq_some.2 rfl, hfields, hamo]

/-- The encoder writes the fields that the operation uses, and 0 for the others (R91). -/
theorem encode_build {op : Opcode} {cls : AccessClass} {amo : Bool} {mode : Mode} {sok : Bool} {arg0 arg1 : Word}
    (h : UnusedZero op cls.code amo mode.code sok arg0 arg1) :
    encode (op.build cls amo mode sok arg0 arg1) = ⟨mkCmd op.code cls.code amo mode.code sok, arg0, arg1⟩ := by
  cases op <;> simp at h <;> simp [encode, Opcode.build, h]

/-- Settles O1: the encoding of each instruction is a request that the decoder accepts, with the class `FETCH` and the mode U, whose
codes are 0, in the fields that the operation does not use. -/
theorem decodeOfEncode : Obligations.DecodeOfEncode := by
  unfold Obligations.DecodeOfEncode
  intro i h
  apply decode_of_decoded
  cases i with
  | validate cls amo va len =>
    exact .intro .validate cls amo .user false va len (by simp [Mode.code]) (Bool.and_eq_true_iff.1 h).1
  | queryMode cls => exact .intro .queryMode cls false .user false 0#64 0#64 (by simp [Mode.code]) rfl
  | refreshMode => exact .intro .refreshMode .fetch false .user false 0#64 0#64 (by simp [Mode.code, AccessClass.code]) rfl
  | translate cls amo va => exact .intro .translate cls amo .user false va 0#64 (by simp [Mode.code]) h
  | checkPerm cls amo sok va pte => exact .intro .checkPerm cls amo .user sok va pte (by simp [Mode.code]) h
  | pmpCheck cls mode pa len => exact .intro .pmpCheck cls false mode false pa len (by simp) rfl
  | spmpCheck cls mode pa len => exact .intro .spmpCheck cls false mode false pa len (by simp) rfl
  | access cls amo va len =>
    exact .intro .access cls amo .user false va len (by simp [Mode.code]) (Bool.and_eq_true_iff.1 h).1

/-- Settles O2: a request that decodes is made of the fields that the encoder writes. -/
theorem encodeOfDecode : Obligations.EncodeOfDecode := by
  unfold Obligations.EncodeOfDecode
  intro r i h
  obtain ⟨op, cls, amo, mode, sok, arg0, arg1, hunused, -⟩ := decoded_of_decode h
  exact encode_build hunused

/-- Settles O3: each of the words is the encoding of its instruction. -/
theorem decodesSpecWords : Obligations.DecodesSpecWords := by
  unfold Obligations.DecodesSpecWords
  exact ⟨decodeOfEncode (.validate .load true 0xffffffbfffffffff#64 1#64) rfl, decodeOfEncode (.queryMode .store) rfl,
    decodeOfEncode .refreshMode rfl, decodeOfEncode (.translate .load true 0x1000#64) rfl,
    decodeOfEncode (.checkPerm .load true true 0x1000#64 0xcf#64) rfl,
    decodeOfEncode (.pmpCheck .store .machine 0x80000ffc#64 8#64) rfl,
    decodeOfEncode (.spmpCheck .load .supervisor 0x80000000#64 4#64) rfl,
    decodeOfEncode (.access .store false 0x40203abc#64 4#64) rfl⟩

/-! ## The rows of the opcode table -/

theorem encode_selectsRow (i : Instr) : Laws.EncodeSelectsRow.Statement i := by
  cases i with
  | validate cls amo va len => exact Laws.EncodeSelectsRow.validate cls amo va len
  | queryMode cls => exact Laws.EncodeSelectsRow.queryMode cls
  | refreshMode => exact Laws.EncodeSelectsRow.refreshMode
  | translate cls amo va => exact Laws.EncodeSelectsRow.translate cls amo va
  | checkPerm cls amo sok va pte => exact Laws.EncodeSelectsRow.checkPerm cls amo sok va pte
  | pmpCheck cls mode pa len => exact Laws.EncodeSelectsRow.pmpCheck cls mode pa len
  | spmpCheck cls mode pa len => exact Laws.EncodeSelectsRow.spmpCheck cls mode pa len
  | access cls amo va len => exact Laws.EncodeSelectsRow.access cls amo va len

/-- A command word that selects a row has the row's `op` value: every mask covers bits 3:0 (R110). -/
theorem cmdOp_of_selectsRow {op : Opcode} {cmd : BitVec 16} (h : cmd &&& op.rowMask = op.rowMatch) : cmdOp cmd = op.code := by
  have hmask : cmdOp op.rowMask = BitVec.allOnes 4 := by cases op <;> rfl
  have hmatch : cmdOp op.rowMatch = op.code := by cases op <;> rfl
  calc cmdOp cmd = cmdOp cmd &&& cmdOp op.rowMask := by rw [hmask, BitVec.and_allOnes]
    _ = cmdOp (cmd &&& op.rowMask) := BitVec.extractLsb'_and.symm
    _ = op.code := by rw [h, hmatch]

/-- Settles O4: a request that decodes is an encoding, which selects its row, and the `op` value tells the rows apart. -/
theorem decodeSelectsOneTableRow : Obligations.DecodeSelectsOneTableRow := by
  unfold Obligations.DecodeSelectsOneTableRow
  refine ⟨fun r i h => ?_, fun op op' cmd h h' => ?_⟩
  · rw [← encodeOfDecode r i h]
    exact encode_selectsRow i
  · exact opcode_code_injective ((cmdOp_of_selectsRow h).symm.trans (cmdOp_of_selectsRow h'))

/-! ## Ill-formed requests -/

/-- An ill-formed instruction is `Abort(BadRequest)` in every meaning (R111). -/
theorem exec_of_illFormed {i : Instr} (h : i.wellFormed = false) (s : State) : exec i s = .refused .badRequest := by
  cases i <;> (simp only [exec]; exact serve_of_illFormed h _ _)

/-- R111 on a request with no reserved code: the unused fields are 0 and the operands are in their domains. -/
theorem illFormed_mkCmd (op : Opcode) (cls : AccessClass) (amo : Bool) (mode : Mode) (sok : Bool) (arg0 arg1 : Word) :
    illFormed ⟨mkCmd op.code cls.code amo mode.code sok, arg0, arg1⟩ = false ↔
      UnusedZero op cls.code amo mode.code sok arg0 arg1 ∧ (op.build cls amo mode sok arg0 arg1).wellFormed = true := by
  have hcls : cls.code.toNat ≠ 3 := by cases cls <;> decide
  have hmode : mode.code.toNat ≠ 2 := by cases mode <;> decide
  have hzero : ∀ {c : BitVec 2}, c.toNat = 0 ↔ c = 0#2 := by decide
  have hamo : amoOk cls amo = true ↔ (amo = false ∨ cls.code ≠ 0#2) := by cases cls <;> cases amo <;> decide
  have hlen : accessLenOk arg1 = true ↔ ¬ arg1.toNat ∉ [1, 2, 4, 8] := by
    rw [Decidable.not_not]
    simp [accessLenOk, ← BitVec.toNat_inj, or_assoc]
  have hregion : regionLenOk arg1 = true ↔ arg1.toNat ≠ 0 := by simp [regionLenOk, ← BitVec.toNat_inj]
  simp only [illFormed, ← toNat_cmdOp, ← toNat_cmdCls, ← toNat_cmdAmo, ← toNat_cmdMode, ← toNat_cmdSok, ← toNat_cmdTop,
    cmdOp_mkCmd, cmdCls_mkCmd, cmdAmo_mkCmd, cmdMode_mkCmd, cmdSok_mkCmd, cmdTop_mkCmd, Bool.or_eq_false_iff,
    decide_eq_false_iff_not]
  -- On each operation's row, the clauses of R111 that remain are the operation's unused fields and its domains.
  cases op <;> cases amo <;>
    simp [Opcode.code, Opcode.build, Instr.wellFormed, hcls, hmode, hamo, hlen, hregion, hzero, and_assoc]

theorem amoOk_of_wellFormed {op : Opcode} {cls : AccessClass} {amo : Bool} {mode : Mode} {sok : Bool} {arg0 arg1 : Word}
    (hunused : UnusedZero op cls.code amo mode.code sok arg0 arg1)
    (h : (op.build cls amo mode sok arg0 arg1).wellFormed = true) : amoOk cls amo = true := by
  cases op with
  | validate | access => exact (Bool.and_eq_true_iff.1 h).1
  | translate | checkPerm => exact h
  | queryMode | refreshMode | pmpCheck | spmpCheck =>
    rw [hunused.amo.resolve_left nofun]
    rfl

/-- A request that R111 does not call ill-formed has no reserved code in its fields. -/
theorem exists_mkCmd_of_illFormed_eq_false {r : Request} (h : illFormed r = false) :
    ∃ (op : Opcode) (cls : AccessClass) (amo : Bool) (mode : Mode) (sok : Bool) (arg0 arg1 : Word),
      r = ⟨mkCmd op.code cls.code amo mode.code sok, arg0, arg1⟩ := by
  obtain ⟨cmd, arg0, arg1⟩ := r
  simp only [illFormed, ← toNat_cmdOp, ← toNat_cmdCls, ← toNat_cmdMode, ← toNat_cmdTop, Bool.or_eq_false_iff,
    decide_eq_false_iff_not, and_assoc] at h
  obtain ⟨hop, htop, hnoCls, -, hnoMode, -, -, -, hcls, hmode, -⟩ := h
  obtain ⟨op, hopCode⟩ := exists_opcode_code (c := cmdOp cmd) (by omega)
  obtain ⟨cls, hclsCode⟩ := exists_accessClass_code (c := cmdCls cmd) (by omega)
  obtain ⟨mode, hmodeCode⟩ := exists_mode_code (c := cmdMode cmd) fun htwo =>
    hnoMode ⟨fun hin => hmode ⟨hin, htwo⟩, by omega⟩
  have htopZero : cmdTop cmd = 0#6 := BitVec.eq_of_toNat_eq (Decidable.not_not.1 htop)
  exact ⟨op, cls, cmdAmo cmd, mode, cmdSok cmd, arg0, arg1,
    by rw [← hopCode, ← hclsCode, ← hmodeCode, mkCmd_fields htopZero]⟩

/-- R111's ill-formed requests are those the decoder refuses and those whose instruction is ill-formed. -/
theorem illFormed_eq_false_iff {r : Request} :
    illFormed r = false ↔ ∃ i, decode r = .ok i ∧ i.wellFormed = true := by
  constructor
  · intro h
    obtain ⟨op, cls, amo, mode, sok, arg0, arg1, rfl⟩ := exists_mkCmd_of_illFormed_eq_false h
    obtain ⟨hunused, hwf⟩ := (illFormed_mkCmd ..).1 h
    exact ⟨_, decode_of_decoded (.intro _ _ _ _ _ _ _ hunused (amoOk_of_wellFormed hunused hwf)), hwf⟩
  · rintro ⟨i, hdecode, hwf⟩
    obtain ⟨op, cls, amo, mode, sok, arg0, arg1, hunused, -⟩ := decoded_of_decode hdecode
    exact (illFormed_mkCmd ..).2 ⟨hunused, hwf⟩

/-- Settles O5: what the decoder accepts of an ill-formed request is an ill-formed instruction, which every meaning refuses. -/
theorem illFormedRequestsAreRefused : Obligations.IllFormedRequestsAreRefused := by
  unfold Obligations.IllFormedRequestsAreRefused
  intro s r rest hin
  refine ⟨fun hill => ?_, illFormed_eq_false_iff.1⟩
  rw [step_of_inputs hin]
  cases hdecode : decode r with
  | error e => simp [takeEvent, hdecode]
  | ok i =>
    have hwf : i.wellFormed = false := by
      by_contra hwf
      simp [illFormed_eq_false_iff.2 ⟨i, hdecode, Bool.eq_true_of_not_eq_false hwf⟩] at hill
    rw [takeEvent_request hdecode, exec_of_illFormed hwf]

/-! ## The classes of an entry -/

/-- Settles O34: the class is a function of the low four bits, and the sixteen values of these decide. -/
theorem pteClassesByLowBits : Obligations.PteClassesByLowBits := by
  unfold Obligations.PteClassesByLowBits
  intro p
  have hbits : ∀ i < 4, p.getLsbD i = (p.extractLsb' 0 4).getLsbD i := fun i hi => by
    simp [hi]
  simp only [pteKind, pteV, pteR, pteW, pteX, hbits 0 (by decide), hbits 1 (by decide), hbits 2 (by decide), hbits 3 (by decide)]
  generalize p.extractLsb' 0 4 = low
  revert low
  decide

/-! ## The NAPOT mask -/

/-- Adding 1 to a word clears its run of trailing ones, and no other bit that is set: the bits that are cleared are that run. -/
theorem getLsbD_and_not_add_one {w : Nat} (x : BitVec w) {i : Nat} (hi : i < w) :
    (x &&& ~~~(x + 1#w)).getLsbD i = decide (∀ j < i + 1, x.getLsbD j = true) := by
  have hcarry : BitVec.carry i x 1#w false = ((1#w).getLsbD i ^^ decide (∀ j < i, x.getLsbD j = true)) := by
    cases i with
    | zero => simp [hi]
    | succ n => simp [BitVec.carry_succ_one n x (by omega)]
  simp only [BitVec.getLsbD_and, BitVec.getLsbD_not, BitVec.getLsbD_add hi, hcarry, hi, Nat.forall_lt_succ_right]
  cases x.getLsbD i <;> simp

/-- An address field shifted up by one with a one put below it has a run of trailing ones that is longer by one (R105). -/
theorem trailingOnes_shiftLeft_or_one (a : Word) {n : Nat} (hn : n < 64) :
    (∀ j < n + 1, (a <<< 1 ||| 1#64).getLsbD j = true) ↔ ∀ j < n, a.getLsbD j = true := by
  have hlow : (a <<< 1 ||| 1#64).getLsbD 0 = true := by simp
  have hshift : ∀ j < n, (a <<< 1 ||| 1#64).getLsbD (j + 1) = a.getLsbD j := fun j hj => by
    simp [show j + 1 < 64 by omega, BitVec.getLsbD_eq_getElem (show j < 64 by omega)]
  rw [Nat.forall_lt_succ_left]
  exact ⟨fun ⟨_, h⟩ j hj => hshift j hj ▸ h j hj, fun h => ⟨hlow, fun j hj => (hshift j hj).trans (h j hj)⟩⟩

/-- The NAPOT mask has the bits that lie above the field's run of trailing ones and the zero that ends it (R105). -/
theorem getLsbD_napotMask (a : Word) (i : Nat) :
    (napotMask a).getLsbD i = true ↔ i < 64 ∧ 2 ≤ i ∧ ¬ ∀ j < i - 2, a.getLsbD j = true := by
  simp only [napotMask, BitVec.getLsbD_shiftLeft, BitVec.getLsbD_not]
  by_cases hi : i < 64 ∧ 2 ≤ i
  · obtain ⟨hlt, hle⟩ := hi
    have hsub : i - 2 < 64 := by omega
    simp only [getLsbD_and_not_add_one _ hsub, trailingOnes_shiftLeft_or_one a hsub]
    simp [hlt, hsub, hle, Nat.not_lt.2 hle]
  · simp
    omega

/-- A mask compares the bits it has (R105, R106). -/
theorem maskMatch_iff (mask a cur : Word) :
    maskMatch mask a cur = true ↔ ∀ i, mask.getLsbD i = true → cur.getLsbD i = (a <<< 2).getLsbD i := by
  rw [maskMatch, beq_iff_eq, regionBound]
  constructor
  · intro h i hmask
    have hbit := congrArg (BitVec.getLsbD · i) h
    simpa [hmask] using hbit
  · intro h
    apply BitVec.eq_of_getLsbD_eq
    intro i hi
    cases hmask : mask.getLsbD i with
    | false => simp [hmask]
    | true => simp [hmask, h i hmask]

/-- Settles O42: the mask has exactly the bits from `k + 3` upward, and the match compares the bits of the mask. -/
theorem napotMatchesItsBlock : Obligations.NapotMatchesItsBlock := by
  unfold Obligations.NapotMatchesItsBlock
  intro a cur k hk hones hzero
  have hrun (i : Nat) (hi : i < 64) : (∀ j < i - 2, a.getLsbD j = true) ↔ i < k + 3 := by
    constructor
    · intro h
      by_contra hle
      simpa [hzero (by omega)] using h k (by omega)
    · exact fun hlt j hj => hones j (by omega)
  rw [maskMatch_iff]
  constructor
  · intro h i hki hi
    exact h i ((getLsbD_napotMask a i).2 ⟨hi, by omega, by rw [hrun i hi]; omega⟩)
  · intro h i hmask
    obtain ⟨hi, -, hnot⟩ := (getLsbD_napotMask a i).1 hmask
    rw [hrun i hi] at hnot
    exact h i (by omega) hi

/-! ## A region check does not look at the ports -/

/-- The state with other outputs on its ports. -/
def Machine.State.setOut (s : State) (p : Outputs) : State := { s with out := p }

section Ports
variable {s t : State} {root rbase o cur pa len : Word} {cls : AccessClass} {mode : Mode} {b : Bool} {n : BitVec 4}

/-- The lookup's answer is the nibble that memory holds (R196). -/
theorem tableNibble_of_pmptNibble (h : pmptNibble root o s = .ok n t) : tableNibble s root o = some n := by
  unfold tableNibble
  cases hroot : s.mem.readWord (root + pmptOff1 s.cfg.pmpt o * 8#64) with
  | none => simp [pmptNibble_noRoot hroot] at h
  | some re =>
    cases hsingle : pmptSingle s.cfg.pmpt re with
    | true =>
      rw [pmptNibble_root hroot hsingle] at h
      cases h
      simp [hsingle]
    | false =>
      cases hleaf : s.mem.readWord (pmptLeafBase s.cfg.pmpt re + pmptOff0 s.cfg.pmpt o * 8#64) with
      | none => simp [pmptNibble_noLeaf hroot hsingle hleaf] at h
      | some le =>
        rw [pmptNibble_leaf hroot hsingle hleaf] at h
        cases h
        simp [hsingle, hleaf]

theorem pmptPoint_setOut (h : pmptPoint root rbase cur cls s = .ok b t) (p : Outputs) :
    ∃ l, pmptPoint root rbase cur cls (s.setOut p) = .ok b ((s.setOut p).logAll l) := by
  obtain ⟨k, rfl, -⟩ := pmptPoint_reads h
  obtain ⟨n, u, hnibble, hanswer⟩ := andThen_eq_ok.1 h
  obtain ⟨hbit, rfl⟩ := Res.ok.inj hanswer
  have htable := tableNibble_of_pmptNibble hnibble
  obtain ⟨l, hlookup⟩ := pmptNibble_of_tableNibble (s := s.setOut p) htable
  exact ⟨l, by rw [pmptPoint, hlookup, andThen_ok, ← hbit]; rfl⟩

theorem pmptPerm_setOut (pts : List Word) (h : pmptPerm root rbase cls pts s = .ok b t) (p : Outputs) :
    ∃ l, pmptPerm root rbase cls pts (s.setOut p) = .ok b ((s.setOut p).logAll l) := by
  induction pts generalizing s p with
  | nil =>
    cases h
    exact ⟨[], by rw [logAll_nil, pmptPerm]⟩
  | cons q qs ih =>
    obtain ⟨allowed, u, hpoint, hrest⟩ := andThen_eq_ok.1 h
    obtain ⟨k, rfl, -⟩ := pmptPoint_reads hpoint
    obtain ⟨l, hpoint'⟩ := pmptPoint_setOut hpoint p
    cases allowed with
    | false =>
      cases hrest
      exact ⟨l, by rw [pmptPerm, hpoint']; rfl⟩
    | true =>
      obtain ⟨j, hrest'⟩ := ih hrest ((s.setOut p).logAll l).out
      exact ⟨l ++ j, by rw [pmptPerm, hpoint', ← logAll_logAll]; exact hrest'⟩

theorem pmpPerm_setOut {e : PmpEntry} (h : pmpPerm e rbase pa len cls mode s = .ok b t) (p : Outputs) :
    ∃ l, pmpPerm e rbase pa len cls mode (s.setOut p) = .ok b ((s.setOut p).logAll l) := by
  unfold pmpPerm at h ⊢
  split at h
  next hbypass =>
    cases h
    exact ⟨[], by rw [if_pos hbypass, logAll_nil]⟩
  next hbypass =>
    rw [if_neg hbypass]
    split at h
    next htable =>
      obtain ⟨l, hperm⟩ := pmptPerm_setOut _ h p
      exact ⟨l, (if_pos htable).trans hperm⟩
    next htable =>
      cases h
      exact ⟨[], (if_neg htable).trans (by rw [logAll_nil])⟩

/-- `PMP_CHECK` answers the same whatever stands on the ports (R180). -/
theorem pmpCheck_setOut (h : pmpCheck cls mode pa len s = .ok b t) (p : Outputs) :
    ∃ l, pmpCheck cls mode pa len (s.setOut p) = .ok b ((s.setOut p).logAll l) := by
  have hregs : (s.setOut p).regs = s.regs := rfl
  simp only [pmpCheck, hregs] at h ⊢
  cases hmatch : regionMatch PmpEntry.region s.regs.pmp pa len with
  | full e rbase =>
    rw [hmatch] at h
    exact pmpPerm_setOut h p
  | partialMatch e | none =>
    rw [hmatch] at h
    cases h
    exact ⟨[], by rw [logAll_nil]⟩

end Ports

/-! ## The expansion of an access -/

section Expansion
variable {s s1 s2 s3 s4 s5 : State} {cls : AccessClass} {amo : Bool} {va len pa w : Word} {mode : Mode}

/-- A `VALIDATE` that ends without an exception has answered `Ok`. -/
theorem exec_validate_ok (h : exec (.validate cls amo va len) s = .next s1) (hexc : s1.out.exc = none) :
    (Instr.validate cls amo va len).wellFormed = true ∧ flagsUsable s.beginOp = true ∧
      validate cls amo va len s.beginOp = .ok () s.beginOp ∧ s1 = s.beginOp.respond (okResponse 0#64) := by
  obtain ⟨hwf, hflags, hok | hraised⟩ := exec_validate_next h
  · exact ⟨hwf, hflags, hok⟩
  · rcases validate_eq_raised.1 hraised with ⟨-, rfl⟩ | ⟨-, -, rfl⟩ <;> cases hexc

/-- A `TRANSLATE` that ends without an exception has answered `Ok`. -/
theorem exec_translate_ok (h : exec (.translate cls amo va) s = .next s1) (hexc : s1.out.exc = none) :
    ∃ w u, translate cls amo va s.beginOp = .ok w u ∧ s1 = u.respond (okResponse w) := by
  rcases exec_translate_next h with hok | hraised
  · exact hok
  · obtain ⟨-, -, ⟨-, -, -, hsome, -⟩ | ⟨-, -, -, hsome, -⟩⟩ := translate_raised_frame hraised <;> simp [hsome] at hexc

/-- An `ACCESS` whose `VALIDATE` passes is the translation and then the region checks (R240). -/
theorem exec_access_of_validate (hpage : pagePremise s va len) (h : exec (.validate cls amo va len) s = .next s1)
    (hexc : s1.out.exc = none) :
    exec (.access cls amo va len) s =
      finish ((accessAddr cls amo va s.beginOp).andThen fun pa u => accessChecks cls pa len u) := by
  obtain ⟨hwf, hflags, hvalid, -⟩ := exec_validate_ok h hexc
  have hp : pageUsable s.beginOp va len = true := pageUsable_of_premise hpage
  have hwf' : (Instr.access cls amo va len).wellFormed = true := hwf
  simp [exec, execAccess, serve_of_wellFormed hwf', hflags, hp, access, hvalid]

/-- The address step of an `ACCESS` is that of its expansion (R118, R240, R242), `QUERY_MODE` and, where it answers Translate,
`TRANSLATE`; the operation after them starts from the same state. -/
theorem accessAddr_of_expansion (hquery : exec (.queryMode cls) s1 = .next s2) (hs1 : s1.beginOp = s.beginOp)
    (htranslate : answered s2 = some 1#64 → exec (.translate cls amo va) s2 = .next s3 ∧ s3.out.exc = none ∧
      answered s3 = some w ∧ pa = w.extractLsb' 12 52 ++ va.extractLsb' 0 12)
    (hdirect : answered s2 = some 0#64 → s3 = s2 ∧ pa = va) :
    ∃ u, accessAddr cls amo va s.beginOp = .ok pa u ∧ u.beginOp = s3.beginOp ∧ u.regs = s.regs ∧ u.cfg = s.cfg ∧
      u.out.exc = none := by
  have hs2 := exec_queryMode_next hquery
  have hflag : modeFlag s1 cls = modeFlag s.beginOp cls := hs1 ▸ rfl
  have hbegin : s2.beginOp = s.beginOp := by rw [hs2, State.respond_beginOp, State.beginOp_beginOp, hs1]
  have hanswer : answered s2 = some ((modeFlag s.beginOp cls).code.setWidth 64) := by rw [hs2, hflag]; rfl
  cases hmode : modeFlag s.beginOp cls with
  | direct =>
    obtain ⟨rfl, rfl⟩ := hdirect (by rw [hanswer, hmode]; rfl)
    exact ⟨s.beginOp, accessAddr_direct hmode, hbegin.symm, rfl, rfl, rfl⟩
  | translate =>
    obtain ⟨hexec, hexc, hvalue, rfl⟩ := htranslate (by rw [hanswer, hmode]; rfl)
    obtain ⟨x, u, hok, rfl⟩ := exec_translate_ok hexec hexc
    cases hvalue
    rw [hbegin] at hok
    obtain ⟨hset, -⟩ := translate_ok_frame hok
    exact ⟨u, by rw [accessAddr_translate hmode, hok]; rfl, rfl, hset.regs, hset.cfg, hexc⟩

/-- The region checks of an `ACCESS` are those of its expansion (R243), whatever stands on the ports. -/
theorem accessChecks_of_expansion {u : State} (hpmp : exec (.pmpCheck cls mode pa len) s3 = .next s4)
    (hspmp : exec (.spmpCheck cls mode pa len) s4 = .next s5) (hu : u.beginOp = s3.beginOp) (hmode : effMode u.regs cls = .ok mode) :
    ∃ l, accessChecks cls pa len u =
        .ok (accessResponse pa (answered s4 == some 1#64) (!u.cfg.spmpEn || answered s5 == some 1#64)) (u.logAll l) ∧
      s5.beginOp = u.beginOp := by
  obtain ⟨b, k, hcheck, rfl⟩ := exec_pmpCheck_next hpmp
  have hs5 := exec_spmpCheck_next hspmp
  rw [← hu] at hcheck hs5
  obtain ⟨l, hcheck'⟩ : ∃ l, pmpCheck cls mode pa len u = .ok b (u.logAll l) := pmpCheck_setOut hcheck u.out
  have hbool : ∀ c : Bool, (some (boolWord c) == some 1#64) = c := by decide
  refine ⟨l, ?_, ?_⟩
  · simp [accessChecks, hmode, hcheck', spmpAllows, hs5, answered, okResponse, hbool]
  · simp [hs5]

end Expansion

/-- Settles O52: `ACCESS` takes the steps of its expansion, each from a state that differs from the expansion's in the ports alone. -/
theorem accessEqualsItsExpansion : Obligations.AccessEqualsItsExpansion := by
  unfold Obligations.AccessEqualsItsExpansion
  intro s s1 s2 s3 s4 s5 cls amo va len mode w pa hpage hvalidate hexc hquery htranslate hdirect hmode hpmp hspmp
  obtain ⟨-, -, -, hs1⟩ := exec_validate_ok hvalidate hexc
  obtain ⟨u, haddr, hbegin, hregs, hcfg, huexc⟩ :=
    accessAddr_of_expansion (s := s) hquery (hs1 ▸ rfl) htranslate hdirect
  obtain ⟨l, hchecks, hs5⟩ := accessChecks_of_expansion hpmp hspmp hbegin (hregs ▸ hmode)
  refine ⟨(u.logAll l).respond (accessResponse pa (answered s4 == some 1#64) (!u.cfg.spmpEn || answered s5 == some 1#64)),
    ?access, ?state, ?exc, ?resp⟩
  case access => rw [exec_access_of_validate hpage hvalidate hexc, haddr, andThen_ok, hchecks, finish_ok]
  case state =>
    calc s5 = s5.beginOp.setOut s5.out := rfl
      _ = u.beginOp.setOut s5.out := by rw [hs5]
  case exc => exact huexc
  case resp => rw [State.respond_out_resp, hcfg]; rfl

end Sys2Proof

/-! Proofs of the statements about the address range validator (40_address_range_validator.md): the four descriptions of a canonical
address, the alignment test as a remainder, and the three ways `VALIDATE` answers. -/

namespace Sys2Proof

open Sys2Proof.Machine Sys2Proof.Claims

/-! ## Canonical addresses -/

section Canonical
variable {va : Word}

/-- R131 bit by bit: the model compares the whole slice of bits 63:39. -/
theorem canonical_iff_signExtended : canonical va = true ↔ signExtended va := by
  refine ⟨fun h i hlow hhigh => ?_, canonical_of_signExtended⟩
  have hslice : (va.extractLsb' 39 25).getLsbD (i - 39) = va.getLsbD i := by
    rw [BitVec.getLsbD_extractLsb', decide_eq_true (by omega), Bool.true_and, Nat.add_sub_cancel' hlow]
  rw [canonical, beq_iff_eq] at h
  rw [← hslice, h]
  cases va.getLsbD 38
  · rw [if_neg Bool.false_ne_true, BitVec.getLsbD_zero]
  · rw [if_pos rfl, BitVec.getLsbD_allOnes, decide_eq_true (by omega)]

theorem signExtended_iff_signExtend_eq : signExtended va ↔ (va.setWidth 39).signExtend 64 = va := by
  have hbit : ∀ i < 64, ((va.setWidth 39).signExtend 64).getLsbD i = if i < 39 then va.getLsbD i else va.getLsbD 38 :=
    fun i hi => by
      rw [BitVec.getLsbD_signExtend, decide_eq_true hi, Bool.true_and, BitVec.msb_eq_getLsbD_last]
      split
      next hlow => rw [BitVec.getLsbD_setWidth, decide_eq_true hlow, Bool.true_and]
      next => simp
  rw [BitVec.eq_of_getLsbD_eq_iff]
  constructor
  · intro h i hi
    rw [hbit i hi]
    split
    · rfl
    next hhigh => exact (h i (Nat.le_of_not_lt hhigh) hi).symm
  · intro h i hlow hi
    rw [← h i hi, hbit i hi, if_neg (Nat.not_lt.2 hlow)]

/-- The bits from 38 up are copies of one another when all are 0 or all are 1. -/
theorem signExtended_iff_top : signExtended va ↔ va.extractLsb' 38 26 = 0#26 ∨ va.extractLsb' 38 26 = 0x3ffffff#26 := by
  have hbit : ∀ i < 26, (va.extractLsb' 38 26).getLsbD i = va.getLsbD (38 + i) := fun i hi => by
    rw [BitVec.getLsbD_extractLsb', decide_eq_true hi, Bool.true_and]
  have hones : ∀ i < 26, (0x3ffffff#26).getLsbD i = true := by decide
  constructor
  · intro h
    have htop : ∀ i < 26, (va.extractLsb' 38 26).getLsbD i = va.getLsbD 38 := fun i hi => by
      rw [hbit i hi]
      rcases i with - | i
      · rfl
      · exact h _ (by omega) (by omega)
    cases hsign : va.getLsbD 38 with
    | false => exact .inl (BitVec.eq_of_getLsbD_eq fun i hi => by rw [htop i hi, hsign, BitVec.getLsbD_zero])
    | true => exact .inr (BitVec.eq_of_getLsbD_eq fun i hi => by rw [htop i hi, hsign, hones i hi])
  · intro h i hlow hhigh
    have hi : va.getLsbD i = (va.extractLsb' 38 26).getLsbD (i - 38) := by
      rw [hbit _ (by omega), Nat.add_sub_cancel' (by omega)]
    have hsign : va.getLsbD 38 = (va.extractLsb' 38 26).getLsbD 0 := (hbit 0 (by decide)).symm
    rw [hi, hsign]
    rcases h with h | h
    · rw [h, BitVec.getLsbD_zero, BitVec.getLsbD_zero]
    · rw [h, hones _ (by omega), hones 0 (by decide)]

theorem top_iff_ranges : va.extractLsb' 38 26 = 0#26 ∨ va.extractLsb' 38 26 = 0x3ffffff#26 ↔
    va.toNat ≤ 0x0000003fffffffff ∨ 0xffffffc000000000 ≤ va.toNat := by
  have hlt : va.toNat < 2 ^ 64 := va.isLt
  rw [← BitVec.toNat_inj, ← BitVec.toNat_inj, BitVec.extractLsb'_toNat, Nat.shiftRight_eq_div_pow]
  simp only [BitVec.toNat_ofNat]
  omega

end Canonical

/-- Settles O13: each description is compared with "bits 63:39 each equal bit 38", the ranges by way of bits 63:38. -/
theorem canonicalAddressRanges : Obligations.CanonicalAddressRanges := by
  unfold Obligations.CanonicalAddressRanges
  intro va
  rw [canonical_iff_signExtended]
  exact ⟨signExtended_iff_top.trans top_iff_ranges, signExtended_iff_signExtend_eq, signExtended_iff_top, Iff.rfl⟩

/-! ## The answers of `VALIDATE` -/

section Validate
variable {s : State} {cls : AccessClass} {amo : Bool} {va len : Word}

theorem rangeFault_iff : rangeFault s cls va = true ↔ modeFlag s cls = .translate ∧ ¬ signExtended va := by
  rw [rangeFault, Bool.and_eq_true, beq_iff_eq, Bool.not_eq_true', ← canonical_iff_signExtended, Bool.not_eq_true]

/-- A width of the domain is a power of two, and the low bits that its mask keeps are the remainder. -/
theorem misaligned_iff (hlen : accessLenOk len = true) : misaligned va len = true ↔ va.toNat % len.toNat ≠ 0 := by
  refine ⟨fun h hmod => by simp [misaligned_eq_false hlen hmod] at h, fun hmod => ?_⟩
  rw [misaligned, bne_iff_ne]
  refine fun hzero => hmod ?_
  have hand : va.toNat &&& (len - 1#64).toNat = 0 := by rw [← BitVec.toNat_and, hzero]; rfl
  have hpow : ∀ k, va.toNat &&& (2 ^ k - 1) = 0 → va.toNat % 2 ^ k = 0 := fun k h => by
    rwa [← Nat.and_two_pow_sub_one_eq_mod]
  simp only [accessLenOk, Bool.or_eq_true, beq_iff_eq] at hlen
  obtain ((rfl | rfl) | rfl) | rfl := hlen
  · exact hpow 0 hand
  · exact hpow 1 hand
  · exact hpow 2 hand
  · exact hpow 3 hand

theorem misalignedKind_eq : misalignedKind cls amo = if cls = .store ∨ amo = true then .sam else .lam := by
  cases cls <;> cases amo <;> rfl

/-- A well-formed `VALIDATE` whose flags premise holds is served by its body. -/
theorem exec_validate_eq (hwf : (Instr.validate cls amo va len).wellFormed = true) (hflags : flagsPremise s) :
    exec (.validate cls amo va len) s =
      finish ((validate cls amo va len s.beginOp).andThen fun _ u => .ok (okResponse 0#64) u) := by
  have hf : flagsUsable s.beginOp = true := flagsUsable_of_premise hflags
  simp only [exec, execValidate, serve_of_wellFormed hwf, if_pos hf]

/-- A raise of the validator's body is the answer of `VALIDATE`. -/
theorem exec_validate_raised (hwf : (Instr.validate cls amo va len).wellFormed = true) (hflags : flagsPremise s) {t : State}
    (h : validate cls amo va len s.beginOp = .raised t) : exec (.validate cls amo va len) s = .next t := by
  rw [exec_validate_eq hwf hflags, h, andThen_raised, finish_raised]

theorem accessLenOk_of_wellFormed_validate (hwf : (Instr.validate cls amo va len).wellFormed = true) :
    accessLenOk len = true :=
  (Bool.and_eq_true_iff.1 hwf).2

end Validate

/-- Settles O10: neither test of the validator fails, so its body answers. -/
theorem validateCompletes : Obligations.ValidateCompletes := by
  unfold Obligations.ValidateCompletes
  intro s cls amo va len hwf hflags hrange halign
  have hpass : validate cls amo va len s.beginOp = .ok () s.beginOp :=
    validate_passes (accessLenOk_of_wellFormed_validate hwf) hrange halign
  rw [exec_validate_eq hwf hflags, hpass, andThen_ok, finish_ok]

/-- Settles O11: the range test comes first (R135), so the alignment of the address is not asked. -/
theorem validateRaisesOnNonCanonical : Obligations.ValidateRaisesOnNonCanonical := by
  unfold Obligations.ValidateRaisesOnNonCanonical
  intro s cls amo va len hwf hflags hflag hva
  have hrange : rangeFault s.beginOp cls va = true := rangeFault_iff.2 ⟨hflag, hva⟩
  exact exec_validate_raised hwf hflags (validate_eq_raised.2 (.inl ⟨hrange, rfl⟩))

/-- Settles O12: the range test passes and the alignment test fails. -/
theorem validateRaisesOnMisaligned : Obligations.ValidateRaisesOnMisaligned := by
  unfold Obligations.ValidateRaisesOnMisaligned
  intro s cls amo va len hwf hflags hva hsoft hdata hmod
  have hrange : rangeFault s.beginOp cls va = false := by
    rw [Bool.eq_false_iff, ne_eq, rangeFault_iff]
    exact fun ⟨hflag, hnot⟩ => hnot (hva hflag)
  have hmis : misaligned va len = true := (misaligned_iff (accessLenOk_of_wellFormed_validate hwf)).2 hmod
  have halign : alignFault s.beginOp.cfg cls va len = true := by simp [alignFault, hsoft, hdata, hmis]
  rw [← misalignedKind_eq]
  exact exec_validate_raised hwf hflags (validate_eq_raised.2 (.inr ⟨hrange, halign, rfl⟩))

end Sys2Proof

/-! Proofs of the statements about the MMU mode cache (41_mmu_mode_cache.md): the effective mode by its code, the cases of
`computeMode`, and the answers of `QUERY_MODE` and `REFRESH_MODE`. -/

namespace Sys2Proof

open Sys2Proof.Machine Sys2Proof.Claims

/-! ## The effective mode by its code -/

section EffectiveMode
variable {r : CoreRegs} {cls : AccessClass} {mode : Mode}

/-- The override stands for a data access only (R265). -/
theorem effModeCode_eq : effModeCode r cls = if r.mprv = true ∧ cls ≠ .fetch then r.mpp else r.curMode := by
  simp only [effModeCode, Bool.and_eq_true, bne_iff_ne]

@[simp] theorem effModeCode_fetch (r : CoreRegs) : effModeCode r .fetch = r.curMode := by
  simp [effModeCode_eq]

theorem effModeCode_of_override (hmprv : r.mprv = true) (hdata : cls ≠ .fetch) : effModeCode r cls = r.mpp := by
  rw [effModeCode_eq, if_pos ⟨hmprv, hdata⟩]

theorem effMode_eq_ok : effMode r cls = .ok mode ↔ effModeCode r cls = mode.code := by
  rw [← mode_ofCode_eq_some, effMode]
  cases Mode.ofCode (effModeCode r cls) <;> simp

/-- Code 2 is the one that is no mode (R93, R265). -/
theorem effMode_of_code_two (h : effModeCode r cls = 2#2) : effMode r cls = .error .badMode := by
  rw [effMode, h]
  rfl

theorem exists_effMode_below_machine (h : effModeCode r cls = 0#2 ∨ effModeCode r cls = 1#2) :
    ∃ mode, effMode r cls = .ok mode ∧ mode ≠ .machine := by
  rcases h with h | h
  · exact ⟨.user, effMode_eq_ok.2 h, by decide⟩
  · exact ⟨.supervisor, effMode_eq_ok.2 h, by decide⟩

/-! ## `computeMode` by its cases -/

theorem computeMode_of_effMode_error {e : Refusal} (h : effMode r cls = .error e) : computeMode r cls = .error e := by
  simp only [computeMode, h]

/-- In machine mode the selector is not looked at (R142). -/
theorem computeMode_of_machine (h : effMode r cls = .ok .machine) : computeMode r cls = .ok .direct := by
  simp only [computeMode, h]

/-- Below machine mode the selector alone decides (R140, R142). -/
theorem computeMode_below_machine (h : effMode r cls = .ok mode) (hm : mode ≠ .machine) :
    computeMode r cls =
      if satpMode r.satp = 8#4 then .ok .translate
      else if satpMode r.satp = 0#4 then .ok .direct
      else .error .unsupportedPagingMode := by
  cases mode with
  | user | supervisor => simp only [computeMode, h]
  | machine => exact absurd rfl hm

theorem computeMode_translate (h : effMode r cls = .ok mode) (hm : mode ≠ .machine) (h8 : satpMode r.satp = 8#4) :
    computeMode r cls = .ok .translate := by
  rw [computeMode_below_machine h hm, if_pos h8]

theorem computeMode_off (h : effMode r cls = .ok mode) (hm : mode ≠ .machine) (h0 : satpMode r.satp = 0#4) :
    computeMode r cls = .ok .direct := by
  have h8 : satpMode r.satp ≠ 8#4 := by rw [h0]; decide
  rw [computeMode_below_machine h hm, if_neg h8, if_pos h0]

theorem computeMode_unsupported (h : effMode r cls = .ok mode) (hm : mode ≠ .machine)
    (h8 : satpMode r.satp ≠ 8#4) (h0 : satpMode r.satp ≠ 0#4) :
    computeMode r cls = .error .unsupportedPagingMode := by
  rw [computeMode_below_machine h hm, if_neg h8, if_neg h0]

/-- Loads and stores have one data flag (R141): the override does not tell them apart. -/
theorem computeMode_store_eq_load (r : CoreRegs) : computeMode r .store = computeMode r .load := rfl

end EffectiveMode

/-! ## The answers of `QUERY_MODE` and `REFRESH_MODE` -/

section ModeCache
variable {s : State} {cls : AccessClass} {f d : MmuMode} {e : Refusal}

theorem modeFlag_eq : modeFlag s cls = if cls = .fetch then s.fetchMode else s.dataMode := by
  cases cls <;> rfl

theorem mmuModeWord_eq (m : MmuMode) : m.code.setWidth 64 = if m = .translate then 1#64 else 0#64 := by
  cases m <;> rfl

theorem boolWord_bne (d d' : MmuMode) : boolWord (d != d') = if d = d' then 0#64 else 1#64 := by
  by_cases h : d = d' <;> simp [boolWord, h]

theorem exec_queryMode_eq (hflags : flagsPremise s) :
    exec (.queryMode cls) s = .next (s.beginOp.respond (okResponse ((modeFlag s cls).code.setWidth 64))) := by
  have hwf : (Instr.queryMode cls).wellFormed = true := rfl
  have hf : flagsUsable s.beginOp = true := flagsUsable_of_premise hflags
  rw [exec, execQueryMode, serve_of_wellFormed hwf, if_pos hf, finish_ok]
  rfl

theorem exec_refreshMode_eq (s : State) :
    exec .refreshMode s =
      finish ((refresh s.beginOp).andThen fun changed t => .ok (okResponse (boolWord changed)) t) := by
  have hwf : Instr.refreshMode.wellFormed = true := rfl
  rw [exec, execRefreshMode, serve_of_wellFormed hwf]

theorem exec_refreshMode_completes (hf : computeMode s.regs .fetch = .ok f) (hd : computeMode s.regs .load = .ok d) :
    exec .refreshMode s = .next ((s.beginOp.setModes f d).respond (okResponse (boolWord (d != s.dataMode)))) := by
  simp [exec_refreshMode_eq, refresh, hf, hd]

theorem exec_refreshMode_fetch_aborts (hf : computeMode s.regs .fetch = .error e) :
    exec .refreshMode s = .refused e := by
  simp [exec_refreshMode_eq, refresh, hf]

theorem exec_refreshMode_load_aborts (hf : computeMode s.regs .fetch = .ok f)
    (hd : computeMode s.regs .load = .error e) : exec .refreshMode s = .refused e := by
  simp [exec_refreshMode_eq, refresh, hf, hd]

end ModeCache

/-- Settles O14: with its flags premise the query is served, and the answer is the code of the stored flag. -/
theorem queryModeAnswersStoredFlag : Obligations.QueryModeAnswersStoredFlag := by
  unfold Obligations.QueryModeAnswersStoredFlag
  intro s cls hflags
  rw [exec_queryMode_eq hflags, mmuModeWord_eq, modeFlag_eq]

/-- Settles O15, by the outcomes of the two computations. -/
theorem refreshModeCompletes : Obligations.RefreshModeCompletes := by
  unfold Obligations.RefreshModeCompletes
  intro s
  refine ⟨computeMode_store_eq_load s.regs, fun f d hf hd => ?_, fun e hf => exec_refreshMode_fetch_aborts hf,
    fun f e hf hd => exec_refreshMode_load_aborts hf hd⟩
  rw [exec_refreshMode_completes hf hd, boolWord_bne]
  rfl

/-- Settles O16: the code gives the effective mode, and below machine the selector decides. -/
theorem computeModeTable : Obligations.ComputeModeTable := by
  unfold Obligations.ComputeModeTable
  intro r cls override code selector
  have hcode : effModeCode r cls = code := effModeCode_eq
  rw [← hcode]
  refine ⟨fun h => ?badCode, fun h => ?machine, fun h h8 => ?translate, fun h h0 => ?off, fun h h8 h0 => ?unsupported⟩
  case badCode => exact computeMode_of_effMode_error (effMode_of_code_two h)
  case machine => exact computeMode_of_machine (effMode_eq_ok.2 h)
  case translate =>
    obtain ⟨mode, hmode, hm⟩ := exists_effMode_below_machine h
    exact computeMode_translate hmode hm h8
  case off =>
    obtain ⟨mode, hmode, hm⟩ := exists_effMode_below_machine h
    exact computeMode_off hmode hm h0
  case unsupported =>
    obtain ⟨mode, hmode, hm⟩ := exists_effMode_below_machine h
    exact computeMode_unsupported hmode hm h8 h0

/-- Settles O17: the fetch mode is computed first, so the clauses about data accesses have a machine-mode fetch. -/
theorem refreshModeAborts : Obligations.RefreshModeAborts := by
  unfold Obligations.RefreshModeAborts
  intro s selector
  refine ⟨fun m hfetch hm h8 h0 => ?unsupportedFetch, fun m hfetch hload hm h8 h0 => ?unsupportedData,
    fun hfetch hload => ?machine, fun hcur => ?badFetchMode, fun hfetch hmprv hmpp => ?badDataMode⟩
  case unsupportedFetch => exact exec_refreshMode_fetch_aborts (computeMode_unsupported hfetch hm h8 h0)
  case unsupportedData =>
    exact exec_refreshMode_load_aborts (computeMode_of_machine hfetch) (computeMode_unsupported hload hm h8 h0)
  case machine =>
    exact ⟨_, exec_refreshMode_completes (computeMode_of_machine hfetch) (computeMode_of_machine hload), rfl, rfl⟩
  case badFetchMode =>
    have hcode : effModeCode s.regs .fetch = 2#2 := by rw [effModeCode_fetch, hcur]
    exact exec_refreshMode_fetch_aborts (computeMode_of_effMode_error (effMode_of_code_two hcode))
  case badDataMode =>
    have hcode : effModeCode s.regs .load = 2#2 := by rw [effModeCode_of_override hmprv (by decide), hmpp]
    exact exec_refreshMode_load_aborts (computeMode_of_machine hfetch)
      (computeMode_of_effMode_error (effMode_of_code_two hcode))

end Sys2Proof

/-! Proofs of the statements about the page-table walker (42_page_table_walker.md): the answers and the faults of `TRANSLATE` along a
chain of entries, the page base of a leaf, the marking of a leaf under each policy, the frame of the operations that walk, the
alignment of every access, and what a `TRANSLATE` does not look at. -/

namespace Sys2Proof

open Sys2Proof.Machine Sys2Proof.Claims

/-! ## The answers of `TRANSLATE` -/

section Answers
variable {s t : State} {cls : AccessClass} {amo : Bool} {va a pte w : Word} {mode : Mode} {level : Nat}

theorem wellFormed_of_exec_next {i : Instr} (h : exec i s = .next t) : i.wellFormed = true := by
  cases hwf : i.wellFormed with
  | true => rfl
  | false => simp [exec_of_illFormed hwf] at h

/-- An `Ok` of the walker's body is the answer of `TRANSLATE`. -/
theorem exec_translate_completes (hwf : (Instr.translate cls amo va).wellFormed = true)
    (h : translate cls amo va s.beginOp = .ok w t) : exec (.translate cls amo va) s = .next (t.respond (okResponse w)) := by
  rw [exec_translate_eq hwf, h, andThen_ok, finish_ok]

/-- A raise of the walker's body is the answer of `TRANSLATE`. -/
theorem exec_translate_raised (hwf : (Instr.translate cls amo va).wellFormed = true)
    (h : translate cls amo va s.beginOp = .raised t) : exec (.translate cls amo va) s = .next t := by
  rw [exec_translate_eq hwf, h, andThen_raised, finish_raised]

theorem translate_in_machineMode (hmode : effMode s.regs cls = .ok .machine) :
    translate cls amo va s = .abort .translateInMachineMode := by
  simp [Machine.translate, hmode]

theorem translate_of_nonCanonical (hmode : effMode s.regs cls = .ok mode) (hm : mode ≠ .machine) (hva : ¬ signExtended va) :
    translate cls amo va s = .raised (s.raise (pfKind cls amo) va) := by
  simp [Machine.translate, hmode, hm, mt canonical_iff_signExtended.1 hva]

/-- A leaf that denies the access, or that is a misaligned superpage, raises on the state its walk left (R156, R157). -/
theorem leafResult_raises (hmode : effMode s.regs cls = .ok mode) (hm : mode ≠ .machine) (hlevel : level ≤ 2)
    (h : entryGrants s mode cls pte = false ∨ misalignedSuper level pte = true) :
    leafResult cls amo va level a pte s = .raised (s.raise (pfKind cls amo) va) := by
  rw [leafResult]
  cases hgrants : entryGrants s mode cls pte with
  | false =>
    rw [checkPerm_eq_raised.2 ⟨mode, hmode, hm, (permOk_eq_entryGrants s hm cls pte).trans hgrants, rfl⟩, andThen_raised]
  | true =>
    have hsuper : misalignedSuper level pte = true := by simpa [hgrants] using h
    have hzero : level ≠ 0 := by
      rintro rfl
      simp [misalignedSuper] at hsuper
    rw [checkPerm_eq_ok (u := ()).2 ⟨mode, hmode, hm, (permOk_eq_entryGrants s hm cls pte).trans hgrants, rfl⟩, andThen_ok,
      if_pos ⟨hzero, (superMisaligned_eq hlevel pte).trans hsuper⟩, walkFault_eq hmode hm]

theorem pathReads_kind (cls : AccessClass) (va : Word) (path : List (Word × Word)) :
    ∀ b ∈ pathReads cls va path, b.kind = .read := by
  intro b hb
  obtain ⟨e, -, rfl⟩ := List.mem_map.1 hb
  rfl

/-- An entry on which the descent fails: absent or malformed, or a pointer with no level below it (R154, R155). -/
theorem afterEntry_bad (h : pteKind pte = .absent ∨ pteKind pte = .malformed ∨ (pteKind pte = .pointer ∧ level = 0)) :
    afterEntry cls va level a pte s = .ok (.bad pte) s := by
  rcases h with h | h | ⟨h, rfl⟩ <;> simp [afterEntry, h]

end Answers

/-- Settles O20: `translate_completes` is the body's answer, and `TRANSLATE` responds with it. -/
theorem translateCompletes : Obligations.TranslateCompletes := by
  unfold Obligations.TranslateCompletes
  intro s cls amo va path a pte mode hwf hmode hm hva hpath hlast hleaf hgrants hsuper hguide
  exact exec_translate_completes hwf (translate_completes hmode hm hva hpath hlast hleaf hgrants hsuper hguide)

/-- Settles O21: both tests come before the walk. -/
theorem translatePreconditions : Obligations.TranslatePreconditions := by
  unfold Obligations.TranslatePreconditions
  intro s cls amo va mode hwf hmode
  refine ⟨?_, fun hm hva => exec_translate_raised hwf (translate_of_nonCanonical (s := s.beginOp) hmode hm hva)⟩
  rintro rfl
  rw [exec_translate_eq hwf, translate_in_machineMode (s := s.beginOp) hmode, andThen_abort, finish_abort]

/-- Settles O22: the walk reads the chain and ends at its last entry, and the fault path raises. -/
theorem structuralFaultAfterExactlyItsReads : Obligations.StructuralFaultAfterExactlyItsReads := by
  unfold Obligations.StructuralFaultAfterExactlyItsReads
  intro s cls amo va path a pte mode level hwf hmode hm hva hpath hlast hlen hlevel hbad
  obtain ⟨-, -, hwalk⟩ := walk_along (cls := cls) (s := s.beginOp) hpath hlast
  rw [show 2 + 1 - path.length = level by omega, afterEntry_bad hbad] at hwalk
  refine ⟨_, exec_translate_raised hwf (translate_of_walk_bad (s := s.beginOp) hmode hm hva hwalk rfl), rfl, ?_, ?_, rfl⟩
  · simp [pathReads, hlen]
  · exact pathReads_kind cls va path

/-- A leaf at the end of a chain that denies the access, or is a misaligned superpage, raises after the reads alone. -/
theorem exec_translate_leafFault {s : State} {cls : AccessClass} {amo : Bool} {va a pte : Word} {path : List (Word × Word)}
    {mode : Mode} (hwf : (Instr.translate cls amo va).wellFormed = true) (hmode : effMode s.regs cls = .ok mode)
    (hm : mode ≠ .machine) (hva : signExtended va) (hpath : rootPath s va path = true) (hlast : path.getLast? = some (a, pte))
    (hleaf : pteKind pte = .leaf) (h : entryGrants s mode cls pte = false ∨ misalignedSuper (3 - path.length) pte = true) :
    exec (.translate cls amo va) s = .next ((afterReads s cls va path).raise (pfKind cls amo) va) := by
  obtain ⟨hpos, -, hwalk⟩ := walk_along (cls := cls) (s := s.beginOp) hpath hlast
  rw [afterEntry_leaf hleaf] at hwalk
  refine exec_translate_raised hwf ?_
  rw [translate_of_walk_leaf (s := s.beginOp) hmode hm hva hwalk]
  exact leafResult_raises (s := afterReads s cls va path) hmode hm (by omega) h

/-- Settles O23: the leaf at the end of the chain raises on the state after the reads, before its write-back and the injector. -/
theorem leafFaultsWriteNothing : Obligations.LeafFaultsWriteNothing := by
  unfold Obligations.LeafFaultsWriteNothing
  intro s cls amo va path a pte mode hwf hmode hm hva hpath hlast hleaf h
  exact exec_translate_leafFault hwf hmode hm hva hpath hlast hleaf h

/-! ## The page base of a leaf -/

/-- The page base of a leaf, bit by bit: a superpage's bits between 12 and its size are the address's (R157, R161). -/
theorem getLsbD_leafBase {level : Nat} (hlevel : level ≤ 2) (pte va : Word) {i : Nat} (hi : i < 64) :
    (leafBase (pageBase (ptePpn pte)) va level).getLsbD i =
      if i < 12 then false else if i < 12 + 9 * level then va.getLsbD i else if i < 56 then pte.getLsbD (i - 2) else false := by
  have hoffset : (0xfff#64).getLsbD i = decide (i < 12) := getLsbD_pageMask (Nat.zero_le 2) i
  rw [leafBase]
  split
  next hzero =>
    rw [hzero, getLsbD_pageBase_ptePpn]
    by_cases h12 : i < 12
    · simp [h12, Nat.not_le.2 h12]
    · by_cases h56 : i < 56 <;> simp [h12, h56, Nat.not_lt.1 h12]
  next =>
    simp only [BitVec.getLsbD_or, BitVec.getLsbD_and, BitVec.getLsbD_not, hi, getLsbD_pageBase_ptePpn,
      getLsbD_pageMask hlevel, hoffset]
    by_cases h12 : i < 12
    · simp [h12, Nat.not_le.2 h12]
    · by_cases hsize : i < 12 + 9 * level
      · simp [h12, hsize]
      · by_cases h56 : i < 56 <;> simp [h12, hsize, h56, Nat.not_lt.1 h12]

/-- Settles O25; the alignment of the superpage is not needed, as the bits below its size come from the address. -/
theorem leafBaseBits : Obligations.LeafBaseBits := by
  unfold Obligations.LeafBaseBits
  intro pte va level hlevel _ i hi
  exact getLsbD_leafBase hlevel pte va hi

/-! ## The marking of a leaf -/

section Marking
variable {s t : State} {cls : AccessClass} {amo : Bool} {va a pte w : Word} {path : List (Word × Word)}

/-- The marked entry has its accessed bit and, for a store, its dirty bit besides the bits it had (R158). -/
theorem getLsbD_pteMarked (pte : Word) (cls : AccessClass) (i : Nat) :
    (pteMarked pte cls).getLsbD i = (pte.getLsbD i || (i == 6) || (i == 7 && cls == .store)) := by
  have hbit : ∀ k < 64, (1#64 <<< k).getLsbD i = (i == k) := fun k hk => by
    rw [← BitVec.twoPow_eq, BitVec.getLsbD_twoPow, decide_eq_true hk, Bool.true_and, Bool.eq_iff_iff,
      decide_eq_true_iff, beq_iff_eq, eq_comm]
  rw [pteMarked, BitVec.getLsbD_or, BitVec.getLsbD_or, hbit 6 (by decide), apply_ite (BitVec.getLsbD · i),
    hbit 7 (by decide), BitVec.getLsbD_zero]
  cases cls <;> simp

/-- The write-back is needed exactly when marking changes the entry. -/
theorem pteMarked_eq_self_iff : pteMarked pte cls = pte ↔ pteNeedsMark pte cls = false := by
  have hneeds : pteNeedsMark pte cls = false ↔ pte.getLsbD 6 = true ∧ (cls = .store → pte.getLsbD 7 = true) := by
    cases cls <;> simp [pteNeedsMark, pteA, pteD]
  rw [hneeds]
  constructor
  · intro h
    refine ⟨?_, ?_⟩
    · rw [← h, getLsbD_pteMarked]
      simp
    · rintro rfl
      rw [← h, getLsbD_pteMarked]
      simp
  · rintro ⟨ha, hd⟩
    refine BitVec.eq_of_getLsbD_eq fun i _ => ?_
    rw [getLsbD_pteMarked, Bool.eq_iff_iff]
    simp only [Bool.or_eq_true, Bool.and_eq_true, beq_iff_eq]
    refine ⟨?_, fun h => .inl (.inl h)⟩
    rintro ((h | rfl) | ⟨rfl, hstore⟩)
    · exact h
    · exact ha
    · exact hd hstore

/-- A `TRANSLATE` that answered `Ok` has read the chain and marked the leaf at its end, and left memory and the memory port so. -/
theorem exec_translate_marks (hpath : rootPath s va path = true) (hlast : path.getLast? = some (a, pte))
    (hleaf : pteKind pte = .leaf) (h : exec (.translate cls amo va) s = .next t) (hexc : t.out.exc = none) :
    s.mem.readWord a = some pte ∧ t.mem = (markLeaf cls va a pte (afterReads s cls va path)).mem ∧
      t.out.bus = (markLeaf cls va a pte (afterReads s cls va path)).out.bus := by
  obtain ⟨w, u, hok, rfl⟩ := exec_translate_ok h hexc
  obtain ⟨-, -, -, -, -, level, b, q, l, ⟨hfound, -⟩, hread, -, hmem, hout, -⟩ := translate_ok_frame hok
  obtain ⟨-, -, hwalk⟩ := walk_along (cls := cls) (s := s.beginOp) hpath hlast
  rw [afterEntry_leaf hleaf, ← afterReads_eq] at hwalk
  have hend := hwalk.symm.trans hfound
  simp only [Res.ok.injEq, WalkEnd.leaf.injEq] at hend
  obtain ⟨⟨-, rfl, rfl⟩, hreads⟩ := hend
  rw [← hreads] at hmem hout
  exact ⟨hread, hmem, by rw [State.respond_out_bus, hout]⟩

end Marking

/-- Settles O26: memory holds the marked entry, written back where marking changes it and as it was read where it does not. -/
theorem hardwareUpdateMarksTheLeaf : Obligations.HardwareUpdateMarksTheLeaf := by
  unfold Obligations.HardwareUpdateMarksTheLeaf
  intro s t cls amo va path a pte hpolicy hpath hlast hleaf h hexc
  obtain ⟨hread, hmem, hbus⟩ := exec_translate_marks hpath hlast hleaf h hexc
  refine ⟨pteMarked pte cls, ?_⟩
  rcases markLeaf_cases cls va a pte (afterReads s cls va path) with ⟨hsame, hnot⟩ | ⟨-, hneeds, hwritten⟩
  · have hneeds : pteNeedsMark pte cls = false := by simpa [afterReads, hpolicy] using hnot
    have hself := pteMarked_eq_self_iff.2 hneeds
    rw [hsame] at hmem hbus
    exact ⟨by rw [hmem, hself]; exact hread, fun i _ => getLsbD_pteMarked pte cls i, fun _ => ⟨hmem, hbus⟩,
      fun hne => absurd hself hne⟩
  · rw [hwritten] at hmem hbus
    refine ⟨by rw [hmem]; exact memory_readWord_writeWord_same _ _ _, fun i _ => getLsbD_pteMarked pte cls i,
      fun hself => ?_, fun _ => hbus⟩
    simp [pteMarked_eq_self_iff.1 hself] at hneeds

/-! ## The exception-based policy -/

theorem markLeaf_of_excUpdate {s : State} (h : s.cfg.adPolicy = .excUpdate) (cls : AccessClass) (va a pte : Word) :
    markLeaf cls va a pte s = s := by
  simp [markLeaf, h]

/-- An operation that started in `s` has made no call but reads, and memory is as it was. -/
structure ReadsOnly (s t : State) : Prop where
  mem : t.mem = s.mem
  bus : ∀ b ∈ t.out.bus, b.kind = .read

section ReadsOnly
variable {s t : State} {cls : AccessClass} {amo : Bool} {va pa len w : Word} {mode : Mode} {b : Bool}

theorem ReadsOnly.beginOp (s : State) : ReadsOnly s s.beginOp := ⟨rfl, by simp⟩

theorem ReadsOnly.logAll (h : ReadsOnly s t) {l : List BusAccess} (hl : ∀ b ∈ l, b.kind = .read) : ReadsOnly s (t.logAll l) :=
  ⟨h.mem, fun b hb => (List.mem_append.1 hb).elim (h.bus b) (hl b)⟩

theorem ReadsOnly.respond (h : ReadsOnly s t) (r : Response) : ReadsOnly s (t.respond r) := ⟨h.mem, h.bus⟩

theorem ReadsOnly.raise (h : ReadsOnly s t) (k : FaultKind) (v : Word) : ReadsOnly s (t.raise k v) := ⟨h.mem, h.bus⟩

theorem pteReads_kind {m : Memory} {l : List BusAccess} (h : PteReads m cls va l) : ∀ b ∈ l, b.kind = .read := by
  intro b hb
  obtain ⟨a, p, rfl, -⟩ := h.2 b hb
  rfl

theorem validate_raised_readsOnly (h : validate cls amo va len s.beginOp = .raised t) : ReadsOnly s t := by
  rcases validate_eq_raised.1 h with ⟨-, rfl⟩ | ⟨-, -, rfl⟩ <;> exact (ReadsOnly.beginOp s).raise _ _

theorem translate_ok_readsOnly (hpolicy : s.cfg.adPolicy = .excUpdate) (h : translate cls amo va s.beginOp = .ok w t) :
    ReadsOnly s t := by
  obtain ⟨-, -, -, -, -, level, a, p, l, ⟨-, hreads⟩, -, -, hmem, hout, -⟩ := translate_ok_frame h
  rw [markLeaf_of_excUpdate (s := s.beginOp.logAll l) hpolicy] at hmem hout
  exact ⟨hmem, by rw [hout]; exact pteReads_kind hreads⟩

theorem translate_raised_readsOnly (hpolicy : s.cfg.adPolicy = .excUpdate) (h : translate cls amo va s.beginOp = .raised t) :
    ReadsOnly s t := by
  obtain ⟨-, -, ⟨-, hmem, -, -, l, hbus, hreads⟩ | ⟨-, -, -, -, level, a, p, l, ⟨-, hreads⟩, hmem, hbus⟩⟩ :=
    translate_raised_frame h
  · exact ⟨hmem, by rw [hbus]; exact pteReads_kind hreads⟩
  · rw [markLeaf_of_excUpdate (s := s.beginOp.logAll l) hpolicy] at hmem hbus
    exact ⟨hmem, by rw [hbus]; exact pteReads_kind hreads⟩

theorem pmpCheck_ok_readsOnly {u : State} (h : pmpCheck cls mode pa len t = .ok b u) (ht : ReadsOnly s t) : ReadsOnly s u := by
  obtain ⟨l, rfl, hl⟩ := pmpCheck_reads h
  exact ht.logAll fun x hx => (hl x hx).1

/-- Under `EXC_UPDATE` every operation reads only (R159). -/
theorem exec_readsOnly {i : Instr} (hpolicy : s.cfg.adPolicy = .excUpdate) (h : exec i s = .next t) : ReadsOnly s t := by
  have hbegin := ReadsOnly.beginOp s
  cases i with
  | validate cls amo va len =>
    obtain ⟨-, -, ⟨-, rfl⟩ | hraised⟩ := exec_validate_next h
    · exact hbegin.respond _
    · exact validate_raised_readsOnly hraised
  | queryMode cls => exact exec_queryMode_next h ▸ hbegin.respond _
  | refreshMode =>
    obtain ⟨f, d, -, -, rfl⟩ := exec_refreshMode_next h
    exact ⟨rfl, by simp⟩
  | translate cls amo va =>
    rcases exec_translate_next h with ⟨w, u, hok, rfl⟩ | hraised
    · exact (translate_ok_readsOnly hpolicy hok).respond _
    · exact translate_raised_readsOnly hpolicy hraised
  | checkPerm cls amo sok va pte =>
    rcases exec_checkPerm_next h with rfl | rfl
    · exact hbegin.respond _
    · exact hbegin.raise _ _
  | pmpCheck cls mode pa len =>
    obtain ⟨b, l, hcheck, rfl⟩ := exec_pmpCheck_next h
    exact (pmpCheck_ok_readsOnly hcheck hbegin).respond _
  | spmpCheck cls mode pa len => exact exec_spmpCheck_next h ▸ hbegin.respond _
  | access cls amo va len =>
    cases exec_access_next h with
    | validateRaised hraised => exact validate_raised_readsOnly hraised
    | translateRaised _ _ hraised => exact translate_raised_readsOnly hpolicy hraised
    | direct mode b l _ _ _ hcheck ht => exact ht ▸ (pmpCheck_ok_readsOnly hcheck hbegin).respond _
    | translated w u mode b l _ _ hok _ hcheck ht =>
      exact ht ▸ (pmpCheck_ok_readsOnly hcheck (translate_ok_readsOnly hpolicy hok)).respond _

/-- Under `EXC_UPDATE` a clear accessed bit, or a clear dirty bit on a store, denies the access (R174). -/
theorem entryGrants_of_unmarked {pte : Word} (hpolicy : s.cfg.adPolicy = .excUpdate)
    (h : pte.getLsbD 6 = false ∨ (cls = .store ∧ pte.getLsbD 7 = false)) : entryGrants s mode cls pte = false := by
  have hmark : adAllows s.cfg.adPolicy (pte.getLsbD 6) (pte.getLsbD 7) cls = false := by
    rw [hpolicy]
    rcases h with h | ⟨rfl, h⟩ <;> rw [h]
    · rfl
    · exact Bool.and_false _
  rw [entryGrants, hmark, Bool.and_false]

end ReadsOnly

/-- Settles O27: no operation writes, and an unmarked leaf denies the access, which raises at the leaf. -/
theorem exceptionUpdateWritesNoMemory : Obligations.ExceptionUpdateWritesNoMemory := by
  unfold Obligations.ExceptionUpdateWritesNoMemory
  refine ⟨fun i s t hpolicy h => ?_, ?_⟩
  · have hreads := exec_readsOnly hpolicy h
    exact ⟨hreads.mem, hreads.bus⟩
  · intro s cls amo va path a pte mode hpolicy hwf hmode hm hva hpath hlast hleaf hunmarked
    exact exec_translate_leafFault hwf hmode hm hva hpath hlast hleaf (.inl (entryGrants_of_unmarked hpolicy hunmarked))

/-! ## The frame of the operations that walk -/

/-- What an operation that walks leaves of the state `s` it started from (R150, R227, R258). -/
structure WalkFrame (cls : AccessClass) (s t : State) : Prop where
  setting : SameSetting s t
  fi : t.fi = s.fi ∨ (guideNames s.cfg s.regs.guide cls = true ∧ ∃ c, t.fi = s.fi.put cls c)
  tval : t.out.exc = none → t.tval = s.tval

section WalkFrame
variable {s t : State} {cls : AccessClass} {amo : Bool} {va len w : Word}

theorem sameSetting_of_beginOp (h : SameSetting s.beginOp t) : SameSetting s t :=
  ⟨h.cfg, h.regs, h.fetchMode, h.dataMode, h.inputs⟩

theorem WalkFrame.logAll (h : WalkFrame cls s t) (l : List BusAccess) : WalkFrame cls s (t.logAll l) :=
  ⟨⟨h.setting.cfg, h.setting.regs, h.setting.fetchMode, h.setting.dataMode, h.setting.inputs⟩, h.fi, h.tval⟩

theorem WalkFrame.respond (h : WalkFrame cls s t) (r : Response) : WalkFrame cls s (t.respond r) :=
  ⟨⟨h.setting.cfg, h.setting.regs, h.setting.fetchMode, h.setting.dataMode, h.setting.inputs⟩, h.fi, h.tval⟩

theorem WalkFrame.beginOp (cls : AccessClass) (s : State) : WalkFrame cls s s.beginOp :=
  ⟨⟨rfl, rfl, rfl, rfl, rfl⟩, .inl rfl, fun _ => rfl⟩

theorem WalkFrame.beginOp_raise (cls : AccessClass) (s : State) (k : FaultKind) (v : Word) :
    WalkFrame cls s (s.beginOp.raise k v) :=
  ⟨⟨rfl, rfl, rfl, rfl, rfl⟩, .inl rfl, by simp⟩

/-- The injector's cells of the other classes are as they were (R227). -/
theorem WalkFrame.fi_other (h : WalkFrame cls s t) {c : AccessClass} (hc : c ≠ cls) : t.fi.get c = s.fi.get c := by
  rcases h.fi with hfi | ⟨-, cell, hfi⟩ <;> rw [hfi]
  exact fiCells_get_put_other _ _ _ _ hc

theorem WalkFrame.fi_unnamed (h : WalkFrame cls s t) (hguide : guideNames s.cfg s.regs.guide cls = false) : t.fi = s.fi := by
  rcases h.fi with hfi | ⟨hnamed, -⟩
  · exact hfi
  · simp [hguide] at hnamed

theorem translate_ok_walkFrame (h : translate cls amo va s.beginOp = .ok w t) : WalkFrame cls s t := by
  obtain ⟨hset, htval, -, -, hfi, -⟩ := translate_ok_frame h
  exact ⟨sameSetting_of_beginOp hset,
    hfi.imp (fun h => h.2) (fun h => ⟨h.1, _, h.2⟩), fun _ => htval⟩

theorem translate_raised_walkFrame (h : translate cls amo va s.beginOp = .raised t) : WalkFrame cls s t := by
  obtain ⟨hset, -, ⟨hfi, -, -, hexc, -⟩ | ⟨hguide, hfi, -, hexc, -⟩⟩ := translate_raised_frame h
  · exact ⟨sameSetting_of_beginOp hset, .inl hfi, by simp [hexc]⟩
  · exact ⟨sameSetting_of_beginOp hset, .inr ⟨hguide, _, hfi⟩, by simp [hexc]⟩

theorem exec_translate_walkFrame (h : exec (.translate cls amo va) s = .next t) : WalkFrame cls s t := by
  rcases exec_translate_next h with ⟨w, u, hok, rfl⟩ | hraised
  · exact (translate_ok_walkFrame hok).respond _
  · exact translate_raised_walkFrame hraised

theorem exec_access_walkFrame (h : exec (.access cls amo va len) s = .next t) : WalkFrame cls s t := by
  cases exec_access_next h with
  | validateRaised hraised =>
    rcases validate_eq_raised.1 hraised with ⟨-, rfl⟩ | ⟨-, -, rfl⟩ <;> exact .beginOp_raise cls s _ _
  | translateRaised _ _ hraised => exact translate_raised_walkFrame hraised
  | direct _ _ l _ _ _ _ ht => exact ht ▸ ((WalkFrame.beginOp cls s).logAll l).respond _
  | translated _ _ _ _ l _ _ hok _ _ ht => exact ht ▸ ((translate_ok_walkFrame hok).logAll l).respond _

theorem exec_walkFrame {i : Instr} (hwalks : walks i = true) (hoperands : faultOperands i = some (cls, amo, va))
    (h : exec i s = .next t) : WalkFrame cls s t := by
  cases i with
  | translate cls' amo' va' =>
    cases hoperands
    exact exec_translate_walkFrame h
  | access cls' amo' va' len =>
    cases hoperands
    exact exec_access_walkFrame h
  | validate | queryMode | refreshMode | checkPerm | pmpCheck | spmpCheck => cases hwalks

end WalkFrame

/-- Settles O29: `TRANSLATE` and each way an `ACCESS` ends keep `WalkFrame`. -/
theorem walkingOperationsFrame : Obligations.WalkingOperationsFrame := by
  unfold Obligations.WalkingOperationsFrame
  intro i cls amo va s t hwalks hoperands h
  have hframe := exec_walkFrame hwalks hoperands h
  have hset := hframe.setting
  exact ⟨hset.cfg, hset.fetchMode, hset.dataMode, hset.regs, hset.inputs, fun c hc => hframe.fi_other hc, hframe.fi_unnamed,
    hframe.tval⟩

/-! ## Where the block accesses memory -/

theorem toNat_pageBase (ppn : BitVec 44) : (pageBase ppn).toNat = ppn.toNat * 4096 := by
  have := ppn.isLt
  simp only [pageBase, BitVec.toNat_shiftLeft, BitVec.toNat_setWidth, Nat.shiftLeft_eq]
  omega

/-- The address of an entry, without a carry out of the table (R152). -/
theorem toNat_pteAddr (ppn : BitVec 44) (va : Word) (level : Nat) :
    (pteAddr (pageBase ppn) va level).toNat = ppn.toNat * 4096 + va.toNat / 2 ^ (12 + 9 * level) % 512 * 8 := by
  have := ppn.isLt
  simp only [pteAddr, vpn, BitVec.toNat_add, BitVec.toNat_mul, BitVec.toNat_setWidth, BitVec.extractLsb'_toNat, toNat_pageBase,
    Nat.shiftRight_eq_div_pow, BitVec.toNat_ofNat]
  omega

/-- An entry address is a multiple of 8 (R66). -/
theorem pteAddr_aligned (ppn : BitVec 44) (va : Word) (level : Nat) : (pteAddr (pageBase ppn) va level).toNat % 8 = 0 := by
  rw [toNat_pteAddr]
  omega

/-- The entries of an aligned table, 8 bytes each, are aligned. -/
theorem tableEntry_aligned {base : Word} (hbase : base.toNat % 8 = 0) (index : Word) :
    (base + index * 8#64).toNat % 8 = 0 := by
  simp only [BitVec.toNat_add, BitVec.toNat_mul, BitVec.toNat_ofNat]
  omega

/-- A leaf table lies at a multiple of 8 in a layout that shifts its address up by 3 bits or more (R195). -/
theorem pmptLeafBase_aligned {l : PmptLayout} (h : 3 ≤ l.leafShiftLeft) (e : Word) : (pmptLeafBase l e).toNat % 8 = 0 := by
  have hdvd : 8 ∣ 2 ^ l.leafShiftLeft := Nat.pow_dvd_pow 2 h
  rw [pmptLeafBase, BitVec.toNat_shiftLeft, Nat.shiftLeft_eq, Nat.mod_mod_of_dvd _ (by decide)]
  exact Nat.mod_eq_zero_of_dvd (hdvd.mul_left _)

/-- The lookup tables are aligned, and so is every call that stands on the memory port (R66). -/
structure Aligned (s : State) : Prop where
  tables : tablesAligned s
  bus : ∀ b ∈ s.out.bus, b.addr.toNat % 8 = 0

/-- An operation has left an aligned state, or is stuck at an aligned address. -/
def Machine.Res.Aligned {α : Type} : Res α → Prop
  | .ok _ t | .raised t => Sys2Proof.Aligned t
  | .abort _ => True
  | .stuck (.unpopulatedRead a) => a.toNat % 8 = 0

section Alignment
variable {α β : Type} {s : State} {cls : AccessClass} {amo : Bool} {va pa len a pte root rbase o : Word} {mode : Mode} {level : Nat}

theorem Aligned.beginOp (h : tablesAligned s) : Aligned s.beginOp := ⟨h, by simp⟩

theorem Aligned.logBus (h : Aligned s) {b : BusAccess} (hb : b.addr.toNat % 8 = 0) : Aligned (s.logBus b) :=
  ⟨h.tables, fun x hx => (List.mem_append.1 hx).elim (h.bus x) fun hx => List.mem_singleton.1 hx ▸ hb⟩

theorem Aligned.setMem (h : Aligned s) (m : Memory) : Aligned (s.setMem m) := ⟨h.tables, h.bus⟩

theorem Aligned.setModes (h : Aligned s) (f d : MmuMode) : Aligned (s.setModes f d) := ⟨h.tables, h.bus⟩

theorem Aligned.setFi (h : Aligned s) (f : FiCells) : Aligned (s.setFi f) := ⟨h.tables, h.bus⟩

theorem Aligned.setWarn (h : Aligned s) (b : Bool) : Aligned (s.setWarn b) := ⟨h.tables, h.bus⟩

theorem Aligned.raise (h : Aligned s) (k : FaultKind) (v : Word) : Aligned (s.raise k v) := ⟨h.tables, h.bus⟩

theorem Aligned.respond (h : Aligned s) (r : Response) : Aligned (s.respond r) := ⟨h.tables, h.bus⟩

/-- What follows an aligned outcome keeps it. -/
theorem aligned_andThen {x : Res α} {f : α → State → Res β} (hx : x.Aligned)
    (hf : ∀ a t, x = .ok a t → Aligned t → (f a t).Aligned) : (x.andThen f).Aligned := by
  cases x with
  | ok a t => exact hf a t rfl hx
  | raised | abort | stuck => exact hx

theorem aligned_ofExcept (h : Aligned s) (x : Except Refusal α) : (Res.ofExcept x s).Aligned := by
  cases x with
  | ok a => exact h
  | error e => trivial

theorem aligned_memRead (h : Aligned s) (ha : a.toNat % 8 = 0) (tag : BusTag) (m : Mode) (ov : Word) :
    (memRead s a tag m ov).Aligned := by
  unfold memRead
  split
  · exact h.logBus ha
  · exact ha

theorem aligned_walk (h : Aligned s) (ppn : BitVec 44) : (walk cls va level (pageBase ppn) s).Aligned := by
  have hread (level : Nat) {s : State} (h : Aligned s) (ppn : BitVec 44) : (readPte cls va (pageBase ppn) level s).Aligned :=
    aligned_memRead h (pteAddr_aligned ppn va level) _ _ _
  induction level generalizing s ppn with
  | zero =>
    refine aligned_andThen (hread 0 h ppn) fun p t _ ht => ?_
    split <;> exact ht
  | succ level ih =>
    refine aligned_andThen (hread (level + 1) h ppn) fun p t _ ht => ?_
    split
    · exact ht
    · exact ht
    · exact ht
    · exact ih ht _

/-- The leaf that a walk found was read last, so its address is aligned like every other on the port. -/
theorem leafAddr_aligned {u : State} (hwalk : walk cls va 2 (rootBase s.regs) s = .ok (.leaf level a pte) u) (h : Aligned u) :
    a.toNat % 8 = 0 := by
  obtain ⟨l, rfl, -, -, -, hleaf⟩ := walk_eq_ok 2 hwalk
  obtain ⟨-, -, -, hlast⟩ := hleaf _ _ _ rfl
  exact h.bus _ (List.mem_append_right _ (List.mem_of_getLast? hlast))

theorem Aligned.markLeaf (h : Aligned s) (ha : a.toNat % 8 = 0) : Aligned (markLeaf cls va a pte s) := by
  rcases markLeaf_cases cls va a pte s with ⟨hsame, -⟩ | ⟨-, -, hwritten⟩
  · rwa [hsame]
  · rw [hwritten]
    exact (h.setMem _).logBus ha

theorem aligned_checkPerm (h : Aligned s) (sok : Bool) : (checkPerm cls amo sok va pte s).Aligned := by
  refine aligned_andThen (aligned_ofExcept h _) fun mode t _ ht => ?_
  split
  · trivial
  · split
    · exact ht
    · exact ht.raise _ _

theorem aligned_walkFault (h : Aligned s) : (walkFault cls amo va pte s : Res α).Aligned :=
  aligned_andThen (aligned_checkPerm h false) fun _ _ _ _ => trivial

theorem aligned_fiConsult (h : Aligned s) : (fiConsult cls va s).Aligned := by
  unfold fiConsult
  split
  · simp only
    split
    · exact h.setFi _
    · exact ((h.setFi _).setWarn _).raise _ _
  · exact h

theorem aligned_leafResult (h : Aligned s) (ha : a.toNat % 8 = 0) : (leafResult cls amo va level a pte s).Aligned := by
  refine aligned_andThen (aligned_checkPerm h true) fun _ t _ ht => ?_
  split
  · exact aligned_walkFault ht
  · exact aligned_andThen (aligned_fiConsult (ht.markLeaf ha)) fun _ _ _ hu => hu

theorem aligned_translate (h : Aligned s) : (translate cls amo va s).Aligned := by
  refine aligned_andThen (aligned_ofExcept h _) fun mode t _ ht => ?_
  split
  · trivial
  · split
    · refine aligned_andThen (aligned_walk ht _) fun e u hwalk hu => ?_
      split
      · exact aligned_walkFault hu
      · exact aligned_leafResult hu (leafAddr_aligned hwalk hu)
    · exact ht.raise _ _

theorem aligned_pmptNibble (h : Aligned s) (hroot : root.toNat % 8 = 0) : (pmptNibble root o s).Aligned := by
  refine aligned_andThen (aligned_memRead h (tableEntry_aligned hroot _) _ _ _) fun re t _ ht => ?_
  split
  · exact ht
  · have hleaf := tableEntry_aligned (pmptLeafBase_aligned h.tables.2 re) (pmptOff0 s.cfg.pmpt o)
    exact aligned_andThen (aligned_memRead ht hleaf _ _ _) fun _ _ _ hu => hu

theorem aligned_pmptPerm (h : Aligned s) (hroot : root.toNat % 8 = 0) (pts : List Word) :
    (pmptPerm root rbase cls pts s).Aligned := by
  induction pts generalizing s with
  | nil => exact h
  | cons p pts ih =>
    have hpoint : (pmptPoint root rbase p cls s).Aligned := aligned_andThen (aligned_pmptNibble h hroot) fun _ _ _ hu => hu
    refine aligned_andThen hpoint fun allowed t _ ht => ?_
    split
    · exact ih ht
    · exact ht

theorem aligned_pmpPerm (h : Aligned s) {e : PmpEntry} (he : e ∈ s.regs.pmp) : (pmpPerm e rbase pa len cls mode s).Aligned := by
  have hroot : e.tbase.toNat % 8 = 0 := by
    have := h.tables.1 e he
    omega
  unfold pmpPerm
  split
  · exact h
  · split
    · exact aligned_pmptPerm h hroot _
    · exact h

/-- The entry that decides a region match is one of the array's (R181). -/
theorem mem_of_regionScan_full {region : α → Region} {l : List α} {base : Word} {pts : List Word} {e : α}
    (h : regionScan region l base pts = .full e rbase) : e ∈ l := by
  induction l generalizing base with
  | nil => cases h
  | cons d l ih =>
    unfold regionScan at h
    split at h
    · split at h
      · cases h
        exact .head _
      · cases h
    · exact .tail _ (ih h)

theorem aligned_pmpCheck (h : Aligned s) : (pmpCheck cls mode pa len s).Aligned := by
  unfold pmpCheck
  split
  · exact h
  next hmatch => exact aligned_pmpPerm h (mem_of_regionScan_full hmatch)
  · exact h

theorem aligned_validate (h : Aligned s) : (validate cls amo va len s).Aligned := by
  unfold validate
  split
  · exact h.raise _ _
  · split
    · exact h.raise _ _
    · exact h

theorem aligned_access (h : Aligned s) : (access cls amo va len s).Aligned := by
  refine aligned_andThen (aligned_validate h) fun _ t _ ht => aligned_andThen ?addr fun pa u _ hu => ?checks
  case addr =>
    unfold accessAddr
    split
    · exact aligned_andThen (aligned_translate ht) fun _ _ _ hu => hu
    · exact ht
  case checks =>
    exact aligned_andThen (aligned_ofExcept hu _) fun mode v _ hv => aligned_andThen (aligned_pmpCheck hv) fun _ _ _ hw => hw

/-- The outcome the host sees has aligned calls on the memory port, or is stuck at an aligned address. -/
def AlignedOutcome : Host.Outcome State Fault Refusal → Prop
  | .next t => ∀ b ∈ t.out.bus, b.addr.toNat % 8 = 0
  | .fault (.unpopulatedRead a) => a.toNat % 8 = 0
  | .refused _ => True

theorem alignedOutcome_finish {x : Res Response} (h : x.Aligned) : AlignedOutcome (finish x) := by
  cases x with
  | ok r t => exact (h.respond r).bus
  | raised t => exact h.bus
  | abort e => trivial
  | stuck f => exact h

theorem alignedOutcome_serve {w : Bool} {body : State → Res Response} (h : (body s.beginOp).Aligned) :
    AlignedOutcome (serve w s body) := by
  cases w with
  | false => trivial
  | true => exact alignedOutcome_finish h

theorem alignedOutcome_exec (i : Instr) (htables : tablesAligned s) : AlignedOutcome (exec i s) := by
  have hbegin := Aligned.beginOp htables
  cases i with
  | validate cls amo va len =>
    rw [exec, execValidate]
    refine alignedOutcome_serve ?_
    split
    · exact aligned_andThen (aligned_validate hbegin) fun _ _ _ ht => ht
    · trivial
  | queryMode cls =>
    rw [exec, execQueryMode]
    refine alignedOutcome_serve ?_
    split
    · exact hbegin
    · trivial
  | refreshMode =>
    rw [exec, execRefreshMode]
    refine alignedOutcome_serve (aligned_andThen ?_ fun _ _ _ ht => ht)
    exact aligned_andThen (aligned_ofExcept hbegin _) fun f t _ ht =>
      aligned_andThen (aligned_ofExcept ht _) fun d u _ hu => hu.setModes _ _
  | translate cls amo va =>
    rw [exec, execTranslate]
    exact alignedOutcome_serve (aligned_andThen (aligned_translate hbegin) fun _ _ _ ht => ht)
  | checkPerm cls amo sok va pte =>
    rw [exec, execCheckPerm]
    exact alignedOutcome_serve (aligned_andThen (aligned_checkPerm hbegin sok) fun _ _ _ ht => ht)
  | pmpCheck cls mode pa len =>
    rw [exec, execPmpCheck]
    exact alignedOutcome_serve (aligned_andThen (aligned_pmpCheck hbegin) fun _ _ _ ht => ht)
  | spmpCheck cls mode pa len =>
    rw [exec, execSpmpCheck]
    exact alignedOutcome_serve hbegin
  | access cls amo va len =>
    rw [exec, execAccess]
    refine alignedOutcome_serve ?_
    split
    · trivial
    · split
      · trivial
      · exact aligned_access hbegin

end Alignment

/-- Settles O32: the address is computed without a carry, and every access of an operation is to an entry of an aligned table. -/
theorem pteAddressIsAligned : Obligations.PteAddressIsAligned := by
  unfold Obligations.PteAddressIsAligned
  refine ⟨fun ppn va level _ => ⟨toNat_pteAddr ppn va level, ?_, pteAddr_aligned ppn va level⟩,
    fun i s htables => ⟨fun t h => ?_, fun a h => ?_⟩⟩
  · have := ppn.isLt
    rw [toNat_pteAddr]
    omega
  · have haligned := alignedOutcome_exec i htables
    rwa [h] at haligned
  · have haligned := alignedOutcome_exec i htables
    rwa [h] at haligned

/-! ## What `TRANSLATE` does not look at -/

/-- The state with other mode flags and another root-table pointer. -/
def Machine.State.setFlagsSatp (f d : MmuMode) (satp : Word) (s : State) : State :=
  { s with fetchMode := f, dataMode := d, regs := { s.regs with satp := satp } }

/-- An outcome with its state changed by `g`. -/
def Machine.Res.mapState {α : Type} (g : State → State) : Res α → Res α
  | .ok a s => .ok a (g s)
  | .raised s => .raised (g s)
  | .abort r => .abort r
  | .stuck f => .stuck f

/-- A change of state passes through two operations, one after the other, that it passes through each. -/
theorem mapState_andThen {α β : Type} {g : State → State} {x y : Res α} {h k : α → State → Res β} (hx : y = x.mapState g)
    (hk : ∀ a s, k a (g s) = (h a s).mapState g) : y.andThen k = (x.andThen h).mapState g := by
  subst hx
  cases x with
  | ok a s => exact hk a s
  | raised | abort | stuck => rfl

section Ignores
variable {α : Type} {f d : MmuMode} {satp : Word} {s : State} {cls : AccessClass} {amo : Bool} {va a pte : Word} {level : Nat}

theorem memRead_setFlagsSatp {tag : BusTag} {m : Mode} {ov : Word} :
    memRead (s.setFlagsSatp f d satp) a tag m ov = (memRead s a tag m ov).mapState (State.setFlagsSatp f d satp) := by
  have hmem : (s.setFlagsSatp f d satp).mem = s.mem := rfl
  rw [memRead, memRead, hmem]
  cases s.mem.readWord a <;> rfl

theorem walk_setFlagsSatp {base : Word} :
    walk cls va level base (s.setFlagsSatp f d satp) = (walk cls va level base s).mapState (State.setFlagsSatp f d satp) := by
  induction level generalizing base s with
  | zero =>
    refine mapState_andThen memRead_setFlagsSatp fun p t => ?_
    cases pteKind p <;> rfl
  | succ level ih =>
    refine mapState_andThen memRead_setFlagsSatp fun p t => ?_
    cases pteKind p with
    | absent | malformed | leaf => rfl
    | pointer => exact ih

/-- The effective mode is no matter of the root-table pointer (R265). -/
theorem ofExcept_effMode_setFlagsSatp :
    Res.ofExcept (effMode (s.setFlagsSatp f d satp).regs cls) (s.setFlagsSatp f d satp) =
      (Res.ofExcept (effMode s.regs cls) s).mapState (State.setFlagsSatp f d satp) := by
  have hmode : effMode (s.setFlagsSatp f d satp).regs cls = effMode s.regs cls := rfl
  rw [hmode]
  cases effMode s.regs cls <;> rfl

theorem checkPerm_setFlagsSatp {sok : Bool} : checkPerm cls amo sok va pte (s.setFlagsSatp f d satp) =
    (checkPerm cls amo sok va pte s).mapState (State.setFlagsSatp f d satp) := by
  refine mapState_andThen ofExcept_effMode_setFlagsSatp fun mode t => ?_
  rw [apply_ite (Res.mapState _), apply_ite (Res.mapState _)]
  rfl

theorem walkFault_setFlagsSatp : (walkFault cls amo va pte (s.setFlagsSatp f d satp) : Res α) =
    (walkFault cls amo va pte s).mapState (State.setFlagsSatp f d satp) :=
  mapState_andThen checkPerm_setFlagsSatp fun _ _ => rfl

theorem fiConsult_setFlagsSatp : fiConsult cls va (s.setFlagsSatp f d satp) =
    (fiConsult cls va s).mapState (State.setFlagsSatp f d satp) := by
  unfold fiConsult
  simp only [apply_ite (Res.mapState _)]
  rfl

theorem markLeaf_setFlagsSatp : markLeaf cls va a pte (s.setFlagsSatp f d satp) =
    (markLeaf cls va a pte s).setFlagsSatp f d satp := by
  rw [markLeaf, markLeaf, apply_ite (State.setFlagsSatp f d satp)]
  rfl

theorem leafResult_setFlagsSatp : leafResult cls amo va level a pte (s.setFlagsSatp f d satp) =
    (leafResult cls amo va level a pte s).mapState (State.setFlagsSatp f d satp) := by
  refine mapState_andThen checkPerm_setFlagsSatp fun _ t => ?_
  rw [apply_ite (Res.mapState _), walkFault_setFlagsSatp, markLeaf_setFlagsSatp]
  congr 1
  exact mapState_andThen fiConsult_setFlagsSatp fun _ _ => rfl

/-- The walker looks at the root-table pointer's page number alone, and at no mode flag (R151). -/
theorem translate_setFlagsSatp (hppn : satpPpn satp = satpPpn s.regs.satp) :
    translate cls amo va (s.setFlagsSatp f d satp) = (translate cls amo va s).mapState (State.setFlagsSatp f d satp) := by
  have hroot : rootBase (s.setFlagsSatp f d satp).regs = rootBase s.regs := congrArg pageBase hppn
  have hmode : effMode (s.setFlagsSatp f d satp).regs cls = effMode s.regs cls := rfl
  rw [Machine.translate, Machine.translate, hmode]
  cases effMode s.regs cls with
  | error e => rfl
  | ok mode =>
    simp only [ofExcept_ok, andThen_ok, hroot, apply_ite (Res.mapState _)]
    congr 2
    refine mapState_andThen walk_setFlagsSatp fun e t => ?_
    cases e with
    | bad p => exact walkFault_setFlagsSatp
    | leaf level a p => exact leafResult_setFlagsSatp

end Ignores

/-- Settles O33: the change of state passes through the walker's body, and through the response. -/
theorem translateIgnoresFlagsAndSelector : Obligations.TranslateIgnoresFlagsAndSelector := by
  unfold Obligations.TranslateIgnoresFlagsAndSelector
  intro s t cls amo va h f d satp hppn
  have hwf := wellFormed_of_exec_next h
  have hbody : translate cls amo va (s.setFlagsSatp f d satp).beginOp =
      (translate cls amo va s.beginOp).mapState (State.setFlagsSatp f d satp) := translate_setFlagsSatp (s := s.beginOp) hppn
  rcases exec_translate_next h with ⟨w, u, hok, rfl⟩ | hraised
  · rw [hok] at hbody
    exact exec_translate_completes hwf hbody
  · rw [hraised] at hbody
    exact exec_translate_raised hwf hbody

end Sys2Proof

/-! Proofs of the statements about the permission evaluator (43_permission_evaluator.md): the answer and the raise of `CHECK_PERM` for a
mode below machine, and the refusals of the effective mode. -/

namespace Sys2Proof

open Sys2Proof.Machine Sys2Proof.Claims

/-! ## The answers of `CHECK_PERM` -/

section CheckPerm
variable {s : State} {cls : AccessClass} {amo sok : Bool} {va pte : Word} {mode : Mode}

theorem pfKind_eq : pfKind cls amo = if cls = .fetch then .ipf else if cls = .store ∨ amo = true then .spf else .lpf := by
  cases cls <;> cases amo <;> rfl

/-- `CHECK_PERM` and `TRANSLATE` have one domain: no atomic fetch (R111). -/
theorem wellFormed_checkPerm (h : amo = true → cls ≠ .fetch) : (Instr.checkPerm cls amo sok va pte).wellFormed = true :=
  wellFormed_translate h va

/-- A well-formed `CHECK_PERM` is served by its body. -/
theorem exec_checkPerm_eq (hwf : (Instr.checkPerm cls amo sok va pte).wellFormed = true) :
    exec (.checkPerm cls amo sok va pte) s =
      finish ((checkPerm cls amo sok va pte s.beginOp).andThen fun _ u => .ok (okResponse 1#64) u) := by
  simp only [exec, execCheckPerm, serve_of_wellFormed hwf]

theorem exec_checkPerm_granted (hwf : (Instr.checkPerm cls amo true va pte).wellFormed = true)
    (hmode : effMode s.regs cls = .ok mode) (hm : mode ≠ .machine) (hgrants : entryGrants s mode cls pte = true) :
    exec (.checkPerm cls amo true va pte) s = .next (s.beginOp.respond (okResponse 1#64)) := by
  have hcheck : checkPerm cls amo true va pte s.beginOp = .ok () s.beginOp :=
    checkPerm_eq_ok.2 ⟨mode, hmode, hm, (permOk_eq_entryGrants s hm cls pte).trans hgrants, rfl⟩
  rw [exec_checkPerm_eq hwf, hcheck, andThen_ok, finish_ok]

/-- The conjunction of R170 fails with `structurallyOk` = 0 (R175), and for an entry that grants nothing. -/
theorem permOk_eq_false (hm : mode ≠ .machine) (h : sok = false ∨ entryGrants s mode cls pte = false) :
    permOk s.cfg s.regs mode sok cls pte = false := by
  cases sok with
  | false => exact permOk_not_sok ..
  | true => exact (permOk_eq_entryGrants s hm cls pte).trans (h.resolve_left nofun)

theorem exec_checkPerm_denied (hwf : (Instr.checkPerm cls amo sok va pte).wellFormed = true)
    (hmode : effMode s.regs cls = .ok mode) (hm : mode ≠ .machine) (h : sok = false ∨ entryGrants s mode cls pte = false) :
    exec (.checkPerm cls amo sok va pte) s = .next (s.beginOp.raise (pfKind cls amo) va) := by
  have hcheck : checkPerm cls amo sok va pte s.beginOp = .raised (s.beginOp.raise (pfKind cls amo) va) :=
    checkPerm_eq_raised.2 ⟨mode, hmode, hm, permOk_eq_false (s := s) hm h, rfl⟩
  rw [exec_checkPerm_eq hwf, hcheck, andThen_raised, finish_raised]

end CheckPerm

/-- Settles O35: a granted access is answered, and a denied one leaves the exception output asserted. -/
theorem checkPermCompletes : Obligations.CheckPermCompletes := by
  unfold Obligations.CheckPermCompletes
  intro s cls amo va pte mode hwf hmode hm
  refine ⟨exec_checkPerm_granted hwf hmode hm, fun t hexec hexc => ?_⟩
  by_contra hdenied
  rw [exec_checkPerm_denied hwf hmode hm (.inr (Bool.eq_false_iff.2 hdenied))] at hexec
  cases hexec
  simp at hexc

/-- Settles O36: the denial raises on the state with its outputs cleared. -/
theorem checkPermRaisesOnDenial : Obligations.CheckPermRaisesOnDenial := by
  unfold Obligations.CheckPermRaisesOnDenial
  intro s cls amo sok va pte mode hwf hmode hm hdenied
  rw [← pfKind_eq]
  exact exec_checkPerm_denied hwf hmode hm hdenied

/-! ## The refusals of the effective mode -/

section Refusals
variable {s : State} {cls : AccessClass} {amo sok : Bool} {va pte len pa : Word} {r : Refusal}

theorem checkPerm_in_machineMode (hmode : effMode s.regs cls = .ok .machine) :
    checkPerm cls amo sok va pte s = .abort .evaluatorInMachineMode := by
  simp [checkPerm, hmode]

theorem checkPerm_of_effMode_error (h : effMode s.regs cls = .error r) : checkPerm cls amo sok va pte s = .abort r := by
  simp [checkPerm, h]

theorem translate_of_effMode_error (h : effMode s.regs cls = .error r) : translate cls amo va s = .abort r := by
  simp [Machine.translate, h]

theorem accessChecks_of_effMode_error (h : effMode s.regs cls = .error r) : accessChecks cls pa len s = .abort r := by
  simp [accessChecks, h]

/-- Without an effective mode an access is refused under either flag: by its translation, or by its region checks (R240, R265). -/
theorem access_of_effMode_error (h : effMode s.regs cls = .error r) :
    ((accessAddr cls amo va s).andThen fun pa u => accessChecks cls pa len u) = .abort r := by
  cases hflag : modeFlag s cls with
  | direct => rw [accessAddr_direct hflag, andThen_ok, accessChecks_of_effMode_error h]
  | translate => rw [accessAddr_translate hflag, translate_of_effMode_error h, andThen_abort, andThen_abort]

end Refusals

/-- Settles O37: the evaluator and the walker look at the effective mode first, and so does an access that has passed the validator. -/
theorem badEffectiveModesAreRefused : Obligations.BadEffectiveModesAreRefused := by
  unfold Obligations.BadEffectiveModesAreRefused
  constructor
  · intro s cls amo sok va pte hamo
    refine ⟨fun hmachine => ?_, fun hcode => ?_⟩
    · rw [exec_checkPerm_eq (wellFormed_checkPerm hamo), checkPerm_in_machineMode (s := s.beginOp) hmachine, andThen_abort,
        finish_abort]
    · have hbad : effMode s.beginOp.regs cls = .error .badMode := effMode_of_code_two hcode
      constructor
      · rw [exec_checkPerm_eq (wellFormed_checkPerm hamo), checkPerm_of_effMode_error hbad, andThen_abort, finish_abort]
      · rw [exec_translate_eq (wellFormed_translate hamo va), translate_of_effMode_error hbad, andThen_abort, finish_abort]
  · intro s cls amo va len hwf hmirror hrange halign
    rw [exec_access_eq hwf (.inl hmirror) (.inl hmirror) hrange halign]
    refine ⟨fun hcode => ?_, fun hflag hmachine => ?_⟩
    · rw [access_of_effMode_error (s := s.beginOp) (effMode_of_code_two hcode), finish_abort]
    · rw [accessAddr_translate (s := s.beginOp) hflag, translate_in_machineMode (s := s.beginOp) hmachine, andThen_abort,
        andThen_abort, finish_abort]

end Sys2Proof

/-! Proofs of the statements about the PMP region checker (44_pmp_region_checker.md): the test points of a check, what an entry covers,
which entry decides, and what `PMP_CHECK` answers with and without a lookup table. -/

namespace Sys2Proof

open Sys2Proof.Machine Sys2Proof.Claims

/-! ## The test points -/

theorem length_testPoints (pa len : Word) : (testPoints pa len).length = (len.toNat + 3) / 4 := by
  rw [testPoints, List.length_map, List.length_range]

theorem getElem?_testPoints_eq_some {pa len p : Word} {k : Nat} :
    (testPoints pa len)[k]? = some p ↔ k < (len.toNat + 3) / 4 ∧ p = pa + BitVec.ofNat 64 (4 * k) := by
  simp only [testPoints, List.getElem?_eq_some_iff, List.length_map, List.length_range, List.getElem_map, List.getElem_range,
    exists_prop]
  exact and_congr_right' eq_comm

/-- Settles O41: the points are the offsets `4k` below the length, which do not wrap before they are added to the address. -/
theorem testPointsEveryFourBytes : Obligations.TestPointsEveryFourBytes := by
  unfold Obligations.TestPointsEveryFourBytes
  refine fun pa len => ⟨length_testPoints pa len, fun k p hp => ?_⟩
  obtain ⟨hk, rfl⟩ := getElem?_testPoints_eq_some.1 hp
  refine ⟨?_, by omega⟩
  rw [BitVec.toNat_add, BitVec.toNat_ofNat, Nat.add_mod_mod]

/-! ## What an entry covers -/

/-- TOR compares the address with the bounds as numbers (R104, R185). -/
theorem torMatch_regionBound_iff (a base cur : Word) :
    torMatch base (regionBound a) cur = true ↔ base.toNat ≤ cur.toNat ∧ cur.toNat < a.toNat * 4 % 2 ^ 64 := by
  rw [torMatch, Bool.and_eq_true, decide_eq_true_iff, decide_eq_true_iff, BitVec.le_def, BitVec.lt_def, regionBound,
    BitVec.toNat_shiftLeft, Nat.shiftLeft_eq]

/-- The NA4 mask has every bit but the lowest two (R106). -/
theorem getLsbD_na4Mask (i : Nat) : na4Mask.getLsbD i = true ↔ 2 ≤ i ∧ i < 64 := by
  rw [na4Mask, BitVec.getLsbD_shiftLeft, BitVec.getLsbD_not, BitVec.getLsbD_zero]
  simp
  omega

/-- Under the NA4 mask an address matches when its bits 63:2 are the field's bits 61:0 (R106). -/
theorem maskMatch_na4Mask_iff (a cur : Word) : maskMatch na4Mask a cur = true ↔ cur.toNat / 4 = a.toNat % 2 ^ 62 := by
  have hslice : cur.extractLsb' 2 62 = a.setWidth 62 ↔ cur.toNat / 4 = a.toNat % 2 ^ 62 := by
    have hlt : cur.toNat < 2 ^ 64 := cur.isLt
    rw [← BitVec.toNat_inj, BitVec.extractLsb'_toNat, BitVec.toNat_setWidth, Nat.shiftRight_eq_div_pow,
      Nat.mod_eq_of_lt (by omega)]
  rw [← hslice, maskMatch_iff, BitVec.eq_of_getLsbD_eq_iff]
  have hcur (i : Nat) (hi : i < 62) : (cur.extractLsb' 2 62).getLsbD i = cur.getLsbD (i + 2) := by
    rw [BitVec.getLsbD_extractLsb', decide_eq_true hi, Bool.true_and, Nat.add_comm]
  have hfield (i : Nat) (hi : i < 62) : (a.setWidth 62).getLsbD i = (a <<< 2).getLsbD (i + 2) := by
    rw [BitVec.getLsbD_setWidth, BitVec.getLsbD_shiftLeft]
    simp [hi, show i + 2 < 64 by omega]
  constructor
  · intro h i hi
    rw [hcur i hi, hfield i hi]
    exact h (i + 2) ((getLsbD_na4Mask _).2 (by omega))
  · intro h i hmask
    obtain ⟨hlow, hhigh⟩ := (getLsbD_na4Mask i).1 hmask
    obtain ⟨k, rfl⟩ := Nat.exists_eq_add_of_le' hlow
    rw [← hcur k (by omega), ← hfield k (by omega)]
    exact h k (by omega)

/-- Settles O43: bits 4:3 select the comparison, and each comparison is read as one of numbers. -/
theorem offTorAndNa4Match : Obligations.OffTorAndNa4Match := by
  unfold Obligations.OffTorAndNa4Match
  refine fun c a base cur => ⟨fun hoff => ?off, fun htor => ?tor, fun hna4 => ?na4, fun hnapot => ?napot⟩
  case off => simp [pointMatch, regionMode, hoff]
  case tor => simpa [pointMatch, regionMode, htor] using torMatch_regionBound_iff a base cur
  case na4 => simpa [pointMatch, regionMode, hna4] using maskMatch_na4Mask_iff a cur
  case napot => simp [pointMatch, regionMode, hnapot]

/-! ## The entry that decides -/

section Scan
variable {α : Type} {region : α → Region} {l rest : List α} {base : Word} {pts : List Word} {e : α}

/-- The scan passes an entry that covers no test point, and takes its bound as the next base (R184). -/
theorem regionScan_cons_of_none (h : ∀ p ∈ pts, pointMatch (region e) base p = false) :
    regionScan region (e :: rest) base pts = regionScan region rest (regionBound (region e).addr) pts := by
  have hany : anyMatch (region e) base pts = false := List.any_eq_false.2 fun p hp => by simp [h p hp]
  rw [regionScan, hany, if_neg Bool.false_ne_true]

/-- An entry that covers some test point decides, by whether it covers them all (R182). -/
theorem regionScan_cons_of_any (h : ∃ p ∈ pts, pointMatch (region e) base p = true) :
    regionScan region (e :: rest) base pts =
      if allMatch (region e) base pts then .full e (regionBase (region e) base) else .partialMatch e := by
  have hany : anyMatch (region e) base pts = true := List.any_eq_true.2 h
  rw [regionScan, hany, if_pos rfl]

theorem regionScan_cons_of_all (hany : ∃ p ∈ pts, pointMatch (region e) base p = true)
    (hall : ∀ p ∈ pts, pointMatch (region e) base p = true) :
    regionScan region (e :: rest) base pts = .full e (regionBase (region e) base) := by
  rw [regionScan_cons_of_any hany, allMatch, if_pos (List.all_eq_true.2 hall)]

theorem regionScan_cons_of_not_all (hany : ∃ p ∈ pts, pointMatch (region e) base p = true)
    (hnot : ∃ p ∈ pts, pointMatch (region e) base p = false) :
    regionScan region (e :: rest) base pts = .partialMatch e := by
  obtain ⟨p, hp, hp'⟩ := hnot
  rw [regionScan_cons_of_any hany, allMatch, List.all_eq_false.2 ⟨p, hp, Bool.eq_false_iff.1 hp'⟩, if_neg Bool.false_ne_true]

/-- Where the first `n` entries cover no test point, the scan of the array is the scan of what follows them, from their running base
(R184). -/
theorem regionScan_drop (n : Nat)
    (h : ∀ (j : Nat) (d : α), j < n → l[j]? = some d → ∀ p ∈ pts, covers region l j d p = false) :
    regionScan region l 0#64 pts = regionScan region (l.drop n) (baseOf region l n) pts := by
  induction n with
  | zero => rfl
  | succ n ih =>
    rw [ih fun j d hj => h j d (Nat.lt_succ_of_lt hj)]
    cases hn : l[n]? with
    | none =>
      have hpast : l.length ≤ n := List.getElem?_eq_none_iff.1 hn
      rw [List.drop_of_length_le hpast, List.drop_of_length_le (Nat.le_succ_of_le hpast)]
      rfl
    | some d =>
      obtain ⟨hlt, rfl⟩ := List.getElem?_eq_some_iff.1 hn
      rw [List.drop_eq_getElem_cons hlt, regionScan_cons_of_none (h n _ (Nat.lt_succ_self n) hn), baseOf, hn]
      rfl

end Scan

/-- Settles O40: the entries before the deciding one are dropped from the scan, and the one at its head decides. -/
theorem firstMatchingEntryDecides : Obligations.FirstMatchingEntryDecides := by
  unfold Obligations.FirstMatchingEntryDecides
  refine fun α region l pa len => ⟨fun i e hi hbefore hany => ?decides, fun hnone => ?passes⟩
  case decides =>
    obtain ⟨hlt, rfl⟩ := List.getElem?_eq_some_iff.1 hi
    rw [regionMatch, regionScan_drop i hbefore, List.drop_eq_getElem_cons hlt]
    exact ⟨regionScan_cons_of_all hany, regionScan_cons_of_not_all hany⟩
  case passes =>
    rw [regionMatch, regionScan_drop l.length fun j d _ => hnone j d, List.drop_length]
    rfl

/-! ## The answers of `PMP_CHECK` -/

section PmpCheck
variable {s t : State} {cls : AccessClass} {mode : Mode} {pa len p rbase : Word} {e : PmpEntry} {b : Bool}

theorem wellFormed_pmpCheck (hlen : len ≠ 0#64) : (Instr.pmpCheck cls mode pa len).wellFormed = true :=
  bne_iff_ne.2 hlen

/-- `PMP_CHECK` responds with the answer of its body (R94, R180). -/
theorem exec_pmpCheck_of_ok (hlen : len ≠ 0#64) (h : pmpCheck cls mode pa len s.beginOp = .ok b t) :
    exec (.pmpCheck cls mode pa len) s = .next (t.respond (okResponse (if b then 1#64 else 0#64))) := by
  simp only [exec, execPmpCheck, serve_of_wellFormed (wellFormed_pmpCheck hlen), h, andThen_ok, finish_ok, boolWord]

/-- Nothing is configured when every entry's mode bits are 0 (R34, R192). -/
theorem not_anyConfigured_eq_all_off (l : List PmpEntry) :
    (!anyConfigured PmpEntry.region l) = l.all fun e => e.region.cfg.extractLsb' 3 2 == 0#2 := by
  have hoff (c : BitVec 8) : (regionMode c == .off) = (c.extractLsb' 3 2 == 0#2) := by
    rw [regionMode]
    generalize c.extractLsb' 3 2 = m
    revert m
    decide
  rw [anyConfigured, List.not_any_eq_all_not]
  simp [bne, hoff]

/-- Without its table a fully matching entry decides by mode and lock bit, then by the class's bit (R190). -/
theorem pmpPerm_of_not_tableConsulted (h : tableConsulted s e mode = false) :
    pmpPerm e rbase pa len cls mode s =
      .ok ((mode == .machine && !e.region.cfg.getLsbD 7) || cfgBit e.region.cfg cls) s := by
  have hbit : cfgAllows e.region.cfg cls = cfgBit e.region.cfg cls := by cases cls <;> rfl
  have hbypass : (mode = .machine ∧ cfgL e.region.cfg = false) ↔ (mode == .machine && !e.region.cfg.getLsbD 7) = true := by
    rw [Bool.and_eq_true, beq_iff_eq, Bool.not_eq_true', cfgL]
  have htable :
      (s.cfg.pmptableExt = true ∧ cfgT e.region.cfg = true) ↔ (s.cfg.pmptableExt && e.region.cfg.getLsbD 5) = true := by
    rw [Bool.and_eq_true, cfgT]
  rw [tableConsulted, Bool.and_assoc] at h
  simp only [pmpPerm, hbypass, htable, hbit]
  cases hmode : mode == .machine && !e.region.cfg.getLsbD 7 with
  | true => rfl
  | false =>
    rw [hmode, Bool.not_false, Bool.true_and] at h
    rw [h]
    rfl

/-- Where no table is consulted the check changes nothing (R180, R187, R190, R192). -/
theorem pmpCheck_of_pmpAnswers (h : pmpAnswers s cls mode pa len b) : pmpCheck cls mode pa len s = .ok b s := by
  unfold pmpAnswers at h
  unfold pmpCheck
  cases hmatch : regionMatch PmpEntry.region s.regs.pmp pa len with
  | partialMatch e =>
    rw [hmatch] at h
    exact h ▸ rfl
  | none =>
    rw [hmatch] at h
    rw [h, ← not_anyConfigured_eq_all_off]
  | full e rbase =>
    rw [hmatch] at h
    obtain ⟨htable, rfl⟩ := h
    exact pmpPerm_of_not_tableConsulted htable

/-! ## The lookup table -/

/-- The lookup of a test point answers what memory holds for it (R194, R196). -/
theorem pmptPoint_of_pointAllowed (h : pointAllowed s e rbase cls p = some b) :
    ∃ l, pmptPoint e.tbase rbase p cls s = .ok b (s.logAll l) := by
  obtain ⟨n, hnibble, rfl⟩ := Option.map_eq_some_iff.1 h
  obtain ⟨l, hlookup⟩ := pmptNibble_of_tableNibble hnibble
  exact ⟨l, by rw [pmptPoint, hlookup, andThen_ok, logAll_cfg]⟩

/-- Where the table answers, so does the check; all it changes is the record of its table reads (R190, R194). -/
theorem pmpCheck_of_tableAnswers (h : tableAnswers s cls mode pa len b) :
    ∃ reads, (∀ r ∈ reads, isTableRead r) ∧ pmpCheck cls mode pa len s = .ok b (withReads s reads) := by
  obtain ⟨e, rbase, hfull, htable, hpermits, hdenies⟩ := h
  have hanswer : ∃ l, pmptPerm e.tbase rbase cls (testPoints pa len) s = .ok b (s.logAll l) := by
    cases b with
    | true =>
      obtain ⟨l, hperm⟩ := pmptPerm_permitted (testPoints pa len) []
        (fun q hq => pmptPoint_permitted (hpermits rfl q hq)) []
      rw [List.append_nil, logAll_nil] at hperm
      exact ⟨_, hperm⟩
    | false =>
      obtain ⟨before, p, after, hpoints, hbefore, hdenied⟩ := hdenies rfl
      obtain ⟨k, hperm⟩ := pmptPerm_permitted before (p :: after) (fun q hq => pmptPoint_permitted (hbefore q hq)) []
      obtain ⟨l, hpoint⟩ := pmptPoint_of_pointAllowed (s := s.logAll ([] ++ k)) hdenied
      rw [logAll_nil] at hperm
      exact ⟨_, by rw [hpoints, hperm, pmptPerm, hpoint, logAll_logAll]; rfl⟩
  obtain ⟨l, hperm⟩ := hanswer
  obtain ⟨reads, hstate, hreads⟩ := pmptPerm_reads _ hperm
  exact ⟨reads, hreads, by rw [pmpCheck_of_tableConsulted hfull htable, hperm, hstate]; rfl⟩

theorem exec_pmpCheck_of_tableAnswers (hlen : len ≠ 0#64) (h : tableAnswers s cls mode pa len b) :
    ∃ reads, (∀ r ∈ reads, isTableRead r) ∧
      exec (.pmpCheck cls mode pa len) s =
        .next ((withReads s.beginOp reads).respond (okResponse (if b then 1#64 else 0#64))) := by
  obtain ⟨reads, hreads, hcheck⟩ := pmpCheck_of_tableAnswers (s := s.beginOp) h
  exact ⟨reads, hreads, exec_pmpCheck_of_ok hlen hcheck⟩

/-- Where memory holds the nibble of every test point, the table answers by all of them: it permits each, or there is a first that it
denies. -/
theorem tableAnswers_of_pointAllowed {f : Word → Bool} (hfull : regionMatch PmpEntry.region s.regs.pmp pa len = .full e rbase)
    (htable : tableConsulted s e mode = true) (h : ∀ p ∈ testPoints pa len, pointAllowed s e rbase cls p = some (f p)) :
    tableAnswers s cls mode pa len ((testPoints pa len).all f) := by
  refine ⟨e, rbase, hfull, htable, fun hall p hp => ?permits, fun hnot => ?denies⟩
  case permits => rw [h p hp, List.all_eq_true.1 hall p hp]
  case denies =>
    have hsome : ((testPoints pa len).find? fun p => !f p).isSome = true := by
      simpa [List.find?_isSome] using hnot
    obtain ⟨p, hfind⟩ := Option.isSome_iff_exists.1 hsome
    obtain ⟨hdenied, before, after, hpoints, hbefore⟩ := List.find?_eq_some_iff_append.1 hfind
    simp only [Bool.not_eq_true', Bool.not_not] at hdenied hbefore
    rw [hpoints] at h
    exact ⟨before, p, after, hpoints, fun q hq => by rw [h q (by simp [hq]), hbefore q hq], by rw [h p (by simp), hdenied]⟩

end PmpCheck

/-- Settles O44: the body of the check answers, and its answer is the response. -/
theorem pmpCheckCompletes : Obligations.PmpCheckCompletes := by
  unfold Obligations.PmpCheckCompletes
  intro s cls mode pa len b hlen hanswer
  exact exec_pmpCheck_of_ok hlen (pmpCheck_of_pmpAnswers (s := s.beginOp) hanswer)

/-- Settles O45: the second half is the lookup itself; the first is the case of it where the table has a nibble for every test point. -/
theorem pmpTableCheckCompletes : Obligations.PmpTableCheckCompletes := by
  unfold Obligations.PmpTableCheckCompletes
  refine ⟨fun s cls mode pa len e rbase nibble hlen hfull htable hnibbles => ?all,
    fun s cls mode pa len b => exec_pmpCheck_of_tableAnswers⟩
  case all =>
    have hpoints : ∀ p ∈ testPoints pa len, pointAllowed s e rbase cls p =
        some (pmptBit s.cfg.pmpt (pmptNormalise s.cfg.pmpt (nibble p)) cls) := fun p hp => by
      rw [pointAllowed, hnibbles p hp, Option.map_some]
    have hanswer := tableAnswers_of_pointAllowed hfull htable hpoints
    obtain ⟨reads, hreads, hexec⟩ := exec_pmpCheck_of_tableAnswers hlen hanswer
    exact ⟨_, hexec, rfl, rfl, hreads⟩

/-! ## What the region checks leave unchanged -/

/-- Settles O46: either check responds with a Boolean, on a state that differs from the first in its outputs alone. -/
theorem regionChecksNeverRaise : Obligations.RegionChecksNeverRaise := by
  unfold Obligations.RegionChecksNeverRaise
  intro s t cls mode pa len h
  have hbool : ∀ b : Bool, some (boolWord b) = some 0#64 ∨ some (boolWord b) = some 1#64 := by decide
  rcases h with hpmp | hspmp
  · obtain ⟨b, l, -, rfl⟩ := exec_pmpCheck_next hpmp
    exact ⟨rfl, hbool b, rfl⟩
  · rw [exec_spmpCheck_next hspmp]
    exact ⟨rfl, hbool _, rfl⟩

end Sys2Proof

/-! Proofs of the statement about the SPMP region checker (45_spmp_region_checker.md): what `SPMP_CHECK` answers, by the mode of the
request and the entry that decides. -/

namespace Sys2Proof

open Sys2Proof.Machine Sys2Proof.Claims

section SpmpCheck
variable {s : State} {cls : AccessClass} {mode : Mode} {pa len : Word} {e : Region} {rbase : Word}
  {c : Config} {r : CoreRegs} {cfg : BitVec 8}

/-- The two region checks have one domain (R111). -/
theorem wellFormed_spmpCheck (h : len ≠ 0#64) : (Instr.spmpCheck cls mode pa len).wellFormed = true :=
  wellFormed_pmpCheck (cls := cls) (mode := mode) (pa := pa) h

/-- An entry that covers some test point but not every one denies, in machine mode too (R212). -/
theorem spmpCheck_of_partialMatch (h : regionMatch id s.regs.spmp pa len = .partialMatch e) :
    spmpCheck s.cfg s.regs cls mode pa len = false := by
  rw [spmpCheck, h]

/-- Where no entry covers a test point the access is allowed, whatever the mode (R211). -/
theorem spmpCheck_of_no_match (h : regionMatch id s.regs.spmp pa len = .none) :
    spmpCheck s.cfg s.regs cls mode pa len = true := by
  rw [spmpCheck, h]

/-- An entry that covers every test point decides by its permission set (R213). -/
theorem spmpCheck_of_full_match (h : regionMatch id s.regs.spmp pa len = .full e rbase) :
    spmpCheck s.cfg s.regs cls mode pa len = spmpPerm s.cfg s.regs e.cfg cls mode := by
  rw [spmpCheck, h]

/-- A full match leaves machine mode unrestricted (R216). -/
theorem spmpPerm_machine : spmpPerm c r cfg cls .machine = true := rfl

/-- In user mode the user table decides, whatever `sum` is (R213). -/
theorem spmpPerm_user :
    spmpPerm c r cfg cls .user = permAllows (c.spmpPerm.user.get (spmpKey cfg).toFin) cls := rfl

/-- In supervisor mode `sum` selects the table (R213). -/
theorem spmpPerm_supervisor :
    spmpPerm c r cfg cls .supervisor =
      permAllows ((if r.sum then c.spmpPerm.sup1 else c.spmpPerm.sup0).get (spmpKey cfg).toFin) cls := by
  cases hsum : r.sum <;> simp [spmpPerm, spmpSet, hsum]

/-- The check answers by the entry that decides: none, one that covers part of the access, or one that covers it all and then decides by
the mode (R210 to R213, R216). -/
theorem spmpCheck_eq_spmpAnswer : spmpCheck s.cfg s.regs cls mode pa len = spmpAnswer s cls mode pa len := by
  unfold spmpAnswer
  cases hmatch : regionMatch id s.regs.spmp pa len with
  | partialMatch e => exact spmpCheck_of_partialMatch hmatch
  | none => exact spmpCheck_of_no_match hmatch
  | full e rbase =>
    rw [spmpCheck_of_full_match hmatch]
    cases mode with
    | machine => exact spmpPerm_machine
    | user => exact spmpPerm_user
    | supervisor => exact spmpPerm_supervisor

/-- A check of a non-empty access is served by its body, which changes no state (R210). -/
theorem exec_spmpCheck_eq (hlen : len ≠ 0#64) :
    exec (.spmpCheck cls mode pa len) s =
      .next (s.beginOp.respond (okResponse (boolWord (spmpCheck s.cfg s.regs cls mode pa len)))) := by
  rw [exec, execSpmpCheck, serve_of_wellFormed (wellFormed_spmpCheck hlen), finish_ok]
  rfl

end SpmpCheck

/-- Settles O47: the request is well-formed, and the body's answer is the one the deciding entry gives. -/
theorem spmpCheckCompletes : Obligations.SpmpCheckCompletes := by
  unfold Obligations.SpmpCheckCompletes
  intro s cls mode pa len hlen
  rw [exec_spmpCheck_eq hlen, spmpCheck_eq_spmpAnswer, boolWord]

end Sys2Proof

/-! Proofs of the statements about the fault injector (46_fault_injector_mux.md): the count of a class's cell, over one considered request
and over a run of them, and what `TRANSLATE` answers where the guide names the class's fault. -/

namespace Sys2Proof

open Sys2Proof.Machine Sys2Proof.Claims

/-! ## The count of a cell -/

section Count
variable {c : FiCell} {va : Word}

/-- What a considered request makes the count, as a number: one more at the cell's own address, up to 6, and 1 at a new one (R227). -/
def Machine.FiCell.nextCount (c : FiCell) (va : Word) : Nat := if c.last = va then min (c.count.toNat + 1) 6 else 1

theorem nextCount_of_same (h : c.last = va) : c.nextCount va = min (c.count.toNat + 1) 6 := if_pos h

theorem nextCount_of_new (h : c.last ≠ va) : c.nextCount va = 1 := if_neg h

theorem nextCount_le (c : FiCell) (va : Word) : c.nextCount va ≤ 6 := by
  rw [FiCell.nextCount]
  split <;> omega

theorem considered_eq (c : FiCell) (va : Word) :
    c.considered va = { last := va, count := BitVec.ofNat 3 (c.nextCount va) } := by
  by_cases h : c.last = va
  · rw [nextCount_of_same h, FiCell.considered, if_pos h.symm]
  · rw [nextCount_of_new h, FiCell.considered, if_neg (Ne.symm h)]
    rfl

/-- The cell's three bits hold the count, so the cell reads `FI_LIMIT` exactly at 5. -/
theorem considered_count_eq_fiLimit_iff : (c.considered va).count = fiLimit ↔ c.nextCount va = 5 := by
  have hle := nextCount_le c va
  rw [considered_eq, fiLimit, ← BitVec.toNat_inj, BitVec.toNat_ofNat, BitVec.toNat_ofNat]
  omega

/-- The first considered request of a run counts 1: the address is new, or the cell has counted none at it (R227). -/
theorem nextCount_of_first (h : c.last ≠ va ∨ c.count = 0#3) : c.nextCount va = 1 := by
  by_cases hlast : c.last = va
  · have hcount : c.count = 0#3 := h.resolve_left (not_not_intro hlast)
    rw [nextCount_of_same hlast, hcount]
    rfl
  · exact nextCount_of_new hlast

/-- One more request at the address of a cell that has counted `n` of them. -/
theorem nextCount_of_repeat (va : Word) (n : Nat) :
    FiCell.nextCount { last := va, count := BitVec.ofNat 3 (min n 6) } va = min (n + 1) 6 := by
  rw [nextCount_of_same rfl, BitVec.toNat_ofNat]
  omega

end Count

/-- Settles O49, by induction on the length of the run: its first request counts 1, and each later one counts one more, up to 6. -/
theorem injectorCountsRepeats : Obligations.InjectorCountsRepeats := by
  unfold Obligations.InjectorCountsRepeats
  intro c va n hn hfirst
  induction n, hn using Nat.le_induction with
  | base => rw [Function.iterate_one, considered_eq, nextCount_of_first hfirst]; rfl
  | succ n _ ih => rw [Function.iterate_succ_apply', ih, considered_eq, nextCount_of_repeat]

/-! ## The walk up to the injector -/

section Consult
variable {s : State} {cls : AccessClass} {amo : Bool} {va a pte : Word} {path : List (Word × Word)} {mode : Mode} {level : Nat}

/-- The state once the class's cell has counted a request. -/
def Machine.State.counted (s : State) (cls : AccessClass) (va : Word) : State :=
  s.setFi (s.fi.put cls { last := va, count := BitVec.ofNat 3 ((s.fi.get cls).nextCount va) })

theorem counted_eq (s : State) (cls : AccessClass) (va : Word) :
    s.counted cls va = s.setFi (s.fi.put cls ((s.fi.get cls).considered va)) := by
  rw [State.counted, considered_eq]

/-- A request the guide names passes when it makes the count 5 (R226). -/
theorem fiConsult_passes (hnamed : guideNames s.cfg s.regs.guide cls = true) (hfifth : (s.fi.get cls).nextCount va = 5) :
    fiConsult cls va s = .ok () (s.counted cls va) :=
  fiConsult_eq_ok.2 (.inr ⟨hnamed, considered_count_eq_fiLimit_iff.2 hfifth, counted_eq s cls va⟩)

/-- A request the guide names that makes the count anything else raises the class's page fault with the reference's trap
value (R229). -/
theorem fiConsult_injects (hnamed : guideNames s.cfg s.regs.guide cls = true) (hother : (s.fi.get cls).nextCount va ≠ 5) :
    fiConsult cls va s = .raised (((s.counted cls va).setWarn (mismatchWarned va s.regs.guide.tval cls)).raise (pfKind cls false)
      s.regs.guide.tval) :=
  fiConsult_eq_raised.2 ⟨hnamed, mt considered_count_eq_fiLimit_iff.1 hother, by rw [counted_eq]; rfl⟩

/-- At a leaf that grants the access and is no misaligned superpage the injector decides, after the leaf has been marked (R156 to R158,
R163). -/
theorem leafResult_consults (hmode : effMode s.regs cls = .ok mode) (hm : mode ≠ .machine) (hlevel : level ≤ 2)
    (hgrants : entryGrants s mode cls pte = true) (hsuper : misalignedSuper level pte = false) :
    leafResult cls amo va level a pte s =
      (fiConsult cls va (markLeaf cls va a pte s)).andThen fun _ u => .ok (leafBase (pageBase (ptePpn pte)) va level) u := by
  have hcheck : checkPerm cls amo true va pte s = .ok () s :=
    checkPerm_eq_ok.2 ⟨mode, hmode, hm, (permOk_eq_entryGrants s hm cls pte).trans hgrants, rfl⟩
  have haligned : superMisaligned (pageBase (ptePpn pte)) level = false := (superMisaligned_eq hlevel pte).trans hsuper
  simp [leafResult, hcheck, haligned, markerOk]

/-- Where the chain ends in such a leaf, `TRANSLATE` is the injector's decision on the state with the leaf marked. -/
theorem translate_consults (hmode : effMode s.regs cls = .ok mode) (hm : mode ≠ .machine) (hva : signExtended va)
    (hpath : rootPath s va path = true) (hlast : path.getLast? = some (a, pte)) (hleaf : pteKind pte = .leaf)
    (hgrants : entryGrants s mode cls pte = true) (hsuper : misalignedSuper (3 - path.length) pte = false) :
    translate cls amo va s.beginOp =
      (fiConsult cls va (markLeaf cls va a pte (afterReads s cls va path))).andThen fun _ u =>
        .ok (leafBase (pageBase (ptePpn pte)) va (3 - path.length)) u := by
  obtain ⟨hpos, -, hwalk⟩ := walk_along (cls := cls) (s := s.beginOp) hpath hlast
  rw [afterEntry_leaf hleaf] at hwalk
  rw [translate_of_walk_leaf (s := s.beginOp) hmode hm hva hwalk]
  exact leafResult_consults (s := afterReads s cls va path) hmode hm (by omega) hgrants hsuper

/-- The guide names a class's fault by its code, in a guided instruction under way with a forced fault (R226, R228). -/
theorem guideNames_of_code {c : Config} {g : Guide} (hguided : c.guided = true) (hactive : g.active = true)
    (hforce : g.force = true) (hcode : g.excnum = (pfKind cls false).code) : guideNames c g cls = true := by
  simp [guideNames, pfCode, hguided, hactive, hforce, hcode]

end Consult

/-- Settles O48: the walk comes to the injector with the leaf marked, and the injector counts the request in the class's cell, passes
it at `FI_LIMIT` and raises otherwise. -/
theorem injectorDecides : Obligations.InjectorDecides := by
  unfold Obligations.InjectorDecides
  intro s cls amo va path a pte mode hwf hmode hm hva hpath hlast hleaf hgrants hsuper hguided hactive hforce hcode old count marked
  have hconsult := translate_consults (amo := amo) hmode hm hva hpath hlast hleaf hgrants hsuper
  obtain ⟨hcfg, hregs, -, -, hfi, -⟩ := markLeaf_frame cls va a pte (afterReads s cls va path)
  have hnamed : guideNames (markLeaf cls va a pte (afterReads s cls va path)).cfg
      (markLeaf cls va a pte (afterReads s cls va path)).regs.guide cls = true := by
    rw [hcfg, hregs]
    exact guideNames_of_code hguided hactive hforce hcode
  have hcounted : (markLeaf cls va a pte (afterReads s cls va path)).counted cls va = marked := by
    rw [State.counted, hfi]
    rfl
  constructor
  · intro hfifth
    rw [fiConsult_passes hnamed (by rw [hfi]; exact hfifth), hcounted, andThen_ok] at hconsult
    exact exec_translate_completes hwf hconsult
  · intro hother
    rw [fiConsult_injects hnamed (by rw [hfi]; exact hother), hcounted, hregs, andThen_raised] at hconsult
    exact ⟨_, exec_translate_raised hwf hconsult⟩

end Sys2Proof

/-! Proofs of the statements about the access pipeline (47_access_pipeline.md): the answer of an `ACCESS` whose physical address is known,
Direct or translated, and the raises that end it. -/

namespace Sys2Proof

open Sys2Proof.Machine Sys2Proof.Claims

/-! ## The checks on a physical address -/

/-- The answer of an `ACCESS` that comes to physical address `pa` in state `s`, where its PMP check answers `b` (R240, R243). -/
def accessAnswer (s : State) (cls : AccessClass) (mode : Mode) (pa len : Word) (b : Bool) : Response :=
  { status := .ok, value := pa, checks := some { pmpOk := b, spmpOk := !s.cfg.spmpEn || spmpAnswer s cls mode pa len } }

theorem withReads_nil (s : State) : withReads s [] = s := logAll_nil s

section Checks
variable {s u : State} {cls : AccessClass} {amo : Bool} {va len pa : Word} {mode : Mode} {b : Bool}

/-- The answer looks at the parameters and the consumed registers alone. -/
theorem accessAnswer_congr (hcfg : u.cfg = s.cfg) (hregs : u.regs = s.regs) :
    accessAnswer u cls mode pa len b = accessAnswer s cls mode pa len b := by
  simp only [accessAnswer, spmpAnswer, hcfg, hregs]

/-- So does a `PMP_CHECK` that consults no lookup table. -/
theorem pmpAnswers_congr (hcfg : u.cfg = s.cfg) (hregs : u.regs = s.regs) :
    pmpAnswers u cls mode pa len b ↔ pmpAnswers s cls mode pa len b := by
  simp only [pmpAnswers, tableConsulted, hcfg, hregs]

/-- The region checks answer what the PMP check has found, with the SPMP check on the same address (R243, R244). -/
theorem accessChecks_of_pmpCheck (hmode : effMode s.regs cls = .ok mode) {reads : List BusAccess}
    (h : pmpCheck cls mode pa len s = .ok b (withReads s reads)) :
    accessChecks cls pa len s = .ok (accessAnswer s cls mode pa len b) (withReads s reads) := by
  rw [accessChecks, hmode, ofExcept_ok, andThen_ok, h, andThen_ok, accessAnswer, ← spmpCheck_eq_spmpAnswer]
  rfl

/-- An `ACCESS` that has come to its physical address completes with the checks on it, by region bits or by lookup table (R190, R194,
R243). -/
theorem exec_access_completes
    (hserved : exec (.access cls amo va len) s =
      finish ((accessAddr cls amo va s.beginOp).andThen fun pa u => accessChecks cls pa len u))
    (haddr : accessAddr cls amo va s.beginOp = .ok pa u) (hmode : effMode u.regs cls = .ok mode) :
    (pmpAnswers u cls mode pa len b →
      exec (.access cls amo va len) s = .next (u.respond (accessAnswer u cls mode pa len b))) ∧
    (tableAnswers u cls mode pa len b → ∃ reads, (∀ r ∈ reads, isTableRead r) ∧
      exec (.access cls amo va len) s = .next ((withReads u reads).respond (accessAnswer u cls mode pa len b))) := by
  rw [haddr, andThen_ok] at hserved
  constructor
  · intro hregion
    have hcheck : pmpCheck cls mode pa len u = .ok b (withReads u []) :=
      (pmpCheck_of_pmpAnswers hregion).trans (by rw [withReads_nil])
    rw [hserved, accessChecks_of_pmpCheck hmode hcheck, finish_ok, withReads_nil]
  · intro htable
    obtain ⟨reads, hreads, hcheck⟩ := pmpCheck_of_tableAnswers htable
    exact ⟨reads, hreads, by rw [hserved, accessChecks_of_pmpCheck hmode hcheck, finish_ok]⟩

end Checks

/-- Settles O50: under Direct the physical address is the request's own, in the state the request began with. -/
theorem accessDirectCompletes : Obligations.AccessDirectCompletes := by
  unfold Obligations.AccessDirectCompletes
  intro s cls amo va len mode b hwf hflags hpage hdirect halign hmode
  exact exec_access_completes (exec_access_eq hwf hflags hpage (by simp [hdirect]) halign)
    (accessAddr_direct (s := s.beginOp) hdirect) hmode

/-- Settles O51: the walk leaves the leaf marked and the physical address composed, and the checks come after it. -/
theorem accessTranslatedCompletes : Obligations.AccessTranslatedCompletes := by
  unfold Obligations.AccessTranslatedCompletes
  intro s cls amo va len path a pte mode b hwf hflags hpage htranslate halign hmode hm hva hpath hlast hleaf hgrants hsuper hguide
    pa marked answer
  obtain ⟨hcfg, hregs, -⟩ : marked.cfg = s.cfg ∧ marked.regs = s.regs ∧ _ := markLeaf_frame ..
  have haddr : accessAddr cls amo va s.beginOp = .ok pa marked := by
    rw [accessAddr_translate (s := s.beginOp) htranslate,
      translate_completes hmode hm hva hpath hlast hleaf hgrants hsuper hguide]
    rfl
  have hanswer : accessAnswer marked cls mode pa len b = answer := accessAnswer_congr hcfg hregs
  rw [← pmpAnswers_congr hcfg hregs, ← hanswer]
  exact exec_access_completes (exec_access_eq hwf hflags hpage (fun _ => hva) halign) haddr (hregs ▸ hmode)

/-! ## The raises that end an access -/

section Faults
variable {s t : State} {cls : AccessClass} {amo : Bool} {va len : Word}

/-- A `VALIDATE` that ends with an exception is the raise of its body. -/
theorem validate_raised_of_exec (h : exec (.validate cls amo va len) s = .next t) (hexc : t.out.exc.isSome = true) :
    (Instr.access cls amo va len).wellFormed = true ∧ flagsUsable s.beginOp = true ∧
      validate cls amo va len s.beginOp = .raised t := by
  obtain ⟨hwf, hflags, ⟨-, rfl⟩ | hraised⟩ := exec_validate_next h
  · cases hexc
  · exact ⟨hwf, hflags, hraised⟩

/-- A `TRANSLATE` that ends with an exception is the raise of its body. -/
theorem translate_raised_of_exec (h : exec (.translate cls amo va) s = .next t) (hexc : t.out.exc.isSome = true) :
    translate cls amo va s.beginOp = .raised t := by
  rcases exec_translate_next h with ⟨w, u, hok, rfl⟩ | hraised
  · obtain ⟨-, hnone⟩ := translate_ok_operated hok
    simp [hnone] at hexc
  · exact hraised

/-- The validator raises before any call on the memory port (R130). -/
theorem validate_raised_bus (h : validate cls amo va len s.beginOp = .raised t) : t.out.bus = [] := by
  rcases validate_eq_raised.1 h with ⟨-, rfl⟩ | ⟨-, -, rfl⟩ <;> rfl

/-- A raise of the validator ends an `ACCESS` before its translation (R241). -/
theorem exec_access_of_validate_raised (hpage : pagePremise s va len) (hwf : (Instr.access cls amo va len).wellFormed = true)
    (hflags : flagsUsable s.beginOp = true) (h : validate cls amo va len s.beginOp = .raised t) :
    exec (.access cls amo va len) s = .next t := by
  have hp : pageUsable s.beginOp va len = true := pageUsable_of_premise hpage
  simp [exec, execAccess, serve_of_wellFormed hwf, hflags, hp, access, h]

end Faults

/-- Settles O53: a raise passes through the rest of the composite, whether it is the first step's or the walk's. -/
theorem accessEndsAtTheFirstFault : Obligations.AccessEndsAtTheFirstFault := by
  unfold Obligations.AccessEndsAtTheFirstFault
  intro s t cls amo va len hpage
  refine ⟨fun hvalidate hexc => ?validator, fun u hvalidate hnone hflag htranslate hexc => ?walk⟩
  case validator =>
    obtain ⟨hwf, hflags, hraised⟩ := validate_raised_of_exec hvalidate hexc
    exact ⟨exec_access_of_validate_raised hpage hwf hflags hraised, validate_raised_bus hraised⟩
  case walk =>
    rw [exec_access_of_validate hpage hvalidate hnone, accessAddr_translate (s := s.beginOp) hflag,
      translate_raised_of_exec htranslate hexc, andThen_raised, andThen_raised, finish_raised]

end Sys2Proof

/-! Proofs of the statements about exceptions (60_exceptions.md) and about reset and hazards (70_reset_and_hazards.md): how an operation
raises, what keeps the mode flags and the injector's cells, the refusals on failed premises, and reset. -/

namespace Sys2Proof

open Sys2Proof.Machine Sys2Proof.Claims

/-! ## The mode flags -/

section Flags
variable {i : Instr} {s t : State}

/-- `REFRESH_MODE` alone changes the mode flags (R283), whether the operation walks or not. -/
theorem exec_keeps_flags (hi : i ≠ .refreshMode) (h : exec i s = .next t) :
    t.fetchMode = s.fetchMode ∧ t.dataMode = s.dataMode := by
  cases hwalks : walks i with
  | false =>
    obtain ⟨-, -, -, -, -, hflags, -⟩ := nonWalkingOperationsFrame i s t hwalks h
    exact hflags hi
  | true =>
    have hoperands : ∃ cls amo va, faultOperands i = some (cls, amo, va) := by
      cases i with
      | translate cls amo va | access cls amo va _ => exact ⟨cls, amo, va, rfl⟩
      | validate | queryMode | refreshMode | checkPerm | pmpCheck | spmpCheck => cases hwalks
    obtain ⟨cls, amo, va, hoperands⟩ := hoperands
    have hset := (exec_walkFrame hwalks hoperands h).setting
    exact ⟨hset.fetchMode, hset.dataMode⟩

/-- Both flags are what the registers compute (R285). -/
theorem fresh_iff : fresh s = true ↔
    computeMode s.regs .fetch = .ok s.fetchMode ∧ computeMode s.regs .load = .ok s.dataMode := by
  have hagrees (m : Except Refusal MmuMode) (flag : MmuMode) : agrees m flag = true ↔ m = .ok flag := by
    cases m <;> simp [agrees]
  rw [fresh, Bool.and_eq_true, hagrees, hagrees]

theorem fresh_of_refreshMode (h : exec .refreshMode s = .next t) : fresh t = true := by
  obtain ⟨f, d, hf, hd, rfl⟩ := exec_refreshMode_next h
  exact fresh_iff.2 ⟨hf, hd⟩

/-- With fresh flags a refresh writes what the flags already hold, and answers 0. -/
theorem exec_refreshMode_of_fresh (h : fresh s = true) :
    exec .refreshMode s = .next (s.beginOp.respond (okResponse 0#64)) := by
  obtain ⟨hf, hd⟩ := fresh_iff.1 h
  rw [exec_refreshMode_completes hf hd, boolWord_bne, if_pos rfl]
  rfl

/-- Fresh flags stay fresh over every operation: it writes no register, and a flag by a refresh alone. -/
theorem exec_keeps_fresh (hfresh : fresh s = true) (h : exec i s = .next t) : fresh t = true := by
  by_cases hi : i = .refreshMode
  · exact fresh_of_refreshMode (hi ▸ h)
  · obtain ⟨hop, -⟩ := exec_operated h
    obtain ⟨hfetch, hdata⟩ := exec_keeps_flags hi h
    rw [fresh_iff] at hfresh ⊢
    rwa [hop.regs, hfetch, hdata]

end Flags

/-! ## The injector's cells -/

section Cells
variable {s t : State} {c : FiCell} {va : Word}

theorem considered_count_toNat (c : FiCell) (va : Word) : (c.considered va).count.toNat = c.nextCount va := by
  have hle := nextCount_le c va
  rw [considered_eq, BitVec.toNat_ofNat]
  omega

theorem one_le_nextCount (c : FiCell) (va : Word) : 1 ≤ c.nextCount va := by
  rw [FiCell.nextCount]
  split <;> omega

/-- A bounded count does not fall while its address stays (R227). -/
theorem count_le_nextCount (hbound : c.count ≤ 6#3) (hlast : c.last = va) : c.count.toNat ≤ c.nextCount va := by
  have hle : c.count.toNat ≤ 6 := hbound
  rw [nextCount_of_same hlast]
  omega

theorem fiBounded_get {f : FiCells} (h : fiBounded f) (cls : AccessClass) : (f.get cls).count ≤ 6#3 := by
  obtain ⟨hfetch, hload, hstore⟩ := h
  cases cls with
  | fetch => exact hfetch
  | load => exact hload
  | store => exact hstore

/-- Cell by cell, an operation leaves the injector as it was or considers one more request (R226, R227). -/
theorem Operated.fi_get (h : Operated s t) (cls : AccessClass) :
    t.fi.get cls = s.fi.get cls ∨ ∃ va, t.fi.get cls = (s.fi.get cls).considered va := by
  rcases h.fi with hfi | ⟨cls', va, hfi⟩ <;> rw [hfi]
  · exact .inl rfl
  · by_cases hcls : cls = cls'
    · exact .inr ⟨va, by rw [hcls, fiCells_get_put]⟩
    · exact .inl (fiCells_get_put_other _ _ _ _ hcls)

end Cells

/-! ## How an operation raises -/

/-- The two ways an operation on `va` raises `x`: by a test of its own, which names its kind and the request's address and has changed
no cell and no memory (R254, R258); or by the injector, with the reference's record (R229, R232). -/
inductive Raised (cls : AccessClass) (amo : Bool) (va : Word) (s t : State) (x : ExcOut) : Prop
  | own (hfi : t.fi = s.fi) (hmem : t.mem = s.mem) (htval : x.tval = va)
      (hkind : x.kind = pfKind cls amo ∨ (cls ≠ .fetch ∧ s.cfg.alignSoft = true ∧ x.kind = misalignedKind cls amo))
  | injected (hguide : guideNames s.cfg s.regs.guide cls = true) (hkind : x.kind = pfCode cls)
      (htval : x.tval = s.regs.guide.tval) (hmem : t.mem ≠ s.mem → s.cfg.adPolicy = .hwUpdate)

section Raises
variable {s t : State} {x : ExcOut} {cls : AccessClass} {amo : Bool} {va len : Word}

/-- A page fault raised before anything was done. -/
theorem raised_pageFault (h : (s.beginOp.raise (pfKind cls amo) va).out.exc = some x) :
    Raised cls amo va s (s.beginOp.raise (pfKind cls amo) va) x := by
  cases h
  exact .own rfl rfl rfl (.inl rfl)

theorem alignFault_enforced {c : Config} (h : alignFault c cls va len = true) : cls ≠ .fetch ∧ c.alignSoft = true := by
  simp only [alignFault, Bool.and_eq_true, bne_iff_ne] at h
  obtain ⟨⟨hsoft, hdata⟩, -⟩ := h
  exact ⟨hdata, hsoft⟩

theorem raised_of_validate (h : validate cls amo va len s.beginOp = .raised t) (hx : t.out.exc = some x) :
    Raised cls amo va s t x := by
  rcases validate_eq_raised.1 h with ⟨-, rfl⟩ | ⟨-, halign, rfl⟩
  · exact raised_pageFault hx
  · obtain ⟨hdata, hsoft⟩ := alignFault_enforced halign
    cases hx
    exact .own rfl rfl rfl (.inr ⟨hdata, hsoft, rfl⟩)

theorem raised_of_translate (h : translate cls amo va s.beginOp = .raised t) (hx : t.out.exc = some x) :
    Raised cls amo va s t x := by
  obtain ⟨-, -, ⟨hfi, hmem, -, hexc, -⟩ | ⟨hguide, -, -, hexc, level, a, p, l, -, hmem, -⟩⟩ := translate_raised_frame h
  · cases hexc.symm.trans hx
    exact .own hfi hmem rfl (.inl rfl)
  · cases hexc.symm.trans hx
    refine .injected hguide rfl rfl fun hchanged => ?_
    rcases markLeaf_mem cls va a p (s.beginOp.logAll l) with hsame | ⟨hpolicy, -⟩
    · exact absurd (hmem.trans hsame) hchanged
    · exact hpolicy

theorem raised_of_access (h : exec (.access cls amo va len) s = .next t) (hx : t.out.exc = some x) :
    Raised cls amo va s t x := by
  cases exec_access_next h with
  | validateRaised hraised => exact raised_of_validate hraised hx
  | translateRaised _ _ hraised => exact raised_of_translate hraised hx
  | direct _ _ _ _ _ _ _ ht =>
    rw [ht] at hx
    cases hx
  | translated _ u _ _ _ _ _ hok _ _ ht =>
    obtain ⟨-, hnone⟩ := translate_ok_operated hok
    rw [ht] at hx
    cases hnone.symm.trans hx

/-- Only an operation with a fault class and address raises, and it raises in one of the two ways. -/
theorem exec_raised {i : Instr} (h : exec i s = .next t) (hx : t.out.exc = some x) :
    ∃ cls amo va, faultOperands i = some (cls, amo, va) ∧ Raised cls amo va s t x := by
  have hexc : t.out.exc.isSome = true := by rw [hx]; rfl
  cases i with
  | validate cls amo va len =>
    obtain ⟨-, -, hraised⟩ := validate_raised_of_exec h hexc
    exact ⟨cls, amo, va, rfl, raised_of_validate hraised hx⟩
  | translate cls amo va => exact ⟨cls, amo, va, rfl, raised_of_translate (translate_raised_of_exec h hexc) hx⟩
  | checkPerm cls amo sok va pte =>
    refine ⟨cls, amo, va, rfl, ?_⟩
    rcases exec_checkPerm_next h with rfl | rfl
    · cases hx
    · exact raised_pageFault hx
  | access cls amo va len => exact ⟨cls, amo, va, rfl, raised_of_access h hx⟩
  | queryMode cls =>
    rw [exec_queryMode_next h] at hx
    cases hx
  | refreshMode =>
    obtain ⟨f, d, -, -, rfl⟩ := exec_refreshMode_next h
    cases hx
  | pmpCheck cls mode pa len =>
    obtain ⟨b, l, -, rfl⟩ := exec_pmpCheck_next h
    cases hx
  | spmpCheck cls mode pa len =>
    rw [exec_spmpCheck_next h] at hx
    cases hx

/-- The exception carries the value just written to the trap-value register (R256). -/
theorem Answered.tval (h : Answered t) (hx : t.out.exc = some x) : t.tval = x.tval := by
  cases h with
  | ok _ _ _ hnone => cases hnone.symm.trans hx
  | fault _ _ hexc =>
    cases hexc.symm.trans hx
    rfl

end Raises

/-! ## The refusals on failed premises -/

section Refusing
variable {s : State} {cls : AccessClass} {amo : Bool} {va len : Word}

theorem flagsUsable_of_refuse (h : s.cfg.premises = .refuse) : flagsUsable s = fresh s := by
  rw [flagsUsable, h]
  rfl

theorem pageUsable_of_refuse (h : s.cfg.premises = .refuse) (hcross : 4096 < va.toNat % 4096 + len.toNat) :
    pageUsable s va len = false := by
  have hcrosses : crossesPage va len = true := by simpa [crossesPage] using hcross
  rw [pageUsable, h, hcrosses]
  rfl

theorem exec_queryMode_unusable (h : flagsUsable s = false) : exec (.queryMode cls) s = .refused .staleModeFlags := by
  have hflags : flagsUsable s.beginOp = false := h
  have hwf : (Instr.queryMode cls).wellFormed = true := rfl
  rw [exec, execQueryMode, serve_of_wellFormed hwf, hflags]
  rfl

theorem exec_validate_unusable (hwf : (Instr.validate cls amo va len).wellFormed = true) (h : flagsUsable s = false) :
    exec (.validate cls amo va len) s = .refused .staleModeFlags := by
  have hflags : flagsUsable s.beginOp = false := h
  rw [exec, execValidate, serve_of_wellFormed hwf, hflags]
  rfl

theorem exec_access_unusable (hwf : (Instr.access cls amo va len).wellFormed = true) (h : flagsUsable s = false) :
    exec (.access cls amo va len) s = .refused .staleModeFlags := by
  have hflags : flagsUsable s.beginOp = false := h
  rw [exec, execAccess, serve_of_wellFormed hwf, hflags]
  rfl

theorem exec_access_crossing (hwf : (Instr.access cls amo va len).wellFormed = true) (h : flagsUsable s = true)
    (hpage : pageUsable s va len = false) : exec (.access cls amo va len) s = .refused .pageCrossing := by
  have hflags : flagsUsable s.beginOp = true := h
  have hcross : pageUsable s.beginOp va len = false := hpage
  rw [exec, execAccess, serve_of_wellFormed hwf, hflags, hcross]
  rfl

end Refusing

/-! ## Reset -/

/-- With a layout that aligns the leaf tables the block starts in the invariant: no memory, every entry and count zero. -/
theorem inv_resetOf {cfg : Config} (hlayout : 3 ≤ cfg.pmpt.leafShiftLeft) : Inv (State.resetOf cfg) where
  mem := ⟨.nil, by simp [State.resetOf]⟩
  pmpLength := List.length_replicate
  spmpLength := List.length_replicate
  tables := by
    refine ⟨fun e he => ?_, hlayout⟩
    rw [List.eq_of_mem_replicate he]
    rfl
  counts := by
    have hzero : fiCellReset.count ≤ 6#3 := by decide
    exact ⟨hzero, hzero, hzero⟩
  outputs := outputsAgree_of_none rfl

theorem step_reset {s : State} {rest : List CoreEvent} (h : s.inputs = .reset :: rest) :
    step s = .next { s with inputs := rest }.applyReset := by
  rw [step_of_inputs h, dropInput_eq h]
  rfl

/-! ## The obligations -/

/-- Settles O58: a raise that is not the injector's is the operation's own, and that names the operation's kind and address. -/
theorem faultRecordIsTheRequestAddress : Obligations.FaultRecordIsTheRequestAddress := by
  unfold Obligations.FaultRecordIsTheRequestAddress
  intro i s t x h hx
  obtain ⟨-, hans⟩ := exec_operated h
  obtain ⟨cls, amo, va, hoperands, hraised⟩ := exec_raised h hx
  refine ⟨hans.tval hx, cls, amo, va, hoperands, fun hunnamed => ?_⟩
  cases hraised with
  | own _ _ htval hkind => exact ⟨htval, misalignedKind_eq ▸ hkind⟩
  | injected hguide => simp [hunnamed] at hguide

/-- Settles O59: a raise of the operation's own has changed neither cells nor memory. -/
theorem faultsArePrecise : Obligations.FaultsArePrecise := by
  unfold Obligations.FaultsArePrecise
  intro i s t x h hx
  obtain ⟨cls, amo, va, hoperands, hraised⟩ := exec_raised h hx
  have hi : i ≠ .refreshMode := by
    rintro rfl
    cases hoperands
  obtain ⟨hfetch, hdata⟩ := exec_keeps_flags hi h
  refine ⟨hfetch, hdata, ?_⟩
  cases hraised with
  | own hfi hmem => exact ⟨fun hchanged => (hchanged.elim (· hfi) (· hmem)).elim, (absurd hmem ·)⟩
  | injected hguide hkind htval hmem => exact ⟨fun _ => ⟨cls, amo, va, hoperands, hguide, hkind, htval⟩, hmem⟩

/-- Settles O38: the code is the override's for a data access alone, and each code but 2 is a mode. -/
theorem effectiveModeRule : Obligations.EffectiveModeRule := by
  unfold Obligations.EffectiveModeRule
  intro r cls m
  refine ⟨?fetch, ?override, ?current, ?badMode, rfl, rfl, rfl⟩
  case fetch => rw [effMode_eq_ok, effModeCode_fetch]
  case override => exact fun hdata hmprv => by rw [effMode_eq_ok, effModeCode_of_override hmprv hdata]
  case current => exact fun hmprv => by simp [effMode_eq_ok, effModeCode_eq, hmprv]
  case badMode =>
    rw [← effModeCode_eq]
    refine ⟨fun hbad => ?_, effMode_of_code_two⟩
    by_contra hcode
    obtain ⟨mode, hmode⟩ := exists_mode_code fun h => hcode (BitVec.eq_of_toNat_eq h)
    cases hbad.symm.trans (effMode_eq_ok.2 hmode)

/-- Settles O39: the tables of R251 and R252, by their rows. -/
theorem faultKindsAndCodes : Obligations.FaultKindsAndCodes := by
  unfold Obligations.FaultKindsAndCodes
  exact ⟨fun _ => rfl, rfl, rfl, fun _ => rfl, fun _ => rfl, rfl, rfl, rfl, rfl, rfl⟩

/-- Settles O18: a refresh writes what the registers compute, and no operation writes a register. -/
theorem refreshLeavesFlagsFresh : Obligations.RefreshLeavesFlagsFresh := by
  unfold Obligations.RefreshLeavesFlagsFresh
  intro s t
  refine ⟨fun h => ?_, fun i hfresh h => exec_keeps_fresh hfresh h⟩
  have hfresh := fresh_of_refreshMode h
  exact ⟨hfresh, exec_refreshMode_of_fresh hfresh⟩

/-- Settles O19: each cell is as it was or has considered one more request. -/
theorem noOperationResetsState : Obligations.NoOperationResetsState := by
  unfold Obligations.NoOperationResetsState
  intro i s t h
  obtain ⟨hop, -⟩ := exec_operated h
  refine ⟨fun hi => exec_keeps_flags hi h, fun c => ?counted, fun c hbound hlast => ?kept, fun c hlast => ?restarted⟩
  case counted =>
    refine (hop.fi_get c).imp id fun ⟨va, hcell⟩ => ?_
    rw [hcell, considered_count_toNat]
    exact one_le_nextCount _ va
  case kept =>
    rcases hop.fi_get c with hcell | ⟨va, hcell⟩
    · rw [hcell]
    · rw [hcell] at hlast ⊢
      rw [considered_count_toNat]
      exact count_le_nextCount (fiBounded_get hbound c) hlast.symm
  case restarted =>
    rcases hop.fi_get c with hcell | ⟨va, hcell⟩
    · exact absurd (congrArg FiCell.last hcell) hlast
    · rw [hcell, considered_last] at hlast
      rw [hcell, considered_eq, nextCount_of_new (Ne.symm hlast)]

/-- Settles O54: the flags are looked at first, the page second. -/
theorem failedPremisesAreRefused : Obligations.FailedPremisesAreRefused := by
  unfold Obligations.FailedPremisesAreRefused
  intro s cls amo va len hrefuse
  have hflags := flagsUsable_of_refuse hrefuse
  refine ⟨fun hstale => ?_, fun hfresh hwf hcross => ?_⟩
  · rw [hstale] at hflags
    exact ⟨exec_queryMode_unusable hflags, fun hwf => ⟨exec_validate_unusable hwf hflags, exec_access_unusable hwf hflags⟩⟩
  · exact exec_access_crossing hwf (hflags.trans hfresh) (pageUsable_of_refuse hrefuse hcross)

/-- Settles O55: the default layout aligns its leaf tables. -/
theorem invariantHoldsAtReset : Obligations.InvariantHoldsAtReset := by
  unfold Obligations.InvariantHoldsAtReset
  exact inv_resetOf (by decide)

/-- Settles O60: the reset step is `applyReset` on the state without the event. -/
theorem resetSetsOwnedStateOnly : Obligations.ResetSetsOwnedStateOnly := by
  unfold Obligations.ResetSetsOwnedStateOnly
  intro s rest h
  refine ⟨_, step_reset h, rfl, rfl, fun c => ?_, rfl, rfl, rfl, rfl, rfl⟩
  cases c <;> exact ⟨rfl, rfl⟩

end Sys2Proof
